-- ==== Sys2Proof/Word.lean ====
section
/-! DEFINITION. The word types of the block: bytes of the bus space and 32-bit words (R10). -/

namespace Sys2Proof

/-- One byte of the bus space (R71). -/
abbrev Byte := BitVec 8

/-- One 32-bit word: a register, a buffer word, a bus datum, a bus offset (R10). -/
abbrev Word := BitVec 32

end Sys2Proof
end

