-- ==== Sys2Proof/Syntax.lean ====
section
/-! DEFINITION. The commands of HCB-1 as syntax: one constructor per row of spec/opcode_table.json. -/

namespace Sys2Proof

/-- The eight supported commands (R2, R102, R107). A command word holds no operand field (R101, R105),
so no constructor has an argument; a word that is none of these decodes to a named refusal
(Decode.lean) and the block completes it with UNSUPPORTED (R104). -/
inductive Instr where
  /-- FREQ_SCAN, R131. -/
  | freqScan
  /-- RLE_ENC, R141. -/
  | rleEnc
  /-- QRLE_ENC, R145. -/
  | qrleEnc
  /-- RLE_DEC, R150. -/
  | rleDec
  /-- HUF_ENC, R166. -/
  | hufEnc
  /-- HUF_DEC, R175. -/
  | hufDec
  /-- ARI_ENC, R195. -/
  | ariEnc
  /-- ARI_DEC, R205. -/
  | ariDec
  deriving DecidableEq, Repr

end Sys2Proof
end

