-- ==== Sys2Proof/Config.lean ====
section
/-! DEFINITION. What a build of the block fixes (the capacities and the base address of R9 and R70),
and the free values that the spec leaves open (the draws of R54, R76, R234). Nothing here has a value
that a proof can use. -/

namespace Sys2Proof

/-- The capacity parameters of R9. `NODE_CAP` is derived from `SYM_CAP`
(`Caps.nodeCap` in Machine/Ops.lean). -/
structure Caps where
  /-- PIX_CAP: the most pixels a command accepts. -/
  pixCap : Nat
  /-- RUN_CAP: the most run records in RUNS. -/
  runCap : Nat
  /-- SYM_CAP: the most entries in FREQ. -/
  symCap : Nat
  /-- BITS_CAP: the most bits in BITS. -/
  bitsCap : Nat
  deriving DecidableEq, Repr

/-- Four free naturals, one per capacity; `Config.caps` brings each into its legal range. -/
opaque Config.rawPixCap : Nat
opaque Config.rawRunCap : Nat
opaque Config.rawSymCap : Nat
opaque Config.rawBitsCap : Nat

/-- The capacities of the build that `State.reset` belongs to: any legal values of R9, and nothing
else is known of them (log entry 1). Each legal value is reached by some raw natural. -/
def Config.caps : Caps where
  pixCap := Config.rawPixCap % 2 ^ 26 + 1
  runCap := Config.rawRunCap % 2 ^ 25 + 1
  symCap := Config.rawSymCap % 2 ^ 23 + 1
  bitsCap := Config.rawBitsCap % (2 ^ 31 - 31) + 32

/-- BASE, the block's place in the platform's physical map (R70, U5). Every rule uses offsets from it,
so no definition of the machine reads it (log entry 2). -/
opaque Config.base : Nat

/-- The `n`-th draw: a 32-bit value with no law, for a read while BUSY (R271, U2) and for a location
that a runtime error leaves unspecified (R234, U3) (log entry 4). -/
opaque Config.draw : Nat → Word

/-- The byte that bus offset `a` holds from the reset numbered `epoch` on, until something writes it:
a value with no law (R54, R260, U1) (log entry 3). -/
opaque Config.initialByte : (epoch : Nat) → (a : Nat) → Byte

end Sys2Proof
end

