-- ==== Sys2Proof/Machine/Port.lean ====
section
/-! DEFINITION. The block's port to the outside: bus accesses of the host, the reset input, and the
events that the model's agenda lists. -/

namespace Sys2Proof.Machine

/-- What a host access does (R76); a write carries its data. -/
inductive BusOp where
  | read
  | write (data : Word)
  deriving DecidableEq, Repr

/-- One access of the host on the bus port: the operation, the byte offset from BASE, and the size in
bytes (R70, R72). The primitives of R76 are the accesses of size 4. -/
structure BusAccess where
  op   : BusOp
  addr : Word
  size : Nat
  deriving DecidableEq, Repr

/-- What the block answers on the bus to the latest access (R72, R76). -/
inductive BusReply where
  /-- No access since reset. -/
  | noAccess
  /-- A read returned this word. -/
  | data (w : Word)
  /-- A write was taken from the bus (stored, ignored or dropped: the host cannot tell, R272). -/
  | acknowledged
  /-- The access is refused with a bus error (R72). -/
  | busError
  deriving DecidableEq, Repr

/-- The data of a reply; a read that ends in a bus error returns 0x00000000 (R72). -/
def BusReply.readData : BusReply → Word
  | .data w => w
  | .noAccess | .acknowledged | .busError => 0

/-- What can happen next to the block (R8): the host makes an access, the platform asserts reset
(R260), or the sequencer takes its turn (R236). -/
inductive Event where
  | access (a : BusAccess)
  | reset
  | sequencer
  deriving DecidableEq, Repr

/-- R72: an access is accepted exactly when it is a 32-bit access at an offset with `addr[1:0] = 0`. -/
def BusAccess.accepted (a : BusAccess) : Bool :=
  a.size == 4 && a.addr.toNat % 4 == 0

end Sys2Proof.Machine
end

