-- ==== Sys2Proof/WellFormed.lean ====
section
/-! DEFINITION. What is well-formed: the capacities of a build (R9), a command (R101) and a host access
(R72). A command word has no operand, so every command is well-formed. -/

namespace Sys2Proof

/-- R9: every capacity is in its legal range, so every buffer fits its 256 MiB window (R74). -/
abbrev Caps.wf (c : Caps) : Prop :=
  (1 ≤ c.pixCap ∧ c.pixCap ≤ 2 ^ 26) ∧ (1 ≤ c.runCap ∧ c.runCap ≤ 2 ^ 25) ∧
  (1 ≤ c.symCap ∧ c.symCap ≤ 2 ^ 23) ∧ (32 ≤ c.bitsCap ∧ c.bitsCap ≤ 2 ^ 31)

/-- R101, R105: no operand field, so nothing to check. -/
def Instr.wf : Instr → Bool
  | .freqScan | .rleEnc | .qrleEnc | .rleDec | .hufEnc | .hufDec | .ariEnc | .ariDec => true

/-- R72: the host keeps to the bus's rule. -/
abbrev Machine.BusAccess.wf (a : Machine.BusAccess) : Prop := a.accepted = true

end Sys2Proof
end

