-- ==== Sys2Proof/Decode.lean ====
section
/-! DEFINITION. Decoding a command word (R101 to R107), total on all 32-bit words and refusing by name,
and the encoder. -/

namespace Sys2Proof

/-- Why a word is unsupported (R104, U9). The block reports one code for all three. -/
inductive DecodeError where
  /-- OP is 0x0 or 0x8 to 0xF. -/
  | unsupportedOp
  /-- A reserved bit (7:4 or 31:9) is 1. -/
  | reservedBits
  /-- Q = 1 with OP ≠ 0x2. -/
  | illegalQuantize
  deriving DecidableEq, Repr

/-- OP, bits 3:0 (R101). -/
def opField (v : Word) : Nat := v.toNat % 16

/-- Bits 7:4, reserved (R101). -/
def reservedLow (v : Word) : Nat := v.toNat / 16 % 16

/-- Q, bit 8 (R101). -/
def quantizeBit (v : Word) : Bool := v.toNat / 256 % 2 == 1

/-- Bits 31:9, reserved (R101). -/
def reservedHigh (v : Word) : Nat := v.toNat / 512

/-- R102: the unit that OP selects, with Q = 0. -/
def unitOf : Nat → Option Instr
  | 0x1 => some .freqScan
  | 0x2 => some .rleEnc
  | 0x3 => some .rleDec
  | 0x4 => some .hufEnc
  | 0x5 => some .hufDec
  | 0x6 => some .ariEnc
  | 0x7 => some .ariDec
  | _ => none

/-- Command decode (R101 to R104, R107). Where several reasons of R104 hold, the first of the order
reserved bits, OP, Q is named; the block's behaviour is the same. -/
def decode (v : Word) : Except DecodeError Instr :=
  if reservedLow v ≠ 0 ∨ reservedHigh v ≠ 0 then .error .reservedBits
  else match unitOf (opField v) with
    | none => .error .unsupportedOp
    | some i =>
      if quantizeBit v then
        if opField v = 0x2 then .ok .qrleEnc else .error .illegalQuantize
      else .ok i

/-- OP of a command (R102). -/
def opCode : Instr → Nat
  | .freqScan => 0x1
  | .rleEnc => 0x2
  | .qrleEnc => 0x2
  | .rleDec => 0x3
  | .hufEnc => 0x4
  | .hufDec => 0x5
  | .ariEnc => 0x6
  | .ariDec => 0x7

/-- Q of a command (R103). -/
def quantizeOf : Instr → Nat
  | .qrleEnc => 1
  | .freqScan | .rleEnc | .rleDec | .hufEnc | .hufDec | .ariEnc | .ariDec => 0

/-- The one word of a command (R101, R107). -/
def encode (i : Instr) : Word := BitVec.ofNat 32 (opCode i + 256 * quantizeOf i)

/-- The command that the decoder reads from the bits `w`, numbered as spec/opcode_table.json numbers
them, of which the table gives `nbits`; a command word has 32 bits (R106). -/
def decodeTableWord (nbits w : Nat) : Option Instr :=
  if w % 2 ^ nbits < 2 ^ 32 then (decode (BitVec.ofNat 32 (w % 2 ^ nbits))).toOption else none

end Sys2Proof
end

