-- ==== Sys2Proof/Machine/State.lean ====
section
/-! DEFINITION. The state of the block (10_state.md), the reasons a step can stop, and reset. -/

namespace Sys2Proof.Machine

/-- The sequencer state SEQ of R31. -/
inductive Seq where
  | idle
  | busy
  deriving DecidableEq, Repr

/-- The error codes that the block produces (R230). Codes 5 to 15 are reserved and never produced
(U8), so they have no constructor. -/
inductive ErrCode where
  | noError
  | unsupported
  | malformed
  | symbolNotFound
  | capacity
  deriving DecidableEq, Repr

/-- The six buffers of R49. -/
inductive Buf where
  | pixIn
  | pixOut
  | runs
  | bits
  | freq
  | tree
  deriving DecidableEq, Repr

/-- The 32-bit data registers of R37 to R46: those that a host read does not see while BUSY (R271). -/
inductive DataReg where
  | width
  | height
  | pixLen
  | runCount
  | bitLen
  | symCount
  | nodeCount
  | root
  | origSize
  | compSize
  | outCount
  deriving DecidableEq, Repr

/-- The contents of the data registers (R32, offsets 0x10 to 0x38). -/
structure Regs where
  width     : Word
  height    : Word
  pixLen    : Word
  runCount  : Word
  bitLen    : Word
  symCount  : Word
  nodeCount : Word
  root      : Word
  origSize  : Word
  compSize  : Word
  outCount  : Word
  deriving DecidableEq, Repr

/-- The bytes of the buffers that something has written since the last reset, by bus offset (R71, R74),
in the canonical form of `Memory.wf` (Machine/Ops.lean). An offset that is not listed holds nothing
yet; `State.readByte` gives what it reads as. -/
abbrev Memory := List Host.Cell

/-- The whole machine. ID, the CAP registers, STATUS and CTRL are views of this (Flags.lean, Bus.lean):
each piece of state is stored once. -/
structure State where
  /-- SEQ (R31); STATUS.BUSY is `seq = busy` (R35). -/
  seq      : Seq
  /-- CMD, the last accepted command word (R34). -/
  cmd      : Word
  /-- STATUS.DONE (R35). -/
  done     : Bool
  /-- STATUS.ERR (R35). -/
  err      : Bool
  /-- STATUS.ERRCODE (R35, R230). -/
  errcode  : ErrCode
  /-- CTRL.IRQ_EN (R36). -/
  irqEn    : Bool
  /-- WIDTH … OUT_COUNT (R37 to R46). -/
  regs     : Regs
  /-- PIX_IN, PIX_OUT, RUNS, BITS, FREQ and TREE (R49). -/
  mem      : Memory
  /-- The model's own: the number of the draw that fixes the unwritten buffer bytes (R54). -/
  memEpoch : Nat
  /-- The build's capacities (R9): configuration, which no step changes. -/
  caps     : Caps
  /-- The model's own: how many draws have been taken (R76, R234, R260). -/
  draws    : Nat
  /-- The model's own: the events still to come from outside, first one first (R8). -/
  agenda   : List Event
  /-- The block's answer to the latest host access (R72, R76). -/
  reply    : BusReply
  deriving DecidableEq, Repr

/-- The ways the block can stop: none. A failing command ends in STATUS and the block goes on (R238),
the renormalization is bounded (R198), a refused access only answers a bus error (R72). Nothing
raises a fault, so the type has no member; that is safe, since every step is then claimed to go on
and each next state is spelled out. -/
inductive Fault : Type
  deriving DecidableEq, Repr

/-- The ways the model can decline to give a meaning. -/
inductive Refusal where
  /-- Raised by `exec` for a command of the opcode table that has no meaning in the model; safe. No arm
  raises it now. -/
  | notModelled (mnemonic : String)
  deriving DecidableEq, Repr

/-- The data registers after reset: all 0 (R32, R262). -/
def Regs.reset : Regs where
  width := 0
  height := 0
  pixLen := 0
  runCount := 0
  bitLen := 0
  symCount := 0
  nodeCount := 0
  root := 0
  origSize := 0
  compSize := 0
  outCount := 0

/-- The block of a build with capacities `c`, right after power-on and reset (R54, R260, R262): every
register at the value of R32, SEQ idle, no buffer word written. The model's own fields: no event is
waiting, no access has been answered, the buffers' contents are draw 0 (log entries 3, 4, 5, 6). -/
def State.resetWith (c : Caps) : State where
  seq := .idle
  cmd := 0
  done := false
  err := false
  errcode := .noError
  irqEn := false
  regs := Regs.reset
  mem := []
  memEpoch := 0
  caps := c
  draws := 1
  agenda := []
  reply := .noAccess

/-- The machine right after reset, for a build whose capacities are open (log entry 1). -/
def State.reset : State := State.resetWith Config.caps

end Sys2Proof.Machine
end

