-- ==== Sys2Proof/Machine/Flags.lean ====
section
/-! DEFINITION. STATUS, CTRL and the interrupt output (R35, R36, R53, R230, R240): how they read, and
every way they change. -/

namespace Sys2Proof.Machine

/-- The number of an error code (R230). -/
def ErrCode.code : ErrCode → BitVec 4
  | .noError => 0
  | .unsupported => 1
  | .malformed => 2
  | .symbolNotFound => 3
  | .capacity => 4

/-- STATUS.BUSY: 1 exactly when SEQ = BUSY (R35). -/
def State.busy (s : State) : Bool := s.seq == .busy

/-- STATUS as the host reads it (R35): bits 31:12 are 0, 11:8 ERRCODE, 7:3 are 0, 2 ERR, 1 DONE, 0 BUSY. -/
def State.statusWord (s : State) : Word :=
  0#20 ++ s.errcode.code ++ 0#5 ++ BitVec.ofBool s.err ++ BitVec.ofBool s.done ++ BitVec.ofBool s.busy

/-- CTRL as the host reads it (R36): bit 0 IRQ_EN, bits 31:1 are 0. -/
def State.ctrlWord (s : State) : Word := 0#31 ++ BitVec.ofBool s.irqEn

/-- The level output `irq = STATUS.DONE AND CTRL.IRQ_EN` (R240). -/
def State.irq (s : State) : Bool := s.done && s.irqEn

/-- A host write of `v` to STATUS while IDLE: bit 1 = 1 clears DONE, nothing else changes (R35, R239). -/
def State.writeStatus (s : State) (v : Word) : State :=
  if v.getLsbD 1 then { s with done := false } else s

/-- A host write of `v` to CTRL while IDLE: only bit 0 is stored (R36). -/
def State.writeCtrl (s : State) (v : Word) : State := { s with irqEn := v.getLsbD 0 }

/-- The accepting CMD write of R100. The snapshot of R100 needs no storage: no event but a reset
changes a register or a buffer word before the completion step (log entry 7). -/
def State.acceptCommand (s : State) (v : Word) : State :=
  { s with cmd := v, done := false, err := false, errcode := .noError, seq := .busy }

/-- The STATUS part of the completion step (R236): ERR and ERRCODE record `code`, DONE is set, SEQ
goes back to IDLE. -/
def State.finish (s : State) (code : ErrCode) : State :=
  { s with err := code ≠ .noError, errcode := code, done := true, seq := .idle }

end Sys2Proof.Machine
end

