-- ==== Sys2Proof/Machine/Ops.lean ====
section
/-! DEFINITION. The named operations over memory and registers, and the completion of a command with its
outcome: success, or `raise Error(code)` (R232, R234, R236). Ending in an error is this block's form of
taking an exception, and it is written once, in `State.complete`; the acknowledge of R239 that
answers it is `State.writeStatus` and `State.acceptCommand` (Flags.lean). -/

namespace Sys2Proof.Machine

/-! ## Bytes -/

/-- The byte listed at offset `a`, if something has written it since the last reset. -/
def Memory.get? : Memory → Nat → Option Byte
  | [], _ => none
  | (k, b) :: m, a => if k = a then some b else Memory.get? m a

/-- Store byte `b` at offset `a`, keeping the offsets strictly rising. -/
def Memory.put : Memory → Nat → Byte → Memory
  | [], a, b => [(a, b)]
  | (k, c) :: m, a, b =>
    if a < k then (a, b) :: (k, c) :: m
    else if a = k then (a, b) :: m
    else (k, c) :: Memory.put m a b

/-- The canonical form: offsets strictly rising. An unlisted offset holds no byte yet, so no entry can
equal what an unlisted offset holds (log entry 3). -/
abbrev Memory.wf (m : Memory) : Prop := m.Pairwise (fun c d => c.1 < d.1)

/-- The byte at bus offset `a` of the buffers: the byte written last, or the draw of R54. -/
def State.readByte (s : State) (a : Nat) : Byte :=
  match Memory.get? s.mem a with
  | some b => b
  | none => Config.initialByte s.memEpoch a

/-! ## Words (little-endian, R71) -/

/-- The word whose bytes at rising offsets are `b0 b1 b2 b3` (R71). -/
def wordOfBytes (b0 b1 b2 b3 : Byte) : Word := b3 ++ b2 ++ b1 ++ b0

/-- Byte `j` of a word: bits `8j+7 : 8j` (R71). -/
def byteOfWord (v : Word) (j : Nat) : Byte := v.extractLsb' (8 * j) 8

/-- The word at bus offset `a`. -/
def State.readWord (s : State) (a : Nat) : Word :=
  wordOfBytes (s.readByte a) (s.readByte (a + 1)) (s.readByte (a + 2)) (s.readByte (a + 3))

/-- Store the word `v` at bus offset `a`. -/
def Memory.putWord (m : Memory) (a : Nat) (v : Word) : Memory :=
  Memory.put (Memory.put (Memory.put (Memory.put m a (byteOfWord v 0)) (a + 1) (byteOfWord v 1))
    (a + 2) (byteOfWord v 2)) (a + 3) (byteOfWord v 3)

/-- Store the words `vs` at the offsets `a`, `a+4`, … -/
def Memory.putWords : Memory → Nat → List Word → Memory
  | m, _, [] => m
  | m, a, v :: vs => Memory.putWords (Memory.putWord m a v) (a + 4) vs

/-! ## Buffers (R49, R74, R77) -/

/-- NODE_CAP, fixed as `2*SYM_CAP - 1` (R9). -/
def nodeCap (c : Caps) : Nat := 2 * c.symCap - 1

/-- The bus offset of word 0 of a buffer (R74). -/
def Buf.base : Buf → Nat
  | .pixIn => 0x1000_0000
  | .pixOut => 0x2000_0000
  | .runs => 0x3000_0000
  | .bits => 0x4000_0000
  | .freq => 0x5000_0000
  | .tree => 0x6000_0000

/-- The number of words of a buffer (R49). -/
def Buf.words (c : Caps) : Buf → Nat
  | .pixIn => c.pixCap
  | .pixOut => c.pixCap
  | .runs => 2 * c.runCap
  | .bits => (c.bitsCap + 31) / 32
  | .freq => 2 * c.symCap
  | .tree => 4 * nodeCap c

/-- The bus offset of word `w` of a buffer (R74). -/
def Buf.addr (b : Buf) (w : Nat) : Nat := b.base + 4 * w

/-- `BufRead(BUF, w)` (R77). -/
def State.bufRead (s : State) (b : Buf) (w : Nat) : Word := s.readWord (b.addr w)

/-- `BufWrite(BUF, w, v)` (R77). It is used only for `w` below the buffer's word count. -/
def State.bufWrite (s : State) (b : Buf) (w : Nat) (v : Word) : State :=
  { s with mem := Memory.putWord s.mem (b.addr w) v }

/-- `BufWrite(BUF, j, vs[j])` for every index `j` of `vs`, from 0 on. -/
def State.bufFill (s : State) (b : Buf) (vs : List Word) : State :=
  { s with mem := Memory.putWords s.mem (b.addr 0) vs }

/-! ## Data registers (R37 to R46) -/

/-- Read a data register. -/
def Regs.get (r : Regs) : DataReg → Word
  | .width => r.width
  | .height => r.height
  | .pixLen => r.pixLen
  | .runCount => r.runCount
  | .bitLen => r.bitLen
  | .symCount => r.symCount
  | .nodeCount => r.nodeCount
  | .root => r.root
  | .origSize => r.origSize
  | .compSize => r.compSize
  | .outCount => r.outCount

/-- Replace the contents of a data register. -/
def Regs.set (r : Regs) (d : DataReg) (v : Word) : Regs :=
  match d with
  | .width => { r with width := v }
  | .height => { r with height := v }
  | .pixLen => { r with pixLen := v }
  | .runCount => { r with runCount := v }
  | .bitLen => { r with bitLen := v }
  | .symCount => { r with symCount := v }
  | .nodeCount => { r with nodeCount := v }
  | .root => { r with root := v }
  | .origSize => { r with origSize := v }
  | .compSize => { r with compSize := v }
  | .outCount => { r with outCount := v }

/-- `Reg.NAME` (R12). -/
def State.reg (s : State) (d : DataReg) : Word := s.regs.get d

/-- `Reg.NAME <- v` (R12). -/
def State.setReg (s : State) (d : DataReg) (v : Word) : State := { s with regs := s.regs.set d v }

/-- A register read as a natural number (R105). -/
def State.regNat (s : State) (d : DataReg) : Nat := (s.reg d).toNat

/-- Store a natural number into a register; the capacity bounds of R9 keep it below 2^32 (R11). -/
def State.setRegNat (s : State) (d : DataReg) (n : Nat) : State := s.setReg d (BitVec.ofNat 32 n)

/-! ## Draws (R54, R76, R234) -/

/-- The value of the next draw. -/
def State.nextDraw (s : State) : Word := Config.draw s.draws

/-- Use the next draw up. -/
def State.advanceDraws (s : State) : State := { s with draws := s.draws + 1 }

/-- Each of the registers takes a draw of its own, numbered from `n` on. -/
def Regs.drawEach : Regs → Nat → List DataReg → Regs
  | r, _, [] => r
  | r, n, d :: ds => Regs.drawEach (r.set d (Config.draw n)) (n + 1) ds

/-- The `k` draws numbered from `n` on. -/
def drawnWords (n k : Nat) : List Word := (List.range k).map (fun j => Config.draw (n + j))

/-- The first words of each listed buffer take a draw each, numbered from `n` on. -/
def Memory.drawEach : Memory → Nat → List (Buf × Nat) → Memory
  | m, _, [] => m
  | m, n, (b, k) :: l => Memory.drawEach (Memory.putWords m (b.addr 0) (drawnWords n k)) (n + k) l

/-! ## The end of a command -/

/-- What a command's row of R108 lists as written: registers, and the first words of buffers. -/
structure WriteSet where
  regs : List DataReg
  bufs : List (Buf × Nat)
  deriving DecidableEq, Repr

/-- How many locations a write set has. -/
def WriteSet.size (w : WriteSet) : Nat := w.regs.length + (w.bufs.map Prod.snd).sum

/-- R234: every location of the write set may then hold any value: each takes a fresh draw. -/
def State.drawAll (s : State) (w : WriteSet) : State :=
  { s with
    regs := Regs.drawEach s.regs s.draws w.regs
    mem := Memory.drawEach s.mem (s.draws + w.regs.length) w.bufs
    draws := s.draws + w.size }

/-- How a command ends (R232, R234). -/
inductive Ending where
  /-- Success, with the command's writes done in `s`. -/
  | success (s : State)
  /-- UNSUPPORTED, or an error raised by a check of R233: nothing but STATUS changes. -/
  | checkError (code : ErrCode)
  /-- An error raised in processing: the locations of `w` become draws. -/
  | runError (code : ErrCode) (w : WriteSet)
  deriving DecidableEq, Repr

/-- The completion step of R236 on the state `s`, for a command that ends in `e`. This is the one place
where a command's error is recorded (R232, R234, R238). -/
def State.complete (s : State) : Ending → State
  | .success t => t.finish .noError
  | .checkError code => s.finish code
  | .runError code w => (s.drawAll w).finish code

end Sys2Proof.Machine
end

