-- ==== Sys2Proof/Machine/Bus.lean ====
section
/-! DEFINITION. The host's bus accesses (20_memory.md) and the reset input (R260). -/

namespace Sys2Proof.Machine

/-- What a bus offset names (R32, R74). -/
inductive Location where
  | id
  | cmd
  | status
  | ctrl
  | data (d : DataReg)
  | capPix
  | capRun
  | capSym
  | capNode
  | capBits
  | word (b : Buf) (w : Nat)
  | reserved
  deriving DecidableEq, Repr

/-- The register map of R32. -/
def registerMap : List (Nat × Location) :=
  [(0x00, .id), (0x04, .cmd), (0x08, .status), (0x0C, .ctrl),
   (0x10, .data .width), (0x14, .data .height), (0x18, .data .pixLen), (0x1C, .data .runCount),
   (0x20, .data .bitLen), (0x24, .data .symCount), (0x28, .data .nodeCount), (0x2C, .data .root),
   (0x30, .data .origSize), (0x34, .data .compSize), (0x38, .data .outCount),
   (0x40, .capPix), (0x44, .capRun), (0x48, .capSym), (0x4C, .capNode), (0x50, .capBits)]

/-- The buffer whose 256 MiB window has this number (R74). -/
def windowBuf : Nat → Option Buf
  | 1 => some .pixIn
  | 2 => some .pixOut
  | 3 => some .runs
  | 4 => some .bits
  | 5 => some .freq
  | 6 => some .tree
  | _ => none

/-- `lookup(addr)` for an aligned offset (R76): the register or buffer word there, or a reserved
offset (R48, R74). -/
def lookupLocation (c : Caps) (a : Nat) : Location :=
  if a < 0x1000 then (registerMap.lookup a).getD .reserved
  else
    match windowBuf (a / 0x1000_0000) with
    | none => .reserved
    | some b => if a % 0x1000_0000 / 4 < b.words c then .word b (a % 0x1000_0000 / 4) else .reserved

/-- The constant ID (R33). -/
def idWord : Word := 0x48430100

/-- The current value of a location (R32, R47, R48, R76). -/
def State.valueAt (s : State) : Location → Word
  | .id => idWord
  | .cmd => s.cmd
  | .status => s.statusWord
  | .ctrl => s.ctrlWord
  | .data d => s.reg d
  | .capPix => BitVec.ofNat 32 s.caps.pixCap
  | .capRun => BitVec.ofNat 32 s.caps.runCap
  | .capSym => BitVec.ofNat 32 s.caps.symCap
  | .capNode => BitVec.ofNat 32 (nodeCap s.caps)
  | .capBits => BitVec.ofNat 32 s.caps.bitsCap
  | .word b w => s.bufRead b w
  | .reserved => 0

/-- The locations that a read while BUSY does not see (R76, R271). -/
def Location.hiddenWhileBusy : Location → Bool
  | .data _ | .word _ _ => true
  | .id | .cmd | .status | .ctrl | .capPix | .capRun | .capSym | .capNode | .capBits | .reserved => false

/-- The block answers the access. -/
def State.answer (s : State) (r : BusReply) : State := { s with reply := r }

/-- `MemRead(addr, 4)` (R76). -/
def State.memRead (s : State) (a : Nat) : State :=
  let l := lookupLocation s.caps a
  if s.busy && l.hiddenWhileBusy then (s.answer (.data s.nextDraw)).advanceDraws
  else s.answer (.data (s.valueAt l))

/-- The RW registers among the data registers (R32). -/
def DataReg.writable : DataReg → Bool
  | .width | .height | .pixLen | .runCount | .bitLen | .symCount | .nodeCount | .root => true
  | .origSize | .compSize | .outCount => false

/-- What a write of `v` stores at a location while IDLE (R32, R35, R36, R48, R76, R100). -/
def State.storeAt (s : State) (v : Word) : Location → State
  | .cmd => s.acceptCommand v
  | .status => s.writeStatus v
  | .ctrl => s.writeCtrl v
  | .data d => if d.writable then s.setReg d v else s
  | .word b w => s.bufWrite b w v
  | .id | .capPix | .capRun | .capSym | .capNode | .capBits | .reserved => s

/-- `MemWrite(addr, 4, v)` (R76): dropped while BUSY (R272). -/
def State.memWrite (s : State) (a : Nat) (v : Word) : State :=
  (if s.busy then s else s.storeAt v (lookupLocation s.caps a)).answer .acknowledged

/-- One host access. One that R72 does not accept is refused with a bus error and changes nothing of
the block (log entry 9). -/
def State.busAccess (s : State) (x : BusAccess) : State :=
  if x.accepted then
    match x.op with
    | .read => s.memRead x.addr.toNat
    | .write v => s.memWrite x.addr.toNat v
  else s.answer .busError

/-- Reset (R260), in either sequencer state: the registers and SEQ take their reset values, a running
command is abandoned, and every buffer word becomes a fresh draw. The build and the events still to
come stay. -/
def State.applyReset (s : State) : State :=
  { State.resetWith s.caps with memEpoch := s.draws, draws := s.draws + 1, agenda := s.agenda }

end Sys2Proof.Machine
end

