-- ==== Sys2Proof/Machine/Binary64.lean ====
section
/-! DEFINITION. Binary64 values and their arithmetic (R52, R12). No rule of the spec looks at the bits of
a binary64 value, so a value is a number, not a bit pattern: every finite binary64 value is a whole
number of the smallest subnormal 2^-1074, and `mag` counts those units. -/

namespace Sys2Proof.Machine

/-- A binary64 value. A NaN's sign and payload cannot be observed (R52, U12). -/
inductive F64 where
  /-- The value `± mag * 2^-1074`. -/
  | fin (neg : Bool) (mag : Nat)
  /-- An infinity. -/
  | inf (neg : Bool)
  | nan
  deriving DecidableEq, Repr

/-- How many units of 2^-1074 make 1.0. -/
def unitsOne : Nat := 2 ^ 1074

/-- 2^1024 in units: no finite binary64 magnitude reaches it. -/
def unitsLimit : Nat := 2 ^ 2098

/-- The whole number nearest `num / den`, a tie going to the even one. -/
def roundDiv (num den : Nat) : Nat :=
  if 2 * (num % den) < den then num / den
  else if den < 2 * (num % den) then num / den + 1
  else num / den + num / den % 2

/-- The distance of neighbouring binary64 magnitudes at `num / den` units: 53 significant bits, and
never below one unit (gradual underflow). -/
def spacing (num den : Nat) : Nat := 2 ^ (Nat.log2 (num / den) - 52)

/-- The magnitude `num / den` units, rounded to nearest with ties to even, the exponent unbounded
above. -/
def roundUnits (num den : Nat) : Nat := roundDiv num (den * spacing num den) * spacing num den

/-- Rounding to nearest, ties to even, of the value `± num / den` units (R52). -/
def F64.round (neg : Bool) (num den : Nat) : F64 :=
  if roundUnits num den < unitsLimit then .fin neg (roundUnits num den) else .inf neg

/-- `rn(num / den)` (R12). -/
def rn (num den : Nat) : F64 := F64.round false (num * unitsOne) den

/-- 0.0, 0.5, 1.0 and 2.0. -/
def F64.zero : F64 := .fin false 0
def F64.half : F64 := .fin false (2 ^ 1073)
def F64.one : F64 := .fin false unitsOne
def F64.two : F64 := .fin false (2 ^ 1075)

/-- Negation, for `fsub`. -/
def F64.neg : F64 → F64
  | .fin n m => .fin (!n) m
  | .inf n => .inf (!n)
  | .nan => .nan

/-- `fadd` (R12, R52). An exact zero sum of opposite signs is +0. -/
def fadd : F64 → F64 → F64
  | .nan, _ => .nan
  | _, .nan => .nan
  | .inf a, .inf b => if a = b then .inf a else .nan
  | .inf a, .fin _ _ => .inf a
  | .fin _ _, .inf b => .inf b
  | .fin a m, .fin b n =>
    if a = b then F64.round a (m + n) 1
    else if m = n then F64.zero
    else if n < m then F64.round a (m - n) 1
    else F64.round b (n - m) 1

/-- `fsub` (R12, R52). -/
def fsub (x y : F64) : F64 := fadd x y.neg

/-- `fmul` (R12, R52). -/
def fmul : F64 → F64 → F64
  | .nan, _ => .nan
  | _, .nan => .nan
  | .inf a, .inf b => .inf (a ^^ b)
  | .inf a, .fin b n => if n = 0 then .nan else .inf (a ^^ b)
  | .fin a m, .inf b => if m = 0 then .nan else .inf (a ^^ b)
  | .fin a m, .fin b n => F64.round (a ^^ b) (m * n) unitsOne

/-- `fdiv` (R12, R52): a nonzero value over zero is an infinity of the quotient's sign, 0/0 a NaN. -/
def fdiv : F64 → F64 → F64
  | .nan, _ => .nan
  | _, .nan => .nan
  | .inf _, .inf _ => .nan
  | .inf a, .fin b _ => .inf (a ^^ b)
  | .fin a _, .inf b => .fin (a ^^ b) 0
  | .fin a m, .fin b n =>
    if n = 0 then (if m = 0 then .nan else .inf (a ^^ b))
    else F64.round (a ^^ b) (m * unitsOne) n

/-- The signed number of units of a finite value. -/
def signedUnits (neg : Bool) (mag : Nat) : Int := if neg then -(mag : Int) else mag

/-- The IEEE comparison `x <= y`; false when either is a NaN (R12, R52). -/
def F64.le : F64 → F64 → Bool
  | .nan, _ => false
  | _, .nan => false
  | .inf true, _ => true
  | _, .inf false => true
  | .inf false, _ => false
  | _, .inf true => false
  | .fin a m, .fin b n => decide (signedUnits a m ≤ signedUnits b n)

/-- The IEEE comparison `x < y`; false when either is a NaN (R12, R52). -/
def F64.lt (x y : F64) : Bool := x.le y && !(y.le x)

end Sys2Proof.Machine
end

