-- ==== Sys2Proof/Machine/Operands.lean ====
section
/-! DEFINITION. The operands of the commands (R105, R108): the pixel count, the record views of the
buffers (R80 to R84), and the input checks of R233. -/

namespace Sys2Proof.Machine

/-- A FrequencyTable entry (R83, R130). -/
structure FreqEntry where
  pix : Word
  cnt : Nat
  deriving DecidableEq, Repr

/-- A run record (R81, R140). -/
structure Run where
  pix : Word
  cnt : Nat
  deriving DecidableEq, Repr

/-- N = WIDTH * HEIGHT, exact (R37). -/
def State.pixelCount (s : State) : Nat := s.regNat .width * s.regNat .height

/-- `[PixIn[0], …, PixIn[N-1]]` in scan order (R14, R80). -/
def State.pixIn (s : State) : List Word := (List.range s.pixelCount).map (s.bufRead .pixIn)

/-- `PixOut[p]` (R80). -/
def State.pixOut (s : State) (p : Nat) : Word := s.bufRead .pixOut p

/-- `Runs[r]` (R81). -/
def State.run (s : State) (r : Nat) : Run :=
  ⟨s.bufRead .runs (2 * r), (s.bufRead .runs (2 * r + 1)).toNat⟩

/-- `Runs[0 .. RUN_COUNT-1]`. -/
def State.runList (s : State) : List Run := (List.range (s.regNat .runCount)).map s.run

/-- `Bit(i)` (R82): bit `i mod 32` of BITS word `i div 32`. -/
def State.bit (s : State) (i : Nat) : Bool := (s.bufRead .bits (i / 32)).getLsbD (i % 32)

/-- `Bit(0 .. BIT_LEN-1)`. -/
def State.bitList (s : State) : List Bool := (List.range (s.regNat .bitLen)).map s.bit

/-- `Freq[e]` (R83). -/
def State.freqEntry (s : State) (e : Nat) : FreqEntry :=
  ⟨s.bufRead .freq (2 * e), (s.bufRead .freq (2 * e + 1)).toNat⟩

/-- `Freq[0 .. SYM_COUNT-1]`. -/
def State.freqList (s : State) : List FreqEntry := (List.range (s.regNat .symCount)).map s.freqEntry

/-- `Tree[k].kind` (R84). -/
def State.treeKind (s : State) (k : Nat) : Word := s.bufRead .tree (4 * k)

/-- `Tree[k].freq` (R84). -/
def State.treeFreq (s : State) (k : Nat) : Word := s.bufRead .tree (4 * k + 1)

/-- `Tree[k].a` (R84). -/
def State.treeA (s : State) (k : Nat) : Word := s.bufRead .tree (4 * k + 2)

/-- `Tree[k].b` (R84). -/
def State.treeB (s : State) (k : Nat) : Word := s.bufRead .tree (4 * k + 3)

/-- `check_input_pixels(N)` (R233): MALFORMED comes before CAPACITY. -/
def State.checkInputPixels (s : State) : Option ErrCode :=
  if s.regNat .pixLen ≠ 4 * s.pixelCount then some .malformed
  else if s.pixelCount > s.caps.pixCap then some .capacity
  else none

/-- The size report of an encoder (R44, R45): ORIG_SIZE = PIX_LEN * 8, COMP_SIZE = `n` bits. -/
def State.writeSizes (s : State) (n : Nat) : State :=
  (s.setRegNat .origSize (s.regNat .pixLen * 8)).setRegNat .compSize n

/-- The tail of every decoder: the emitted pixels, then the zero fill, to `PixOut[0 .. N-1]`, and the
number of emitted pixels to OUT_COUNT (R46, R150, R175, R205). -/
def State.writeOut (s : State) (emitted : List Word) : State :=
  (s.bufFill .pixOut
    (emitted ++ List.replicate (s.pixelCount - emitted.length) 0)).setRegNat .outCount emitted.length

/-! ## The bit stream of an encoder (R82, R165) -/

/-- The output stream `S` of an encoder: its bits, the newest first, and how many there are. -/
structure Stream where
  newest : List Bool
  len    : Nat
  deriving DecidableEq, Repr

/-- The empty stream. -/
def Stream.empty : Stream := ⟨[], 0⟩

/-- The bits of `S`, first bit first. -/
def Stream.bits (S : Stream) : List Bool := S.newest.reverse

/-- `emit_bit(b)` (R165): CAPACITY when `len(S) = BITS_CAP`. -/
def emitBit (cap : Nat) (S : Stream) (b : Bool) : Except ErrCode Stream :=
  if S.len = cap then .error .capacity else .ok ⟨b :: S.newest, S.len + 1⟩

/-- The natural number of a bit list, first bit lowest. -/
def natOfBits : List Bool → Nat
  | [] => 0
  | b :: bs => b.toNat + 2 * natOfBits bs

/-- The BITS words of a stream (R82, R165): 32 bits a word, the first bit lowest, and 0 above the last
bit. -/
def packBits (S : List Bool) : List Word :=
  (List.range ((S.length + 31) / 32)).map
    (fun w => BitVec.ofNat 32 (natOfBits ((S.drop (32 * w)).take 32)))

/-- `write_bits(S)` (R165). -/
def State.writeBits (s : State) (S : List Bool) : State :=
  (s.bufFill .bits (packBits S)).setRegNat .bitLen S.length

/-! ## Stable sorting (R162, R192) -/

/-- Put `x` before the first element whose key is not below its own. -/
def stableInsert {α : Type} (key : α → Nat) (x : α) : List α → List α
  | [] => [x]
  | y :: ys => if key x ≤ key y then x :: y :: ys else y :: stableInsert key x ys

/-- `stable_sort_ascending`: elements of equal key keep their order. -/
def stableSort {α : Type} (key : α → Nat) : List α → List α
  | [] => []
  | x :: xs => stableInsert key x (stableSort key xs)

end Sys2Proof.Machine
end

