-- ==== Sys2Proof/Machine/Frequency.lean ====
section
/-! DEFINITION. The frequency model and FREQ_SCAN (40_frequency_model.md). -/

namespace Sys2Proof.Machine

/-- Count one occurrence of `w`: in its entry, or in a new entry at the end; none when that needs more
than `symCap` entries (R130). -/
def countPixel (symCap : Nat) (w : Word) (T : List FreqEntry) : Except ErrCode (List FreqEntry) :=
  if T.any (fun e => e.pix == w) then
    .ok (T.map (fun e => if e.pix = w then { e with cnt := e.cnt + 1 } else e))
  else if T.length = symCap then .error .capacity
  else .ok (T ++ [⟨w, 1⟩])

/-- The scan of `freq_model` from the table `T` on (R130). -/
def freqScanFrom (symCap : Nat) : List FreqEntry → List Word → Except ErrCode (List FreqEntry)
  | T, [] => .ok T
  | T, w :: P =>
    match countPixel symCap w T with
    | .error c => .error c
    | .ok T' => freqScanFrom symCap T' P

/-- `freq_model(P)` (R130). -/
def freqModel (symCap : Nat) (P : List Word) : Except ErrCode (List FreqEntry) :=
  freqScanFrom symCap [] P

/-- The FREQ words of a table (R83, R132). -/
def freqWords (T : List FreqEntry) : List Word := T.flatMap (fun e => [e.pix, BitVec.ofNat 32 e.cnt])

/-- `write_freq(T)` (R132). -/
def State.writeFreq (s : State) (T : List FreqEntry) : State :=
  (s.bufFill .freq (freqWords T)).setRegNat .symCount T.length

/-- How FREQ_SCAN ends (R131). When `freq_model` overflows, the table would have more than SYM_CAP
entries, so the whole of FREQ is in the write set (R108, R234). -/
def freqScanEnding (s : State) : Ending :=
  match s.checkInputPixels with
  | some code => .checkError code
  | none =>
    match freqModel s.caps.symCap s.pixIn with
    | .error code => .runError code ⟨[.symCount], [(.freq, Buf.words s.caps .freq)]⟩
    | .ok T => .success (s.writeFreq T)

/-- FREQ_SCAN (R131). -/
def execFreqScan (s : State) : Host.Outcome State Fault Refusal := .next (s.complete (freqScanEnding s))

end Sys2Proof.Machine
end

