-- ==== Sys2Proof/Machine/Arithmetic.lean ====
section
/-! DEFINITION. The arithmetic codec: ARI_ENC and ARI_DEC (43_arithmetic.md). -/

namespace Sys2Proof.Machine

/-- An entry of the CumulativeFrequencyTable (R191). -/
structure CumEntry where
  pix : Word
  cl  : F64
  ch  : F64
  deriving DecidableEq, Repr

/-- The interval state (R51). -/
structure Interval where
  low  : F64
  high : F64
  deriving DecidableEq, Repr

/-- `low <- 0.0, high <- 1.0` (R51). -/
def Interval.start : Interval := ⟨.zero, .one⟩

/-- `key(PW) = {R, G, B, A}`, the byte-reverse of the pixel word (R13). -/
def symbolKey (w : Word) : Word := byteOfWord w 0 ++ byteOfWord w 1 ++ byteOfWord w 2 ++ byteOfWord w 3

/-- The exact sum of the counts, `Tot` (R191, R200). -/
def totalCount (T : List FreqEntry) : Nat := (T.map FreqEntry.cnt).sum

/-- The entries of the cumulative table from the running sum `c` on (R191). -/
def cumFrom (tot : Nat) : Nat → List FreqEntry → List CumEntry
  | _, [] => []
  | c, e :: O => ⟨e.pix, rn c tot, rn (c + e.cnt) tot⟩ :: cumFrom tot (c + e.cnt) O

/-- `cum_table(T)` (R191), in the canonical order of R192. -/
def cumTable (T : List FreqEntry) : List CumEntry :=
  cumFrom (totalCount T) 0 (stableSort (fun e => (symbolKey e.pix).toNat) T)

/-- `narrow(cl, ch)` (R193). -/
def narrow (iv : Interval) (cl ch : F64) : Interval :=
  let range := fsub iv.high iv.low
  ⟨fadd iv.low (fmul range cl), fadd iv.low (fmul range ch)⟩

/-- The rescaling of R194 after the bit '0'. -/
def scaleLow (iv : Interval) : Interval := ⟨fmul iv.low .two, fmul iv.high .two⟩

/-- The rescaling of R194 after the bit '1'. -/
def scaleHigh (iv : Interval) : Interval :=
  ⟨fmul (fsub iv.low .half) .two, fmul (fsub iv.high .half) .two⟩

/-- `renormalize()` (R194), in at most `passes` passes. Each pass but the last emits a bit (R198), so
with one pass more than the stream has room the loop always ends first. -/
def renormalizeIn (cap : Nat) : Nat → Interval → Stream → Except ErrCode (Interval × Stream)
  | 0, _, _ => .error .capacity
  | passes + 1, iv, S =>
    if iv.high.le .half then
      match emitBit cap S false with
      | .error c => .error c
      | .ok S' => renormalizeIn cap passes (scaleLow iv) S'
    else if F64.half.le iv.low then
      match emitBit cap S true with
      | .error c => .error c
      | .ok S' => renormalizeIn cap passes (scaleHigh iv) S'
    else .ok (iv, S)

/-- `renormalize()` (R194). -/
def renormalize (cap : Nat) (iv : Interval) (S : Stream) : Except ErrCode (Interval × Stream) :=
  renormalizeIn cap (cap - S.len + 1) iv S

/-- The bounds of the unique table entry of a pixel (R195). Every pixel of the image has one, so the
whole unit interval is never used in its place. -/
def boundsOf (CT : List CumEntry) (w : Word) : F64 × F64 :=
  match CT.find? (fun e => e.pix == w) with
  | some e => (e.cl, e.ch)
  | none => (.zero, .one)

/-- The loop of ARI_ENC over the pixels (R195). -/
def ariEncodeFrom (cap : Nat) (CT : List CumEntry) :
    Interval → Stream → List Word → Except ErrCode (Interval × Stream)
  | iv, S, [] => .ok (iv, S)
  | iv, S, w :: P =>
    match renormalize cap (narrow iv (boundsOf CT w).1 (boundsOf CT w).2) S with
    | .error c => .error c
    | .ok r => ariEncodeFrom cap CT r.1 r.2 P

/-- The stream of ARI_ENC for the pixels `P` with the table `T`, the final bit included (R195, R196). -/
def ariEncode (cap : Nat) (T : List FreqEntry) (P : List Word) : Except ErrCode Stream :=
  match ariEncodeFrom cap (cumTable T) .start .empty P with
  | .error c => .error c
  | .ok r => emitBit cap r.2 (!(r.1.low.lt .half))

/-- The registers of ARI_ENC's row of R108. -/
def ariEncRegs : List DataReg := [.symCount, .bitLen, .origSize, .compSize]

/-- How ARI_ENC ends (R195). The write sets of its errors follow R108 and R234 (log entry 8). -/
def ariEncEnding (s : State) : Ending :=
  match s.checkInputPixels with
  | some code => .checkError code
  | none =>
    match freqModel s.caps.symCap s.pixIn with
    | .error code =>
      .runError code ⟨ariEncRegs, [(.freq, Buf.words s.caps .freq), (.bits, Buf.words s.caps .bits)]⟩
    | .ok T =>
      match ariEncode s.caps.bitsCap T s.pixIn with
      | .error code =>
        .runError code ⟨ariEncRegs, [(.freq, 2 * T.length), (.bits, Buf.words s.caps .bits)]⟩
      | .ok S => .success (((s.writeFreq T).writeBits S.bits).writeSizes S.len)

/-- ARI_ENC (R195). -/
def execAriEnc (s : State) : Host.Outcome State Fault Refusal := .next (s.complete (ariEncEnding s))

/-- `rn(2^-k)` for `k ≥ 1`: exact for `k ≤ 1074`, and 0.0 beyond (R201). -/
def bitWeight (k : Nat) : F64 := if k ≤ 1074 then .fin false (2 ^ (1074 - k)) else .zero

/-- The sum of R201 from bit index `i` on, on top of `v`. -/
def encodedFrom (i : Nat) (v : F64) : List Bool → F64
  | [] => v
  | b :: bits => encodedFrom (i + 1) (if b then fadd v (bitWeight (i + 1)) else v) bits

/-- The encoded value (R201). -/
def encodedValue (bits : List Bool) : F64 := encodedFrom 0 .zero bits

/-- `find(CT, low, high, v)` (R202). -/
def findSymbol (CT : List CumEntry) (iv : Interval) (v : F64) : Option CumEntry :=
  let value := fdiv (fsub v iv.low) (fsub iv.high iv.low)
  CT.find? (fun e => e.cl.le value && value.lt e.ch)

/-- The loop of ARI_DEC with `n` pixels still to decode (R205). -/
def ariDecodeFrom (CT : List CumEntry) (v : F64) : Nat → Interval → Except ErrCode (List Word)
  | 0, _ => .ok []
  | n + 1, iv =>
    match findSymbol CT iv v with
    | none => .error .symbolNotFound
    | some x =>
      match ariDecodeFrom CT v n (narrow iv x.cl x.ch) with
      | .error c => .error c
      | .ok out => .ok (x.pix :: out)

/-- The checks of ARI_DEC, in the order of R233. -/
def State.checkAriDec (s : State) : Option ErrCode :=
  if s.pixelCount > s.caps.pixCap then some .capacity
  else if s.regNat .symCount > s.caps.symCap then some .capacity
  else if s.regNat .bitLen > s.caps.bitsCap then some .capacity
  else if s.pixelCount > 0 ∧ totalCount s.freqList = 0 then some .malformed
  else none

/-- How ARI_DEC ends (R205). -/
def ariDecEnding (s : State) : Ending :=
  match s.checkAriDec with
  | some code => .checkError code
  | none =>
    if s.pixelCount = 0 then .success (s.writeOut [])
    else
      match ariDecodeFrom (cumTable s.freqList) (encodedValue s.bitList) s.pixelCount .start with
      | .error code => .runError code ⟨[.outCount], [(.pixOut, s.pixelCount)]⟩
      | .ok out => .success (s.writeOut out)

/-- ARI_DEC (R205). -/
def execAriDec (s : State) : Host.Outcome State Fault Refusal := .next (s.complete (ariDecEnding s))

end Sys2Proof.Machine
end

