-- ==== Sys2Proof/Machine/Huffman.lean ====
section
/-! DEFINITION. The Huffman codec: HUF_ENC and HUF_DEC (42_huffman.md). -/

namespace Sys2Proof.Machine

/-- A Huffman node (R160). -/
inductive HuffNode where
  | leaf (pix : Word) (freq : Nat)
  | internal (freq left right : Nat)
  deriving DecidableEq, Repr

/-- The frequency that a node carries (R160). -/
def HuffNode.freq : HuffNode → Nat
  | .leaf _ f => f
  | .internal f _ _ => f

/-- The frequency of node `k`. -/
def freqOf (nodes : List HuffNode) (k : Nat) : Nat :=
  match nodes[k]? with
  | some n => n.freq
  | none => 0

/-- One round of `huffman_build` (R162): sort, take the two lowest, append their parent at the end. -/
def mergeLowest (nodes : List HuffNode) (W : List Nat) : List HuffNode × List Nat :=
  match stableSort (freqOf nodes) W with
  | a :: b :: rest =>
    (nodes ++ [.internal (freqOf nodes a + freqOf nodes b) a b], rest ++ [nodes.length])
  | W' => (nodes, W')

/-- The loop of `huffman_build`, while `len(W) > 1`. Each round shortens `W` by one, so as many rounds
as `W` is long are enough. -/
def buildLoop : Nat → List HuffNode → List Nat → List HuffNode × List Nat
  | 0, nodes, W => (nodes, W)
  | n + 1, nodes, W =>
    if W.length ≤ 1 then (nodes, W)
    else
      let r := mergeLowest nodes W
      buildLoop n r.1 r.2

/-- The leaves of a table, in FREQ order (R161). -/
def leavesOf (T : List FreqEntry) : List HuffNode := T.map (fun e => .leaf e.pix e.cnt)

/-- `huffman_build(T)` (R162): the nodes and the root. -/
def huffmanBuild (T : List FreqEntry) : List HuffNode × Nat :=
  let r := buildLoop T.length (leavesOf T) (List.range T.length)
  (r.1, if T.length = 0 then 0 else r.2.headD 0)

/-- The TREE words of a node (R84, R163). -/
def nodeWords : HuffNode → List Word
  | .leaf pix f => [0, BitVec.ofNat 32 f, pix, 0]
  | .internal f l r => [1, BitVec.ofNat 32 f, BitVec.ofNat 32 l, BitVec.ofNat 32 r]

/-- `write_tree(nodes, root)` (R163). -/
def State.writeTree (s : State) (nodes : List HuffNode) (root : Nat) : State :=
  ((s.bufFill .tree (nodes.flatMap nodeWords)).setRegNat .nodeCount nodes.length).setRegNat
    .root root

/-- `walk(k, s)` (R164), to a depth of at most `fuel` edges; a path of a tree is shorter than the number
of its nodes. -/
def walkCodes (nodes : List HuffNode) : Nat → Nat → List Bool → List (Word × List Bool)
  | 0, _, _ => []
  | fuel + 1, k, code =>
    match nodes[k]? with
    | some (.leaf pix _) => [(pix, code)]
    | some (.internal _ l r) =>
      walkCodes nodes fuel l (code ++ [false]) ++ walkCodes nodes fuel r (code ++ [true])
    | none => []

/-- `codes(nodes, root)` (R164): the CodeTable. The tree of one leaf gets the code '0'. -/
def codeTable (nodes : List HuffNode) (root : Nat) : List (Word × List Bool) :=
  match nodes[root]? with
  | none => []
  | some (.leaf pix _) => [(pix, [false])]
  | some (.internal _ _ _) => walkCodes nodes nodes.length root []

/-- The code of a pixel word. Every pixel of the image has one, so the empty code is never used. -/
def codeOf (C : List (Word × List Bool)) (w : Word) : List Bool := (C.lookup w).getD []

/-- `emit_bit` for each bit, first bit first (R165). -/
def emitBits (cap : Nat) (S : Stream) : List Bool → Except ErrCode Stream
  | [] => .ok S
  | b :: bs =>
    match emitBit cap S b with
    | .error c => .error c
    | .ok S' => emitBits cap S' bs

/-- Emit the codes of the pixels in scan order (R166). -/
def emitCodes (cap : Nat) (C : List (Word × List Bool)) (S : Stream) : List Word → Except ErrCode Stream
  | [] => .ok S
  | w :: P =>
    match emitBits cap S (codeOf C w) with
    | .error c => .error c
    | .ok S' => emitCodes cap C S' P

/-- The registers of HUF_ENC's row of R108. -/
def hufEncRegs : List DataReg := [.symCount, .nodeCount, .root, .bitLen, .origSize, .compSize]

/-- How HUF_ENC ends (R166). An overflow of `freq_model` leaves the table, the tree and the stream
without a length, so all of FREQ, TREE and BITS is in the write set; an overflow of `emit_bit` leaves
the table and the tree with theirs, and the stream would fill BITS (R108, R234, log entry 8). -/
def hufEncEnding (s : State) : Ending :=
  match s.checkInputPixels with
  | some code => .checkError code
  | none =>
    match freqModel s.caps.symCap s.pixIn with
    | .error code =>
      .runError code ⟨hufEncRegs, [(.freq, Buf.words s.caps .freq), (.tree, Buf.words s.caps .tree),
        (.bits, Buf.words s.caps .bits)]⟩
    | .ok T =>
      let built := huffmanBuild T
      match emitCodes s.caps.bitsCap (codeTable built.1 built.2) .empty s.pixIn with
      | .error code =>
        .runError code ⟨hufEncRegs, [(.freq, 2 * T.length), (.tree, 4 * built.1.length),
          (.bits, Buf.words s.caps .bits)]⟩
      | .ok S =>
        .success ((((s.writeFreq T).writeTree built.1 built.2).writeBits S.bits).writeSizes S.len)

/-- HUF_ENC (R166). -/
def execHufEnc (s : State) : Host.Outcome State Fault Refusal := .next (s.complete (hufEncEnding s))

/-- R172 (3) and (4) for node `k`. -/
def State.treeNodeValid (s : State) (k : Nat) : Bool :=
  s.treeKind k == 0 ||
    (s.treeKind k == 1 && decide ((s.treeA k).toNat < s.regNat .nodeCount) &&
      decide ((s.treeB k).toNat < s.regNat .nodeCount))

/-- Tree validity (R172). -/
def State.treeValid (s : State) : Bool :=
  decide (1 ≤ s.regNat .nodeCount) && decide (s.regNat .root < s.regNat .nodeCount) &&
    (List.range (s.regNat .nodeCount)).all s.treeNodeValid

/-- The checks of HUF_DEC, in the order of R233. -/
def State.checkHufDec (s : State) : Option ErrCode :=
  if s.pixelCount > s.caps.pixCap then some .capacity
  else if s.regNat .bitLen > s.caps.bitsCap then some .capacity
  else if s.regNat .nodeCount > nodeCap s.caps then some .capacity
  else if s.pixelCount > 0 ∧ s.treeValid = false then some .malformed
  else none

/-- The child of node `cur` on the edge of bit `b`: '0' left, '1' right (R175). -/
def State.treeChild (s : State) (cur : Nat) (b : Bool) : Nat :=
  if b then (s.treeB cur).toNat else (s.treeA cur).toNat

/-- The decoding loop of R175 with the cursor at `cur` and `room` pixels still to emit: the pixels
emitted. It ends with the pixels or with the bits, whichever comes first. -/
def hufDecodeFrom (s : State) : Nat → Nat → List Bool → List Word
  | _, _, [] => []
  | room, cur, b :: bits =>
    if room = 0 then []
    else if s.treeKind (s.treeChild cur b) = 0 then
      s.treeA (s.treeChild cur b) :: hufDecodeFrom s (room - 1) (s.regNat .root) bits
    else hufDecodeFrom s room (s.treeChild cur b) bits

/-- The pixels that HUF_DEC emits (R175). The tree of one leaf emits one pixel per bit, whatever the
bit. -/
def hufDecoded (s : State) : List Word :=
  if s.pixelCount = 0 then []
  else if s.treeKind (s.regNat .root) = 0 then
    List.replicate (min s.pixelCount (s.regNat .bitLen)) (s.treeA (s.regNat .root))
  else hufDecodeFrom s s.pixelCount (s.regNat .root) s.bitList

/-- How HUF_DEC ends (R175). -/
def hufDecEnding (s : State) : Ending :=
  match s.checkHufDec with
  | some code => .checkError code
  | none => .success (s.writeOut (hufDecoded s))

/-- HUF_DEC (R175). -/
def execHufDec (s : State) : Host.Outcome State Fault Refusal := .next (s.complete (hufDecEnding s))

end Sys2Proof.Machine
end

