-- ==== Sys2Proof/Machine/RunLength.lean ====
section
/-! DEFINITION. The run-length codec and the quantizer: RLE_ENC, QRLE_ENC, RLE_DEC (41_rle.md). -/

namespace Sys2Proof.Machine

/-- `push(U, x)` (R140): CAPACITY when `len(U) = RUN_CAP`. -/
def pushRun (runCap : Nat) (U : List Run) (x : Run) : Except ErrCode (List Run) :=
  if U.length = runCap then .error .capacity else .ok (U ++ [x])

/-- The run detector with the current run `(cur, c)` and the pixels still to scan (R140). -/
def runsFrom (runCap : Nat) (U : List Run) (cur : Word) (c : Nat) : List Word → Except ErrCode (List Run)
  | [] => pushRun runCap U ⟨cur, c⟩
  | w :: P =>
    if w = cur then runsFrom runCap U cur (c + 1) P
    else
      match pushRun runCap U ⟨cur, c⟩ with
      | .error e => .error e
      | .ok U' => runsFrom runCap U' w 1 P

/-- `rle_runs(P)` (R140). -/
def rleRuns (runCap : Nat) : List Word → Except ErrCode (List Run)
  | [] => .ok []
  | w :: P => runsFrom runCap [] w 1 P

/-- The RUNS words of a run sequence (R81, R142). -/
def runWords (U : List Run) : List Word := U.flatMap (fun u => [u.pix, BitVec.ofNat 32 u.cnt])

/-- `write_runs(U)` (R142). -/
def State.writeRuns (s : State) (U : List Run) : State :=
  (s.bufFill .runs (runWords U)).setRegNat .runCount U.length

/-- `quant(c)` (R143). -/
def quant (c : Nat) : Nat := min 255 (32 * ((c + 16) / 32))

/-- `qpix(PW)` (R144): R, G and B are quantized, A is left unchanged. -/
def qpix (w : Word) : Word :=
  byteOfWord w 3 ++ BitVec.ofNat 8 (quant (byteOfWord w 2).toNat) ++
    BitVec.ofNat 8 (quant (byteOfWord w 1).toNat) ++ BitVec.ofNat 8 (quant (byteOfWord w 0).toNat)

/-- How the RLE encoder ends on the pixels `P` (R141, R145). When `push` overflows there would be more
than RUN_CAP runs, so the whole of RUNS is in the write set (R108, R234). -/
def rleEncEnding (s : State) (P : List Word) : Ending :=
  match s.checkInputPixels with
  | some code => .checkError code
  | none =>
    match rleRuns s.caps.runCap P with
    | .error code =>
      .runError code ⟨[.runCount, .origSize, .compSize], [(.runs, Buf.words s.caps .runs)]⟩
    | .ok U => .success ((s.writeRuns U).writeSizes (U.length * 32))

/-- RLE_ENC (R141). -/
def execRleEnc (s : State) : Host.Outcome State Fault Refusal :=
  .next (s.complete (rleEncEnding s s.pixIn))

/-- QRLE_ENC (R145): the runs of the quantized pixels. -/
def execQrleEnc (s : State) : Host.Outcome State Fault Refusal :=
  .next (s.complete (rleEncEnding s (s.pixIn.map qpix)))

/-- Run replay into `room` free output slots (R150): the pixels written. -/
def replayRuns : Nat → List Run → List Word
  | _, [] => []
  | room, u :: U =>
    if room = 0 then []
    else List.replicate (min u.cnt room) u.pix ++ replayRuns (room - min u.cnt room) U

/-- The checks of RLE_DEC (R233). -/
def State.checkRleDec (s : State) : Option ErrCode :=
  if s.pixelCount > s.caps.pixCap then some .capacity
  else if s.regNat .runCount > s.caps.runCap then some .capacity
  else none

/-- How RLE_DEC ends (R150). -/
def rleDecEnding (s : State) : Ending :=
  match s.checkRleDec with
  | some code => .checkError code
  | none => .success (s.writeOut (replayRuns s.pixelCount s.runList))

/-- RLE_DEC (R150). -/
def execRleDec (s : State) : Host.Outcome State Fault Refusal := .next (s.complete (rleDecEnding s))

end Sys2Proof.Machine
end

