-- ==== Sys2Proof/Machine/Dispatch.lean ====
section
/-! DEFINITION. The meaning of every command: its completion step on the state it stands on (R236). -/

namespace Sys2Proof.Machine

def exec (i : Instr) (s : State) : Host.Outcome State Fault Refusal :=
  match i with
  | .freqScan => Sys2Proof.Machine.execFreqScan s
  | .rleEnc => Sys2Proof.Machine.execRleEnc s
  | .qrleEnc => Sys2Proof.Machine.execQrleEnc s
  | .rleDec => Sys2Proof.Machine.execRleDec s
  | .hufEnc => Sys2Proof.Machine.execHufEnc s
  | .hufDec => Sys2Proof.Machine.execHufDec s
  | .ariEnc => Sys2Proof.Machine.execAriEnc s
  | .ariDec => Sys2Proof.Machine.execAriDec s

end Sys2Proof.Machine
end

