-- ==== Sys2Proof/Machine/Sequencer.lean ====
section
/-! DEFINITION. The sequencer's turn (R31, R236) and the order of events. -/

namespace Sys2Proof.Machine

/-- `complete()` (R236) while BUSY, for the command word in CMD; an unsupported word changes nothing but
STATUS (R104, R234). While IDLE the sequencer has no step and the block waits (R247, R261). -/
def sequencerTurn (s : State) : Host.Outcome State Fault Refusal :=
  match s.seq with
  | .idle => .next s
  | .busy =>
    match decode s.cmd with
    | .ok i => exec i s
    | .error _ => .next (s.complete (.checkError .unsupported))

/-- Take the first waiting event off the agenda. -/
def State.popEvent (s : State) : State := { s with agenda := s.agenda.tail }

/-- The first waiting event happens; with none waiting it is the sequencer's turn, so a running command
always completes (R236, log entry 5). -/
def eventStep (s : State) : Host.Outcome State Fault Refusal :=
  match s.agenda with
  | [] => sequencerTurn s
  | .sequencer :: _ => sequencerTurn s.popEvent
  | .access x :: _ => .next (s.popEvent.busAccess x)
  | .reset :: _ => .next s.popEvent.applyReset

/-- Put the command word of `nbits` bits `w` where the sequencer takes its next command: latched in CMD
with SEQ = BUSY, as the accepting write of R100 leaves it, and the sequencer's turn next. -/
def placeCommand (s : State) (nbits w : Nat) : State :=
  { s.acceptCommand (BitVec.ofNat 32 (w % 2 ^ nbits)) with agenda := .sequencer :: s.agenda }

end Sys2Proof.Machine
end

