-- ==== Sys2Proof/Machine/Step.lean ====
section
/-! DEFINITION. One step of the machine, and the placing of its next command. -/

namespace Sys2Proof.Machine

/-- One step: one event of the host, the platform or the sequencer (R8, R90). -/
def step (s : State) : Host.Outcome State Fault Refusal := eventStep s

/-- `s` with a command word placed so that the very next step runs it (log entry 6). -/
def State.withFetchWord (s : State) (nbits w : Nat) : State := placeCommand s nbits w

end Sys2Proof.Machine
end

