-- ==== Sys2Proof/Safety.lean ====
section
/-! DEFINITION. The terms in which the claims are stated: the invariant of the machine, what a completed
command leaves alone, the rows of R108, and the independent descriptions of the codecs' results and of
binary64's. -/

namespace Sys2Proof.Machine

/-! ## The invariant -/

/-- The six buffers. -/
def Buf.all : List Buf := [.pixIn, .pixOut, .runs, .bits, .freq, .tree]

/-- Bus offset `a` lies in a buffer, below its capacity (R74). -/
def insideBuffer (c : Caps) (a : Nat) : Bool :=
  Buf.all.any (fun b => decide (b.base ≤ a) && decide (a < b.base + 4 * b.words c))

/-- What every reachable state satisfies. -/
structure State.Inv (s : State) : Prop where
  /-- The capacities are legal (R9). -/
  legal : s.caps.wf
  /-- Memory is in its canonical form. -/
  canonical : Memory.wf s.mem
  /-- Nothing has been written outside the buffers (R77). -/
  inside : ∀ c ∈ s.mem, insideBuffer s.caps c.1 = true
  /-- ERR is 1 exactly when ERRCODE is not NONE (R35, R230). -/
  errAgrees : s.err = decide (s.errcode ≠ .noError)
  /-- While a command runs, DONE, ERR and ERRCODE are clear (R100). -/
  busyClear : s.seq = .busy → s.done = false ∧ s.errcode = .noError
  /-- The draw of the unwritten buffer bytes has been taken (R54). -/
  epochTaken : s.memEpoch < s.draws

/-! ## What a completion changes and leaves alone -/

/-- `t` is `s` after a completion step that records `code` (R236), as far as the registers and buffers
that the command may write are left out. -/
structure Completed (s t : State) (code : ErrCode) : Prop where
  seq      : t.seq = .idle
  done     : t.done = true
  err      : t.err = decide (code ≠ .noError)
  errcode  : t.errcode = code
  cmd      : t.cmd = s.cmd
  irqEn    : t.irqEn = s.irqEn
  memEpoch : t.memEpoch = s.memEpoch
  caps     : t.caps = s.caps
  agenda   : t.agenda = s.agenda
  reply    : t.reply = s.reply

/-- Every data register not listed, and every byte of memory outside the first words of the listed
buffers, reads in `t` as it did in `s`. -/
structure KeptOutside (s t : State) (regs : List DataReg) (bufs : List (Buf × Nat)) : Prop where
  regs  : ∀ d, d ∉ regs → t.reg d = s.reg d
  bytes : ∀ a, (∀ p ∈ bufs, a < p.1.base ∨ p.1.base + 4 * p.2 ≤ a) → t.readByte a = s.readByte a

/-- The state that an error of an input check or an unsupported word leaves: only STATUS differs
(R234). -/
def State.withError (s : State) (code : ErrCode) : State :=
  { s with seq := .idle, done := true, err := true, errcode := code }

/-! ## The rows of R108 -/

/-- The registers that a command reads. -/
def rowReadRegs : Instr → List DataReg
  | .freqScan | .rleEnc | .qrleEnc | .hufEnc | .ariEnc => [.width, .height, .pixLen]
  | .rleDec => [.width, .height, .runCount]
  | .hufDec => [.width, .height, .nodeCount, .root, .bitLen]
  | .ariDec => [.width, .height, .symCount, .bitLen]

/-- The first words of the buffers that a command reads, by whole words. -/
def rowReadBufs (i : Instr) (s : State) : List (Buf × Nat) :=
  match i with
  | .freqScan | .rleEnc | .qrleEnc | .hufEnc | .ariEnc => [(.pixIn, s.pixelCount)]
  | .rleDec => [(.runs, 2 * s.regNat .runCount)]
  | .hufDec => [(.tree, 4 * s.regNat .nodeCount)]
  | .ariDec => [(.freq, 2 * s.regNat .symCount)]

/-- How many bits of BITS a command reads. -/
def rowReadBits (i : Instr) (s : State) : Nat :=
  match i with
  | .freqScan | .rleEnc | .qrleEnc | .hufEnc | .ariEnc | .rleDec => 0
  | .hufDec | .ariDec => s.regNat .bitLen

/-- The registers that a command may write. -/
def rowWriteRegs : Instr → List DataReg
  | .freqScan => [.symCount]
  | .rleEnc | .qrleEnc => [.runCount, .origSize, .compSize]
  | .rleDec | .hufDec | .ariDec => [.outCount]
  | .hufEnc => [.symCount, .nodeCount, .root, .bitLen, .origSize, .compSize]
  | .ariEnc => [.symCount, .bitLen, .origSize, .compSize]

/-- The buffers that a command may write, with the most words it may write there. -/
def rowWriteBufs (i : Instr) (s : State) : List (Buf × Nat) :=
  match i with
  | .freqScan => [(.freq, Buf.words s.caps .freq)]
  | .rleEnc | .qrleEnc => [(.runs, Buf.words s.caps .runs)]
  | .rleDec | .hufDec | .ariDec => [(.pixOut, s.pixelCount)]
  | .hufEnc => [(.freq, Buf.words s.caps .freq), (.tree, Buf.words s.caps .tree),
      (.bits, Buf.words s.caps .bits)]
  | .ariEnc => [(.freq, Buf.words s.caps .freq), (.bits, Buf.words s.caps .bits)]

/-- The input checks of R233 all pass, those of the tree (R172) and of the table's total (R200) included; they
are asked for a non-empty image only. -/
def inputChecksPass (i : Instr) (s : State) : Prop :=
  match i with
  | .freqScan | .rleEnc | .qrleEnc | .hufEnc | .ariEnc =>
    s.regNat .pixLen = 4 * s.pixelCount ∧ s.pixelCount ≤ s.caps.pixCap
  | .rleDec => s.pixelCount ≤ s.caps.pixCap ∧ s.regNat .runCount ≤ s.caps.runCap
  | .hufDec => s.pixelCount ≤ s.caps.pixCap ∧ s.regNat .bitLen ≤ s.caps.bitsCap ∧
      s.regNat .nodeCount ≤ 2 * s.caps.symCap - 1 ∧ (s.pixelCount = 0 ∨ s.treeValid = true)
  | .ariDec => s.pixelCount ≤ s.caps.pixCap ∧ s.regNat .symCount ≤ s.caps.symCap ∧
      s.regNat .bitLen ≤ s.caps.bitsCap ∧ (s.pixelCount = 0 ∨ 0 < totalCount s.freqList)

/-- The pixels that a command encodes: QRLE_ENC quantizes them first (R145). -/
def encodedPixels (i : Instr) (s : State) : List Word :=
  match i with
  | .qrleEnc => s.pixIn.map qpix
  | .freqScan | .rleEnc | .rleDec | .hufEnc | .hufDec | .ariEnc | .ariDec => s.pixIn

/-! ## The results of the codecs, described without their algorithms -/

/-- The distinct words of `P` in the order of their first occurrence (R130). -/
def firstSeen : List Word → List Word
  | [] => []
  | w :: P => w :: (firstSeen P).filter (fun x => x ≠ w)

/-- The FrequencyTable of `P`: each distinct word with its number of occurrences (R130). -/
def countTable (P : List Word) : List FreqEntry := (firstSeen P).map (fun w => ⟨w, P.count w⟩)

/-- The buffer words that are draws after an error raised in processing (R234), with the extents of log
entry 8: of FREQ and TREE as much as the image's table takes up, or all where it does not fit; the
buffer that the failed loop was filling, whole. -/
def drawnBufs (i : Instr) (s : State) : List (Buf × Nat) :=
  let n := min (countTable s.pixIn).length s.caps.symCap
  match i with
  | .freqScan => [(.freq, 2 * n)]
  | .rleEnc | .qrleEnc => [(.runs, 2 * s.caps.runCap)]
  | .rleDec | .hufDec | .ariDec => [(.pixOut, s.pixelCount)]
  | .hufEnc => [(.freq, 2 * n), (.tree, 4 * (2 * n - 1)), (.bits, (s.caps.bitsCap + 31) / 32)]
  | .ariEnc => [(.freq, 2 * n), (.bits, (s.caps.bitsCap + 31) / 32)]

/-- The words that a list of buffers and lengths stands for. -/
def wordsOf (bufs : List (Buf × Nat)) : List (Buf × Nat) :=
  bufs.flatMap (fun p => (List.range p.2).map (fun w => (p.1, w)))

/-- A location that a command can write (R108): a data register, or a word of a buffer. -/
inductive DataLocation where
  | reg (d : DataReg)
  | word (b : Buf) (w : Nat)
  deriving DecidableEq, Repr

/-- The locations that are draws after an error raised in processing (R234): the registers of the row, and the
words of `drawnBufs`. -/
def drawnLocations (i : Instr) (s : State) : List DataLocation :=
  (rowWriteRegs i).map .reg ++ (wordsOf (drawnBufs i s)).map (fun x => .word x.1 x.2)

/-- The word that a location holds. -/
def State.locationWord (s : State) : DataLocation → Word
  | .reg d => s.reg d
  | .word b w => s.bufRead b w

/-- The pixels that a run sequence stands for (R140, R150). -/
def expandRuns (U : List Run) : List Word := U.flatMap (fun u => List.replicate u.cnt u.pix)

/-- Neighbouring runs have different pixels, and every count is at least 1 (R140). -/
def maximalRuns (U : List Run) : Prop :=
  (∀ u ∈ U, 1 ≤ u.cnt) ∧ U.IsChain (fun u v => u.pix ≠ v.pix)

/-- The bit string of the codes of the pixels in scan order (R166). -/
def codeBits (C : List (Word × List Bool)) (P : List Word) : List Bool := P.flatMap (codeOf C)

/-- The node that a bit string leads to from node `k` on: '0' to the left child, '1' to the right one (R164). It
leads nowhere once an edge is taken from a leaf or out of the tree. -/
def followCode (nodes : List HuffNode) : Nat → List Bool → Option HuffNode
  | k, [] => nodes[k]?
  | k, b :: code =>
    match nodes[k]? with
    | some (.internal _ left right) => followCode nodes (if b then right else left) code
    | some (.leaf _ _) | none => none

/-- Node `k` of a tree whose internal nodes come after their children: the children are older nodes, and
the frequency is the sum of theirs (R160, R162). -/
def orderedNode (nodes : List HuffNode) (k : Nat) : Prop :=
  match nodes[k]? with
  | some (.internal f l r) => l < k ∧ r < k ∧ l ≠ r ∧ f = freqOf nodes l + freqOf nodes r
  | some (.leaf _ _) | none => True

/-! ## Binary64, described without its algorithm -/

/-- A magnitude that binary64 has, its exponent unbounded above: at most 53 significant bits, a whole number
of the units of 2^-1074, so the subnormals are among them (R52). -/
def representable (m : Nat) : Prop := ∃ k e, k < 2 ^ 53 ∧ m = k * 2 ^ e

/-- A magnitude whose significand is even. -/
def evenSignificand (m : Nat) : Prop := ∃ k e, k < 2 ^ 53 ∧ (e = 0 ∨ 2 ^ 52 ≤ k) ∧ m = k * 2 ^ e ∧ k % 2 = 0

/-- `m` units is `num / den` units rounded to nearest with ties to even (R52): no representable magnitude is
nearer, and where another one is equally near, `m` is the one with the even significand. -/
structure NearestEven (m num den : Nat) : Prop where
  representable : representable m
  nearest : ∀ m', Machine.representable m' → |(m * den : Int) - num| ≤ |(m' * den : Int) - num|
  tie : ∀ m', Machine.representable m' → |(m * den : Int) - num| = |(m' * den : Int) - num| → m' ≠ m →
    evenSignificand m

/-- `x` is the exact value `± num / den` units, rounded (R52). A magnitude that rounds to 2^1024 (2^2098
units) or more overflows to an infinity of the same sign (log entry 10). -/
def RoundsTo (x : F64) (neg : Bool) (num den : Nat) : Prop :=
  ∃ m, NearestEven m num den ∧ x = if m < 2 ^ 2098 then .fin neg m else .inf neg

/-- The exact sum `z` of two finite values, in units, rounded; `zeroNeg` is the sign of an exact zero (log
entry 10). -/
def RoundsToSum (x : F64) (zeroNeg : Bool) (z : Int) : Prop :=
  if z = 0 then x = .fin zeroNeg 0 else RoundsTo x (decide (z < 0)) z.natAbs 1

end Sys2Proof.Machine
end

