-- ==== Sys2Proof/Certificates/Slice0/Obligations.lean ====
section
/-! DEFINITION. The statements for the provers, in the order of spec/: commands and their words, the bus,
reset, the commands family by family, errors and completion. -/

open Sys2Proof Sys2Proof.Machine

/-! ## Command words (30_encoding.md) -/

/-- R107: the eight words of the decode table and what each selects; words of the table of
95_test_vectors.md section 2.1 that are unsupported. -/
def Obligations.SpecWordsDecode : Prop :=
  decode 0x00000001#32 = .ok .freqScan ∧ decode 0x00000002#32 = .ok .rleEnc ∧
  decode 0x00000102#32 = .ok .qrleEnc ∧ decode 0x00000003#32 = .ok .rleDec ∧
  decode 0x00000004#32 = .ok .hufEnc ∧ decode 0x00000005#32 = .ok .hufDec ∧
  decode 0x00000006#32 = .ok .ariEnc ∧ decode 0x00000007#32 = .ok .ariDec ∧
  decode 0x00000000#32 = .error .unsupportedOp ∧ decode 0x0000000F#32 = .error .unsupportedOp ∧
  decode 0x00000104#32 = .error .illegalQuantize ∧ decode 0x80000002#32 = .error .reservedBits

/-- R107, the whole decode table: every 32-bit word is one of the eight or is refused. -/
def Obligations.DecodeIsTheTable : Prop :=
  ∀ v : Word,
    match [(0x00000001#32, Instr.freqScan), (0x00000002#32, .rleEnc), (0x00000102#32, .qrleEnc),
        (0x00000003#32, .rleDec), (0x00000004#32, .hufEnc), (0x00000005#32, .hufDec),
        (0x00000006#32, .ariEnc), (0x00000007#32, .ariDec)].lookup v with
    | some i => decode v = .ok i
    | none => ∃ e, decode v = .error e

/-- Decode and encode agree in both directions: a word decodes to a command exactly when it is the
command's word. -/
def Obligations.DecodeAndEncodeAgree : Prop :=
  ∀ (i : Instr) (v : Word), i.wf = true → (decode v = .ok i ↔ v = encode i)

/-- R104: exactly the words of its three cases are unsupported; such a word is accepted, and at
completion only STATUS has changed, to DONE, ERR and UNSUPPORTED. -/
def Obligations.UnsupportedWords : Prop :=
  (∀ v : Word, (∃ e, decode v = .error e) ↔
    ((v.extractLsb' 0 4).toNat = 0 ∨ 8 ≤ (v.extractLsb' 0 4).toNat) ∨
    (v.extractLsb' 4 4 ≠ 0 ∨ v.extractLsb' 9 23 ≠ 0) ∨
    (v.getLsbD 8 = true ∧ (v.extractLsb' 0 4).toNat ≠ 2)) ∧
  (∀ (s : State) (v : Word) (rest : List Event), s.seq = .idle → (∃ e, decode v = .error e) →
    s.agenda = .access ⟨.write v, 4, 4⟩ :: .sequencer :: rest →
    ∃ t, step s = .next t ∧ t.seq = .busy ∧
      step t = .next { s with cmd := v, done := true, err := true, errcode := .unsupported,
                              agenda := rest, reply := .acknowledged })

/-- A step at which the sequencer completes a command is that command's meaning on the state, past the
sequencer's event on the agenda if it stands there; a placed word runs in the very next step. -/
def Obligations.StepRunsTheDecodedCommand : Prop :=
  (∀ (s : State) (i : Instr), s.seq = .busy → decode s.cmd = .ok i →
    (s.agenda = [] ∨ s.agenda.head? = some .sequencer) →
    step s = exec i { s with agenda := s.agenda.tail }) ∧
  (∀ (s : State) (i : Instr),
    step (s.withFetchWord 32 (encode i).toNat) =
      exec i { s with seq := .busy, cmd := encode i, done := false, err := false, errcode := .noError })

/-! ## The machine as a whole -/

/-- Every step answers a next state: the block has no trap, never hangs and never stops (R236, R238). That the
model has no fault and raises no refusal is log entry 11; that a misaligned or wrongly sized access, which
R72 has refused, is a step that goes on is log entry 9. -/
def Obligations.EveryStepGoesOn : Prop := ∀ s : State, ∃ t, step s = .next t

/-- The invariant holds right after reset, for the build of `State.reset` and for every legal build. The
values of the model's own fields at reset are the model's (log entries 3, 4). -/
def Obligations.InvariantHoldsAtReset : Prop :=
  State.reset.Inv ∧ ∀ c : Caps, c.wf → (State.resetWith c).Inv

/-- Every step keeps the invariant, from every state that has it. -/
def Obligations.InvariantIsKept : Prop := ∀ s t : State, s.Inv → step s = .next t → t.Inv

/-- The capacities are configuration: no step changes them (R30, R47). -/
def Obligations.CapacitiesNeverChange : Prop := ∀ s t : State, step s = .next t → t.caps = s.caps

/-- A running command always completes: if no reset is among the waiting events, the block is idle with
DONE set after at most one step more than there are events (R236; the agenda is the model's, log
entry 5). -/
def Obligations.EveryCommandCompletes : Prop :=
  ∀ s : State, s.seq = .busy → .reset ∉ s.agenda →
    ∃ n t, n ≤ s.agenda.length + 1 ∧ core.run n s = .next t ∧ t.seq = .idle ∧ t.done = true ∧
      t.cmd = s.cmd

/-- While nothing happens an idle block stays as it is (R247, R261). -/
def Obligations.IdleBlockWaits : Prop :=
  ∀ s : State, s.seq = .idle →
    (s.agenda = [] → step s = .next s) ∧
    (∀ rest, s.agenda = .sequencer :: rest → step s = .next { s with agenda := rest })

/-! ## Reset (70_reset_and_hazards.md, 10_state.md) -/

/-- R260, R262: the reset input, in either sequencer state, puts every register at its reset value, idles
the sequencer without a completion, and makes every buffer byte a fresh draw. -/
def Obligations.ResetInput : Prop :=
  ∀ (s : State) (rest : List Event), s.agenda = .reset :: rest →
    ∃ t, step s = .next t ∧ t.seq = .idle ∧ t.irq = false ∧ t.agenda = rest ∧
      t.valueAt .id = 0x48430100#32 ∧ t.valueAt .cmd = 0 ∧ t.valueAt .status = 0 ∧ t.valueAt .ctrl = 0 ∧
      (∀ d, t.valueAt (.data d) = 0) ∧
      t.valueAt .capPix = BitVec.ofNat 32 s.caps.pixCap ∧
      t.valueAt .capRun = BitVec.ofNat 32 s.caps.runCap ∧
      t.valueAt .capSym = BitVec.ofNat 32 s.caps.symCap ∧
      t.valueAt .capNode = BitVec.ofNat 32 (2 * s.caps.symCap - 1) ∧
      t.valueAt .capBits = BitVec.ofNat 32 s.caps.bitsCap ∧
      t.valueAt .reserved = 0 ∧
      ∀ a, t.readByte a = Config.initialByte s.draws a

/-- R54: the state after power-on reset. -/
def Obligations.PowerOnReset : Prop :=
  ∀ c : Caps, (State.resetWith c).seq = .idle ∧ (State.resetWith c).irq = false ∧
    (State.resetWith c).caps = c ∧
    (∀ d, (State.resetWith c).reg d = 0) ∧ (State.resetWith c).cmd = 0 ∧
    (State.resetWith c).statusWord = 0 ∧ (State.resetWith c).ctrlWord = 0 ∧
    ∀ a, (State.resetWith c).readByte a = Config.initialByte (State.resetWith c).memEpoch a

/-- R263: straight after reset every command succeeds on the empty image, whatever the build; ARI_ENC
emits its one final bit. -/
def Obligations.EmptyImageSucceedsAfterReset : Prop :=
  ∀ (c : Caps) (i : Instr), c.wf →
    ∃ t, exec i (State.resetWith c) = .next t ∧ Completed (State.resetWith c) t .noError ∧
      (∀ d, d ≠ .bitLen → d ≠ .compSize → t.reg d = 0) ∧
      t.reg .bitLen = (if i = .ariEnc then 1 else 0) ∧ t.reg .compSize = (if i = .ariEnc then 1 else 0)

/-! ## The bus (20_memory.md) -/

/-- R32, R33, R47, R48: what an aligned read of the register file returns while IDLE; nothing else
changes. -/
def Obligations.RegisterReadsWhileIdle : Prop :=
  ∀ (s : State) (o : Word) (rest : List Event), s.seq = .idle → o.toNat < 0x1000 → o.toNat % 4 = 0 →
    s.agenda = .access ⟨.read, o, 4⟩ :: rest →
    step s = .next { s with
      agenda := rest
      reply := .data (([(0x00, 0x48430100#32), (0x04, s.cmd), (0x08, s.statusWord), (0x0C, s.ctrlWord),
        (0x10, s.regs.width), (0x14, s.regs.height), (0x18, s.regs.pixLen), (0x1C, s.regs.runCount),
        (0x20, s.regs.bitLen), (0x24, s.regs.symCount), (0x28, s.regs.nodeCount), (0x2C, s.regs.root),
        (0x30, s.regs.origSize), (0x34, s.regs.compSize), (0x38, s.regs.outCount),
        (0x40, BitVec.ofNat 32 s.caps.pixCap), (0x44, BitVec.ofNat 32 s.caps.runCap),
        (0x48, BitVec.ofNat 32 s.caps.symCap), (0x4C, BitVec.ofNat 32 (2 * s.caps.symCap - 1)),
        (0x50, BitVec.ofNat 32 s.caps.bitsCap)].lookup o.toNat).getD 0) }

/-- R32, R34, R47, R48: what an aligned write to the register file does while IDLE: it issues a command
at CMD, clears DONE at STATUS, stores IRQ_EN at CTRL and the whole word at an RW register, and is
ignored at every other offset. -/
def Obligations.RegisterWritesWhileIdle : Prop :=
  ∀ (s : State) (o v : Word) (rest : List Event), s.seq = .idle → o.toNat < 0x1000 → o.toNat % 4 = 0 →
    s.agenda = .access ⟨.write v, o, 4⟩ :: rest →
    ∃ t, step s = .next { t with agenda := rest, reply := .acknowledged } ∧
      t = (if o = 0x04 then
            { s with cmd := v, seq := .busy, done := false, err := false, errcode := .noError }
          else if o = 0x08 then { s with done := s.done && !v.getLsbD 1 }
          else if o = 0x0C then { s with irqEn := v.getLsbD 0 }
          else if o = 0x10 then { s with regs := { s.regs with width := v } }
          else if o = 0x14 then { s with regs := { s.regs with height := v } }
          else if o = 0x18 then { s with regs := { s.regs with pixLen := v } }
          else if o = 0x1C then { s with regs := { s.regs with runCount := v } }
          else if o = 0x20 then { s with regs := { s.regs with bitLen := v } }
          else if o = 0x24 then { s with regs := { s.regs with symCount := v } }
          else if o = 0x28 then { s with regs := { s.regs with nodeCount := v } }
          else if o = 0x2C then { s with regs := { s.regs with root := v } }
          else s)

/-- R74, R71: word `w` of each buffer stands at its offset, little-endian; a write while IDLE stores it
and leaves every other byte and everything else of the block alone, and a read returns it. -/
def Obligations.BufferWindows : Prop :=
  ∀ (s : State) (w : Nat) (rest : List Event), s.seq = .idle → s.caps.wf →
    ∀ p ∈ [(Buf.pixIn, 0x10000000, s.caps.pixCap), (.pixOut, 0x20000000, s.caps.pixCap),
        (.runs, 0x30000000, 2 * s.caps.runCap), (.bits, 0x40000000, (s.caps.bitsCap + 31) / 32),
        (.freq, 0x50000000, 2 * s.caps.symCap), (.tree, 0x60000000, 4 * (2 * s.caps.symCap - 1))],
      w < p.2.2 →
      (s.agenda = .access ⟨.read, BitVec.ofNat 32 (p.2.1 + 4 * w), 4⟩ :: rest →
        step s = .next { s with agenda := rest, reply := .data (s.bufRead p.1 w) }) ∧
      (∀ v : Word, s.agenda = .access ⟨.write v, BitVec.ofNat 32 (p.2.1 + 4 * w), 4⟩ :: rest →
        ∃ t, step s = .next t ∧ t = { s with mem := t.mem, agenda := rest, reply := .acknowledged } ∧
          t.bufRead p.1 w = v ∧
          (∀ j < 4, t.readByte (p.2.1 + 4 * w + j) = v.extractLsb' (8 * j) 8) ∧
          ∀ a, (a < p.2.1 + 4 * w ∨ p.2.1 + 4 * w + 4 ≤ a) → t.readByte a = s.readByte a)

/-- R48, R74: the reserved register offsets, the reserved ranges and the window offsets at or beyond a
buffer's word count are accepted, read 0x00000000 in either sequencer state, and ignore a write. -/
def Obligations.ReservedOffsets : Prop :=
  ∀ (s : State) (o : Word) (rest : List Event), o.toNat % 4 = 0 →
    (o.toNat = 0x3C ∨ (0x54 ≤ o.toNat ∧ o.toNat < 0x1000) ∨
      (0x1000 ≤ o.toNat ∧ o.toNat < 0x10000000) ∨
      (0x10000000 + 4 * s.caps.pixCap ≤ o.toNat ∧ o.toNat < 0x20000000) ∨
      (0x20000000 + 4 * s.caps.pixCap ≤ o.toNat ∧ o.toNat < 0x30000000) ∨
      (0x30000000 + 4 * (2 * s.caps.runCap) ≤ o.toNat ∧ o.toNat < 0x40000000) ∨
      (0x40000000 + 4 * ((s.caps.bitsCap + 31) / 32) ≤ o.toNat ∧ o.toNat < 0x50000000) ∨
      (0x50000000 + 4 * (2 * s.caps.symCap) ≤ o.toNat ∧ o.toNat < 0x60000000) ∨
      (0x60000000 + 4 * (4 * (2 * s.caps.symCap - 1)) ≤ o.toNat ∧ o.toNat < 0x70000000) ∨
      0x70000000 ≤ o.toNat) →
    (s.agenda = .access ⟨.read, o, 4⟩ :: rest →
      step s = .next { s with agenda := rest, reply := .data 0 }) ∧
    (∀ v : Word, s.agenda = .access ⟨.write v, o, 4⟩ :: rest →
      step s = .next { s with agenda := rest, reply := .acknowledged })

/-- R72: an access that is misaligned or not of 32 bits gets a bus error, a read of that kind returns 0,
and nothing of the block changes. -/
def Obligations.RefusedAccesses : Prop :=
  ∀ (s : State) (x : BusAccess) (rest : List Event), (x.addr.toNat % 4 ≠ 0 ∨ x.size ≠ 4) →
    s.agenda = .access x :: rest →
    step s = .next { s with agenda := rest, reply := .busError } ∧ BusReply.busError.readData = 0

/-- R271: while BUSY a read of a data register or of a buffer word returns a draw, a free value with no law,
and a read of ID, CMD, STATUS, CTRL, a capacity or a reserved offset returns its value; nothing of the
block changes. That the draw is the one numbered `draws`, and that the number then rises by one, is the
model's choice (log entry 4). -/
def Obligations.ReadsWhileBusy : Prop :=
  ∀ (s : State) (o : Word) (rest : List Event), s.seq = .busy → o.toNat % 4 = 0 →
    s.agenda = .access ⟨.read, o, 4⟩ :: rest →
    match lookupLocation s.caps o.toNat with
    | .data _ | .word _ _ =>
      step s = .next { s with agenda := rest, draws := s.draws + 1, reply := .data (Config.draw s.draws) }
    | .id => step s = .next { s with agenda := rest, reply := .data 0x48430100#32 }
    | .cmd => step s = .next { s with agenda := rest, reply := .data s.cmd }
    | .status => step s = .next { s with agenda := rest, reply := .data s.statusWord }
    | .ctrl => step s = .next { s with agenda := rest, reply := .data s.ctrlWord }
    | .capPix => step s = .next { s with agenda := rest, reply := .data (BitVec.ofNat 32 s.caps.pixCap) }
    | .capRun => step s = .next { s with agenda := rest, reply := .data (BitVec.ofNat 32 s.caps.runCap) }
    | .capSym => step s = .next { s with agenda := rest, reply := .data (BitVec.ofNat 32 s.caps.symCap) }
    | .capNode =>
      step s = .next { s with agenda := rest, reply := .data (BitVec.ofNat 32 (2 * s.caps.symCap - 1)) }
    | .capBits => step s = .next { s with agenda := rest, reply := .data (BitVec.ofNat 32 s.caps.bitsCap) }
    | .reserved => step s = .next { s with agenda := rest, reply := .data 0 }

/-- R272: while BUSY every accepted write, to any offset, is dropped with no error and no record. -/
def Obligations.WritesWhileBusyAreDropped : Prop :=
  ∀ (s : State) (o v : Word) (rest : List Event), s.seq = .busy → o.toNat % 4 = 0 →
    s.agenda = .access ⟨.write v, o, 4⟩ :: rest →
    step s = .next { s with agenda := rest, reply := .acknowledged }

/-- R73: a read has no side effect anywhere: only the reply (and, while BUSY, the draw) is new. -/
def Obligations.ReadsHaveNoSideEffect : Prop :=
  ∀ (s t : State) (o : Word) (n : Nat) (rest : List Event),
    s.agenda = .access ⟨.read, o, n⟩ :: rest → step s = .next t →
    t = { s with agenda := rest, reply := t.reply, draws := t.draws }

/-- R100 with R55 and R90: a CMD write while IDLE is accepted for every word; whatever the host then
does while the command runs, the registers and buffers it runs on are those of the acceptance. -/
def Obligations.AcceptedCommandRunsOnItsSnapshot : Prop :=
  ∀ (s : State) (v : Word) (xs : List BusAccess) (rest : List Event), s.seq = .idle →
    s.agenda = .access ⟨.write v, 4, 4⟩ :: (xs.map Event.access ++ rest) →
    ∃ u, core.run (xs.length + 1) s = .next u ∧
      u = { s with cmd := v, seq := .busy, done := false, err := false, errcode := .noError,
                   agenda := rest, reply := u.reply, draws := u.draws }

/-! ## STATUS, CTRL and the interrupt (10_state.md, 60_exceptions.md) -/

/-- R35, R230: the fields of STATUS and the numbers of the error codes. -/
def Obligations.StatusFields : Prop :=
  (∀ s : State,
    (s.statusWord.getLsbD 0 = true ↔ s.seq = .busy) ∧ s.statusWord.getLsbD 1 = s.done ∧
    s.statusWord.getLsbD 2 = s.err ∧ s.statusWord.extractLsb' 3 5 = 0 ∧
    s.statusWord.extractLsb' 8 4 = s.errcode.code ∧ s.statusWord.extractLsb' 12 20 = 0) ∧
  ErrCode.noError.code = 0 ∧ ErrCode.unsupported.code = 1 ∧ ErrCode.malformed.code = 2 ∧
  ErrCode.symbolNotFound.code = 3 ∧ ErrCode.capacity.code = 4

/-- R36: CTRL holds IRQ_EN alone, 0 after reset: a write while IDLE stores bit 0, reads back with bits 31:1
zero, and drives `irq` with DONE; a write while BUSY is dropped. -/
def Obligations.CtrlHoldsIrqEnable : Prop :=
  (∀ c : Caps, (State.resetWith c).ctrlWord = 0) ∧
  ∀ (s : State) (v : Word) (rest : List Event), s.agenda = .access ⟨.write v, 0x0C, 4⟩ :: rest →
    ∃ t, step s = .next t ∧
      (s.seq = .idle → t.ctrlWord = v &&& 1#32 ∧ t.irq = (t.done && v.getLsbD 0) ∧
        t = { s with irqEn := v.getLsbD 0, agenda := rest, reply := .acknowledged }) ∧
      (s.seq = .busy → t = { s with agenda := rest, reply := .acknowledged })

/-- R240: `irq` is DONE AND IRQ_EN; every completion, in error or not, raises it when enabled, and no other
event sets DONE; it falls with the W1C write, with the acceptance of a command, with IRQ_EN = 0, and
with reset. -/
def Obligations.InterruptLevel : Prop :=
  (∀ s : State, s.irq = (s.done && s.irqEn)) ∧
  (∀ (s t : State) (i : Instr), exec i s = .next t → t.irq = s.irqEn) ∧
  (∀ s t : State, step s = .next t → s.done = false → t.done = true →
    s.seq = .busy ∧ t.seq = .idle ∧ t.irq = s.irqEn) ∧
  (∀ (s : State) (v : Word) (rest : List Event), s.seq = .idle →
    (s.agenda = .access ⟨.write v, 0x08, 4⟩ :: rest ∧ v.getLsbD 1 = true ∨
      s.agenda = .access ⟨.write v, 0x04, 4⟩ :: rest ∨
      s.agenda = .access ⟨.write v, 0x0C, 4⟩ :: rest ∧ v.getLsbD 0 = false ∨
      s.agenda = .reset :: rest) →
    ∃ t, step s = .next t ∧ t.irq = false)

/-- R236: every completion idles the sequencer, sets DONE, and records the error; CMD, CTRL and what
belongs to the outside stay, and so do WIDTH, HEIGHT and PIX_LEN (R37, R38) and the whole of PIX_IN. -/
def Obligations.EveryCompletion : Prop :=
  ∀ (i : Instr) (s t : State), s.caps.wf → exec i s = .next t →
    Completed s t t.errcode ∧
    t.reg .width = s.reg .width ∧ t.reg .height = s.reg .height ∧ t.reg .pixLen = s.reg .pixLen ∧
    ∀ a, 0x10000000 ≤ a → a < 0x20000000 → t.readByte a = s.readByte a

/-- R15, R108: a command writes only the registers and buffer words of its row, however it ends. -/
def Obligations.CommandsWriteOnlyTheirRow : Prop :=
  ∀ (i : Instr) (s t : State), s.caps.wf → exec i s = .next t →
    KeptOutside s t (rowWriteRegs i) (rowWriteBufs i s)

/-- R15, R108: a command's outcome is a function of the registers, buffer words and bits of its row of
reads: two states that agree on them give the same error code and, on success, the same written
registers and the same written words. -/
def Obligations.CommandsReadOnlyTheirRow : Prop :=
  ∀ (i : Instr) (s s' t t' : State), s.caps.wf → s'.caps = s.caps →
    (∀ d ∈ rowReadRegs i, s'.reg d = s.reg d) →
    (∀ p ∈ rowReadBufs i s, ∀ w < p.2, s'.bufRead p.1 w = s.bufRead p.1 w) →
    (∀ k < rowReadBits i s, s'.bit k = s.bit k) →
    exec i s = .next t → exec i s' = .next t' →
    t'.errcode = t.errcode ∧
    (t.errcode = .noError → (∀ d ∈ rowWriteRegs i, t'.reg d = t.reg d) ∧
      ∀ p ∈ rowWriteBufs i s, ∀ w < p.2,
        t'.bufRead p.1 w = t.bufRead p.1 w ∨
          (t.bufRead p.1 w = s.bufRead p.1 w ∧ t'.bufRead p.1 w = s'.bufRead p.1 w))

/-! ## Errors (60_exceptions.md) -/

/-- R233: the explicit checks of each command, in its order, the first that fails giving the error; with
R234, nothing but STATUS then changes. -/
def Obligations.InputChecksInOrder : Prop :=
  ∀ (s : State) (i : Instr) (N : Nat), N = (s.reg .width).toNat * (s.reg .height).toNat →
    match i with
    | .freqScan | .rleEnc | .qrleEnc | .hufEnc | .ariEnc =>
      ((s.reg .pixLen).toNat ≠ 4 * N → exec i s = .next (s.withError .malformed)) ∧
      ((s.reg .pixLen).toNat = 4 * N → N > s.caps.pixCap → exec i s = .next (s.withError .capacity))
    | .rleDec =>
      (N > s.caps.pixCap ∨ (s.reg .runCount).toNat > s.caps.runCap →
        exec i s = .next (s.withError .capacity))
    | .hufDec =>
      (N > s.caps.pixCap ∨ (s.reg .bitLen).toNat > s.caps.bitsCap ∨
          (s.reg .nodeCount).toNat > 2 * s.caps.symCap - 1 →
        exec i s = .next (s.withError .capacity)) ∧
      (N ≤ s.caps.pixCap → (s.reg .bitLen).toNat ≤ s.caps.bitsCap →
        (s.reg .nodeCount).toNat ≤ 2 * s.caps.symCap - 1 → 0 < N →
        ((s.reg .nodeCount).toNat = 0 ∨ (s.reg .nodeCount).toNat ≤ (s.reg .root).toNat ∨
          (∃ k < (s.reg .nodeCount).toNat, s.treeKind k ≠ 0 ∧ s.treeKind k ≠ 1) ∨
          (∃ k < (s.reg .nodeCount).toNat, s.treeKind k = 1 ∧
            ((s.reg .nodeCount).toNat ≤ (s.treeA k).toNat ∨
              (s.reg .nodeCount).toNat ≤ (s.treeB k).toNat))) →
        exec i s = .next (s.withError .malformed))
    | .ariDec =>
      (N > s.caps.pixCap ∨ (s.reg .symCount).toNat > s.caps.symCap ∨
          (s.reg .bitLen).toNat > s.caps.bitsCap →
        exec i s = .next (s.withError .capacity)) ∧
      (N ≤ s.caps.pixCap → (s.reg .symCount).toNat ≤ s.caps.symCap →
        (s.reg .bitLen).toNat ≤ s.caps.bitsCap → 0 < N →
        (∀ e < (s.reg .symCount).toNat, s.bufRead .freq (2 * e + 1) = 0) →
        exec i s = .next (s.withError .malformed))

/-- R231: which errors a command can report. -/
def Obligations.ErrorsOfEachCommand : Prop :=
  ∀ (i : Instr) (s t : State), exec i s = .next t →
    t.errcode ∈ (match i with
      | .freqScan | .rleEnc | .qrleEnc | .hufEnc | .ariEnc => [.noError, .malformed, .capacity]
      | .rleDec => [.noError, .capacity]
      | .hufDec => [.noError, .malformed, .capacity]
      | .ariDec => [.noError, .malformed, .symbolNotFound, .capacity] : List ErrCode)

/-- R234: when the input checks pass and a command ends in an error all the same, every register and every
buffer word of its row holds a draw taken by this completion, different locations different draws, and every
other location is left. Which draws, and how far the row extends, are the model's (log entries 4, 8). -/
def Obligations.RunErrorsLeaveDraws : Prop :=
  ∀ (i : Instr) (s t : State), s.caps.wf → inputChecksPass i s → exec i s = .next t →
    t.errcode ≠ .noError →
    (∃ number : DataLocation → Nat,
      (∀ x ∈ drawnLocations i s, s.draws ≤ number x ∧ number x < t.draws ∧
        t.locationWord x = Config.draw (number x)) ∧
      ∀ x ∈ drawnLocations i s, ∀ y ∈ drawnLocations i s, number x = number y → x = y) ∧
    KeptOutside s t (rowWriteRegs i) (drawnBufs i s)

/-! ## The frequency model (40_frequency_model.md) -/

/-- R130: `freq_model(P)` is the table of the distinct pixels in the order of their first occurrence with
their numbers of occurrences, and CAPACITY exactly when there are more of them than SYM_CAP. -/
def Obligations.FreqModelCountsFirstSeen : Prop :=
  ∀ (symCap : Nat) (P : List Word),
    freqModel symCap P =
      if (firstSeen P).length ≤ symCap then .ok (countTable P) else .error .capacity

/-- R131, R132: FREQ_SCAN of an image that passes the checks and has at most SYM_CAP distinct pixels
completes with the table in FREQ and its length in SYM_COUNT; FREQ words above the table, and
everything else, are left. With more distinct pixels it ends with CAPACITY. -/
def Obligations.FreqScanResult : Prop :=
  ∀ s : State, s.caps.wf → s.regNat .pixLen = 4 * s.pixelCount → s.pixelCount ≤ s.caps.pixCap →
    ((firstSeen s.pixIn).length ≤ s.caps.symCap →
      ∃ t, exec .freqScan s = .next t ∧ Completed s t .noError ∧
        t.regNat .symCount = (firstSeen s.pixIn).length ∧ t.freqList = countTable s.pixIn ∧
        t.draws = s.draws ∧
        KeptOutside s t [.symCount] [(.freq, 2 * (firstSeen s.pixIn).length)]) ∧
    (s.caps.symCap < (firstSeen s.pixIn).length →
      ∃ t, exec .freqScan s = .next t ∧ Completed s t .capacity)

/-! ## The run-length codec (41_rle.md) -/

/-- R140: `rle_runs(P)` gives the maximal runs of `P`, or CAPACITY exactly when there are more than
RUN_CAP of them. The spec marks its sentence on adjacent runs and counts as derived from the
pseudocode of R140. -/
def Obligations.RleRunsAreMaximal : Prop :=
  ∀ (runCap : Nat) (P : List Word),
    ∃ U : List Run, expandRuns U = P ∧ maximalRuns U ∧
      rleRuns runCap P = if U.length ≤ runCap then .ok U else .error .capacity

/-- R141, R142, R145: RLE_ENC and QRLE_ENC of an image that passes the checks complete with its maximal
runs (of the quantized pixels for QRLE_ENC) in RUNS, their number in RUN_COUNT and the size report,
and leave everything else; with more than RUN_CAP runs they end with CAPACITY. -/
def Obligations.RleEncodersResult : Prop :=
  ∀ (s : State) (i : Instr), i = .rleEnc ∨ i = .qrleEnc → s.caps.wf →
    s.regNat .pixLen = 4 * s.pixelCount → s.pixelCount ≤ s.caps.pixCap →
    ∃ U : List Run, expandRuns U = encodedPixels i s ∧ maximalRuns U ∧
      (U.length ≤ s.caps.runCap →
        ∃ t, exec i s = .next t ∧ Completed s t .noError ∧ t.runList = U ∧
          t.regNat .runCount = U.length ∧ t.regNat .origSize = s.regNat .pixLen * 8 ∧
          t.regNat .compSize = U.length * 32 ∧ t.draws = s.draws ∧
          KeptOutside s t [.runCount, .origSize, .compSize] [(.runs, 2 * U.length)]) ∧
      (s.caps.runCap < U.length → ∃ t, exec i s = .next t ∧ Completed s t .capacity)

/-- R150: RLE_DEC within the capacities completes with the replayed runs, cut off at N pixels, in
PIX_OUT, zeros above them, and their number in OUT_COUNT; everything else is left. -/
def Obligations.RleDecoderResult : Prop :=
  ∀ s : State, s.caps.wf → s.pixelCount ≤ s.caps.pixCap → s.regNat .runCount ≤ s.caps.runCap →
    ∃ t, exec .rleDec s = .next t ∧ Completed s t .noError ∧
      t.regNat .outCount = min s.pixelCount ((s.runList.map Run.cnt).sum) ∧
      (∀ p < s.pixelCount, t.pixOut p = (expandRuns s.runList).getD p 0) ∧
      t.draws = s.draws ∧ KeptOutside s t [.outCount] [(.pixOut, s.pixelCount)]

/-- R151: the RLE round trip. After a successful RLE_ENC or QRLE_ENC of a non-empty image, RLE_DEC with
WIDTH and HEIGHT unchanged gives back the pixels that were encoded. -/
def Obligations.RleRoundTrip : Prop :=
  ∀ (s t u : State) (i : Instr), i = .rleEnc ∨ i = .qrleEnc → s.caps.wf → 1 ≤ s.pixelCount →
    exec i s = .next t → t.errcode = .noError → exec .rleDec t = .next u →
    u.errcode = .noError ∧ u.regNat .outCount = s.pixelCount ∧
      ∀ p (h : p < (encodedPixels i s).length), u.pixOut p = (encodedPixels i s)[p]

/-- R143: `quant` by its formula: every channel value is rounded to a nearest multiple of 32, a tie going
up, clamped to 255; its image is the nine values of the rule. -/
def Obligations.QuantRoundsToNearest : Prop :=
  ∀ c : Nat, c < 256 → quant c = min 255 (32 * ((c + 16) / 32)) ∧
    quant c ∈ [0, 32, 64, 96, 128, 160, 192, 224, 255] ∧
    ∃ m : Nat, 32 ∣ m ∧ quant c = min 255 m ∧
      (∀ m' : Int, 32 ∣ m' → |(c : Int) - m| ≤ |(c : Int) - m'|) ∧
      (∀ m' : Int, 32 ∣ m' → |(c : Int) - m'| = |(c : Int) - m| → m' ≤ m)

/-- R144: `qpix` quantizes R, G and B independently, leaves A unchanged, and is idempotent. -/
def Obligations.QpixIsIdempotent : Prop :=
  ∀ w : Word, qpix (qpix w) = qpix w ∧
    (qpix w).extractLsb' 24 8 = w.extractLsb' 24 8 ∧
    ∀ k < 3, ((qpix w).extractLsb' (8 * k) 8).toNat = quant (w.extractLsb' (8 * k) 8).toNat

/-! ## The bit stream (20_memory.md, 42_huffman.md) -/

/-- R82, R165: `write_bits(S)` puts stream bit `i` at bit `i mod 32` of BITS word `i div 32`, zeros above
the last bit of the last word, the length in BIT_LEN, and touches no other BITS word. -/
def Obligations.BitsArePacked : Prop :=
  ∀ (s : State) (S : List Bool), S.length < 2 ^ 32 →
    (s.writeBits S).regNat .bitLen = S.length ∧
    (∀ i (h : i < S.length), (s.writeBits S).bit i = S[i]) ∧
    (∀ i, S.length ≤ i → i < 32 * ((S.length + 31) / 32) → (s.writeBits S).bit i = false) ∧
    (∀ w, (S.length + 31) / 32 ≤ w → (s.writeBits S).bufRead .bits w = s.bufRead .bits w)

/-! ## The Huffman codec (42_huffman.md) -/

/-- R161, R162: the tree of `n ≥ 1` entries has `2n-1` nodes: the leaves in FREQ order, then internal
nodes whose children are older nodes and whose frequency is their children's sum; the root is node
`2n-2`, and its frequency is the total. The empty table has no node and root 0. -/
def Obligations.HuffmanTreeShape : Prop :=
  huffmanBuild [] = ([], 0) ∧
  ∀ T : List FreqEntry, T ≠ [] →
    (huffmanBuild T).1.length = 2 * T.length - 1 ∧ (huffmanBuild T).2 = 2 * T.length - 2 ∧
    (huffmanBuild T).1.take T.length = T.map (fun e => HuffNode.leaf e.pix e.cnt) ∧
    (∀ k, T.length ≤ k → k < 2 * T.length - 1 →
      ∃ f l r, (huffmanBuild T).1[k]? = some (.internal f l r)) ∧
    (∀ k, orderedNode (huffmanBuild T).1 k) ∧
    freqOf (huffmanBuild T).1 (huffmanBuild T).2 = totalCount T

/-- R162: a round of the build takes the two lowest nodes of the working list, in the order of a stable sort by
frequency (the earlier one of equal frequency first), makes the lower the left child and the next the
right child of a new node with the sum of their frequencies, and puts the new node at the end of the
list; the build is n-1 rounds from the n leaves on. -/
def Obligations.HuffmanMergesTheTwoLowest : Prop :=
  (∀ (nodes : List HuffNode) (W : List Nat), 2 ≤ W.length →
    ∃ a b rest, mergeLowest nodes W =
        (nodes ++ [.internal (freqOf nodes a + freqOf nodes b) a b], rest ++ [nodes.length]) ∧
      (a :: b :: rest).Perm W ∧
      (a :: b :: rest).Pairwise (fun x y => freqOf nodes x ≤ freqOf nodes y) ∧
      ∀ f, (a :: b :: rest).filter (fun k => freqOf nodes k == f) =
        W.filter (fun k => freqOf nodes k == f)) ∧
  ∀ T : List FreqEntry, T ≠ [] →
    (fun r => mergeLowest r.1 r.2)^[T.length - 1]
      (T.map (fun e => HuffNode.leaf e.pix e.cnt), List.range T.length) =
        ((huffmanBuild T).1, [(huffmanBuild T).2])

/-- R164: with at least two symbols, every symbol of the table has one code, of 1 to n-1 bits, and no
code is a prefix of another symbol's code; each code, followed from the root with '0' to the left and '1' to
the right, ends at the leaf of its symbol; the code of a single symbol is '0'. -/
def Obligations.CodesArePrefixFree : Prop :=
  ∀ T : List FreqEntry, (T.map FreqEntry.pix).Nodup → T ≠ [] →
    let C := codeTable (huffmanBuild T).1 (huffmanBuild T).2
    (∀ w, w ∈ C.map Prod.fst ↔ w ∈ T.map FreqEntry.pix) ∧ (C.map Prod.fst).Nodup ∧
    (T.length = 1 → ∀ c ∈ C, c.2 = [false]) ∧
    (2 ≤ T.length → ∀ c ∈ C, 1 ≤ c.2.length ∧ c.2.length ≤ T.length - 1) ∧
    (2 ≤ T.length → ∀ c ∈ C, ∃ f,
      followCode (huffmanBuild T).1 (huffmanBuild T).2 c.2 = some (.leaf c.1 f)) ∧
    (∀ c ∈ C, ∀ d ∈ C, c.2 <+: d.2 → c = d)

/-- R166: HUF_ENC of an image that passes the checks, whose table fits SYM_CAP and whose code stream
fits BITS_CAP, completes with the table in FREQ, the tree in TREE, the codes of the pixels in BITS,
the lengths and the size report; everything else is left. Otherwise it ends with CAPACITY. -/
def Obligations.HufEncoderResult : Prop :=
  ∀ (s : State) (T : List FreqEntry) (nodes : List HuffNode) (root : Nat) (S : List Bool), s.caps.wf →
    s.regNat .pixLen = 4 * s.pixelCount → s.pixelCount ≤ s.caps.pixCap → T = countTable s.pixIn →
    (nodes, root) = huffmanBuild T → S = codeBits (codeTable nodes root) s.pixIn →
    (T.length ≤ s.caps.symCap → S.length ≤ s.caps.bitsCap →
      ∃ t, exec .hufEnc s = .next t ∧ Completed s t .noError ∧
        t.freqList = T ∧ t.regNat .symCount = T.length ∧
        t.regNat .nodeCount = nodes.length ∧ t.regNat .root = root ∧
        (∀ k (h : k < nodes.length), [t.treeKind k, t.treeFreq k, t.treeA k, t.treeB k] =
          match nodes[k] with
          | .leaf pix f => [0, BitVec.ofNat 32 f, pix, 0]
          | .internal f l r => [1, BitVec.ofNat 32 f, BitVec.ofNat 32 l, BitVec.ofNat 32 r]) ∧
        t.bitList = S ∧ t.regNat .bitLen = S.length ∧
        t.regNat .origSize = s.regNat .pixLen * 8 ∧ t.regNat .compSize = S.length ∧
        t.draws = s.draws ∧
        KeptOutside s t [.symCount, .nodeCount, .root, .bitLen, .origSize, .compSize]
          [(.freq, 2 * T.length), (.tree, 4 * nodes.length), (.bits, (S.length + 31) / 32)]) ∧
    (s.caps.symCap < T.length ∨ s.caps.bitsCap < S.length →
      ∃ t, exec .hufEnc s = .next t ∧ Completed s t .capacity)

/-- R175: HUF_DEC on a valid tree within the capacities completes with the pixels it decodes in PIX_OUT,
zeros above them, and their number in OUT_COUNT; everything else is left. With an internal root they are
what the loop of R175 emits from the root on; with a leaf at the root, min(N, BIT_LEN) times its symbol,
whatever the bits. -/
def Obligations.HufDecoderResult : Prop :=
  ∀ s : State, s.caps.wf → s.pixelCount ≤ s.caps.pixCap → s.regNat .bitLen ≤ s.caps.bitsCap →
    s.regNat .nodeCount ≤ 2 * s.caps.symCap - 1 → (s.pixelCount = 0 ∨ s.treeValid = true) →
    ∃ t, exec .hufDec s = .next t ∧ Completed s t .noError ∧
      t.regNat .outCount = (hufDecoded s).length ∧ (hufDecoded s).length ≤ s.pixelCount ∧
      (∀ p < s.pixelCount, t.pixOut p = (hufDecoded s).getD p 0) ∧
      t.draws = s.draws ∧ KeptOutside s t [.outCount] [(.pixOut, s.pixelCount)] ∧
      (s.treeKind (s.regNat .root) = 0 →
        hufDecoded s = List.replicate (min s.pixelCount (s.regNat .bitLen)) (s.treeA (s.regNat .root))) ∧
      (s.treeKind (s.regNat .root) ≠ 0 →
        hufDecoded s = hufDecodeFrom s s.pixelCount (s.regNat .root) s.bitList)

/-- R175, the decoding loop bit by bit: '0' moves the cursor to `Tree[cur].a`, '1' to `Tree[cur].b`; at a leaf
the symbol is emitted and the cursor goes back to the root; the loop ends with the pixels or with the
bits. R84: where the fields of a TREE record stand. -/
def Obligations.HufDecodingWalksTheTree : Prop :=
  ∀ (s : State) (room cur : Nat) (b : Bool) (bits : List Bool),
    let child := (if b then s.treeB cur else s.treeA cur).toNat
    hufDecodeFrom s 0 cur (b :: bits) = [] ∧ hufDecodeFrom s room cur [] = [] ∧
    (s.treeKind child = 0 → hufDecodeFrom s (room + 1) cur (b :: bits) =
      s.treeA child :: hufDecodeFrom s room (s.regNat .root) bits) ∧
    (s.treeKind child ≠ 0 → hufDecodeFrom s (room + 1) cur (b :: bits) =
      hufDecodeFrom s (room + 1) child bits) ∧
    (hufDecodeFrom s room cur bits).length ≤ min room bits.length ∧
    s.treeKind cur = s.bufRead .tree (4 * cur) ∧ s.treeFreq cur = s.bufRead .tree (4 * cur + 1) ∧
    s.treeA cur = s.bufRead .tree (4 * cur + 2) ∧ s.treeB cur = s.bufRead .tree (4 * cur + 3)

/-- R176: the Huffman round trip. After a successful HUF_ENC of a non-empty image, HUF_DEC on the state it
left succeeds and gives back every pixel. -/
def Obligations.HuffmanRoundTrip : Prop :=
  ∀ s t u : State, s.caps.wf → 1 ≤ s.pixelCount →
    exec .hufEnc s = .next t → t.errcode = .noError → exec .hufDec t = .next u →
    u.errcode = .noError ∧ u.regNat .outCount = s.pixelCount ∧
      ∀ p < s.pixelCount, u.pixOut p = s.bufRead .pixIn p

/-! ## Binary64 (10_state.md, 00_scope.md) -/

/-- R12, R52: `rn(q)` of every fraction, and `fadd`, `fsub`, `fmul` and `fdiv` of all finite values, are the
exact result rounded to nearest with ties to even, subnormal results kept; `rn` of a fraction up to 1 is
finite; a nonzero value over zero is an infinity of the quotient's sign, 0/0 a NaN; a comparison is that
of the exact values, and false with a NaN. The signs of zeros and the overflow to an infinity are those of
IEEE 754 (log entry 10). -/
def Obligations.RoundingIsToNearestEven : Prop :=
  (∀ num den : Nat, 0 < den → RoundsTo (rn num den) false (num * 2 ^ 1074) den ∧
    (num ≤ den → ∃ m, rn num den = .fin false m ∧ NearestEven m (num * 2 ^ 1074) den)) ∧
  (∀ (a b : Bool) (m n : Nat),
    RoundsToSum (fadd (.fin a m) (.fin b n)) (a && b) (signedUnits a m + signedUnits b n) ∧
    RoundsToSum (fsub (.fin a m) (.fin b n)) (a && !b) (signedUnits a m - signedUnits b n) ∧
    RoundsTo (fmul (.fin a m) (.fin b n)) (a ^^ b) (m * n) (2 ^ 1074) ∧
    (0 < n → RoundsTo (fdiv (.fin a m) (.fin b n)) (a ^^ b) (m * 2 ^ 1074) n) ∧
    (0 < m → fdiv (.fin a m) (.fin b 0) = .inf (a ^^ b)) ∧ fdiv (.fin a 0) (.fin b 0) = .nan ∧
    ((F64.fin a m).le (.fin b n) = true ↔ signedUnits a m ≤ signedUnits b n) ∧
    ((F64.fin a m).lt (.fin b n) = true ↔ signedUnits a m < signedUnits b n)) ∧
  ∀ x : F64, x.le .nan = false ∧ F64.nan.le x = false ∧ x.lt .nan = false ∧ F64.nan.lt x = false

/-- R201: the encoded value adds the weights of the stream's '1' bits in stream order, first bit first, each
addition rounded, from 0.0 on; the weight of stream bit `k-1` is `rn(2^-k)`, exact up to 2^-1074 and 0.0
below. -/
def Obligations.BitWeights : Prop :=
  (∀ k : Nat, 1 ≤ k → bitWeight k = rn 1 (2 ^ k) ∧
    (k ≤ 1074 → bitWeight k = .fin false (2 ^ (1074 - k))) ∧ (1075 ≤ k → bitWeight k = .fin false 0)) ∧
  encodedValue [] = .fin false 0 ∧
  ∀ (bits : List Bool) (b : Bool), encodedValue (bits ++ [b]) =
    if b then fadd (encodedValue bits) (rn 1 (2 ^ (bits.length + 1))) else encodedValue bits

/-! ## The arithmetic codec (43_arithmetic.md) -/

/-- R191, R192: the cumulative table lists the entries in the canonical order, those of equal key in FREQ order,
with the correctly rounded fractions of the exact running sums as bounds; so the first low bound is
0.0, the last high bound is 1.0, and each high bound is the next low bound. The spec marks that last
sentence as derived from the pseudocode of R191. -/
def Obligations.CumulativeTableIsContiguous : Prop :=
  ∀ T : List FreqEntry, 0 < totalCount T →
    (∃ O : List FreqEntry, O.Perm T ∧
      O.Pairwise (fun e f => (symbolKey e.pix).toNat ≤ (symbolKey f.pix).toNat) ∧
      (∀ k, O.filter (fun e => (symbolKey e.pix).toNat == k) =
        T.filter (fun e => (symbolKey e.pix).toNat == k)) ∧
      (cumTable T).length = O.length ∧
      ∀ (j : Nat) (h : j < O.length), (cumTable T)[j]? = some
        ⟨O[j].pix, rn ((O.take j).map FreqEntry.cnt).sum (totalCount T),
          rn ((O.take (j + 1)).map FreqEntry.cnt).sum (totalCount T)⟩) ∧
    (∀ w : Word, symbolKey w =
      w.extractLsb' 0 8 ++ w.extractLsb' 8 8 ++ w.extractLsb' 16 8 ++ w.extractLsb' 24 8) ∧
    (∀ e, (cumTable T).head? = some e → e.cl = .fin false 0) ∧
    (∀ e, (cumTable T).getLast? = some e → e.ch = .fin false (2 ^ 1074)) ∧
    (cumTable T).IsChain (fun e f => e.ch = f.cl)

/-- R194, R198: the renormalization loop, pass by pass, and its end: it is bounded by the room in the
stream, so the bound on the passes in its definition never shows. -/
def Obligations.RenormalizationLoop : Prop :=
  ∀ (cap : Nat) (iv : Interval) (S : Stream), S.len ≤ cap →
    renormalize cap iv S =
      (if iv.high.le .half then
        match emitBit cap S false with
        | .error c => .error c
        | .ok S' => renormalize cap ⟨fmul iv.low .two, fmul iv.high .two⟩ S'
      else if F64.half.le iv.low then
        match emitBit cap S true with
        | .error c => .error c
        | .ok S' =>
          renormalize cap ⟨fmul (fsub iv.low .half) .two, fmul (fsub iv.high .half) .two⟩ S'
      else .ok (iv, S)) ∧
    (∀ r, renormalize cap iv S = .ok r →
      r.1.high.le .half = false ∧ F64.half.le r.1.low = false ∧ r.2.len ≤ cap ∧
        ∃ bs, r.2.newest = bs ++ S.newest ∧ r.2.len = bs.length + S.len)

/-- R198: the runaway renormalization. From `low = high`, whatever the number, the loop never exits by itself and
the command ends with CAPACITY, for every BITS_CAP. -/
def Obligations.RunawayRenormalization : Prop :=
  ∀ (cap : Nat) (S : Stream) (x : F64), S.len ≤ cap → x ≠ .nan →
    renormalize cap ⟨x, x⟩ S = .error .capacity

/-- R195, R193: ARI_ENC of an image that passes the checks and whose table fits SYM_CAP completes, when the
stream fits BITS_CAP, with the table in FREQ, the stream in BITS, the lengths and the size report;
everything else is left. Otherwise it ends with CAPACITY. The stream is what the loop emits from the
interval (0.0, 1.0) on, and the final bit; a pass of the loop takes the bounds of the pixel's one entry,
narrows (the new high from the old low) and renormalizes (RenormalizationLoop). -/
def Obligations.AriEncoderResult : Prop :=
  (∀ (s : State) (T : List FreqEntry), s.caps.wf →
    s.regNat .pixLen = 4 * s.pixelCount → s.pixelCount ≤ s.caps.pixCap → T = countTable s.pixIn →
    (∀ S, T.length ≤ s.caps.symCap → ariEncode s.caps.bitsCap T s.pixIn = .ok S →
      ∃ t, exec .ariEnc s = .next t ∧ Completed s t .noError ∧
        t.freqList = T ∧ t.regNat .symCount = T.length ∧
        t.bitList = S.bits ∧ t.regNat .bitLen = S.bits.length ∧ S.bits.length ≤ s.caps.bitsCap ∧
        t.regNat .origSize = s.regNat .pixLen * 8 ∧ t.regNat .compSize = S.bits.length ∧
        t.draws = s.draws ∧
        KeptOutside s t [.symCount, .bitLen, .origSize, .compSize]
          [(.freq, 2 * T.length), (.bits, (S.bits.length + 31) / 32)]) ∧
    (s.caps.symCap < T.length ∨ (∀ S, ariEncode s.caps.bitsCap T s.pixIn ≠ .ok S) →
      ∃ t, exec .ariEnc s = .next t ∧ Completed s t .capacity)) ∧
  (∀ (cap : Nat) (T : List FreqEntry) (P : List Word), ariEncode cap T P =
    match ariEncodeFrom cap (cumTable T) ⟨.fin false 0, .fin false (2 ^ 1074)⟩ ⟨[], 0⟩ P with
    | .error c => .error c
    | .ok r => emitBit cap r.2 (if r.1.low.lt .half then false else true)) ∧
  (∀ (cap : Nat) (CT : List CumEntry) (iv : Interval) (S : Stream),
    ariEncodeFrom cap CT iv S [] = .ok (iv, S)) ∧
  ∀ (cap : Nat) (P : List Word) (w : Word), w ∈ P →
    ∃ e ∈ cumTable (countTable P), e.pix = w ∧ (∀ f ∈ cumTable (countTable P), f.pix = w → f = e) ∧
      ∀ (iv : Interval) (S : Stream) (Q : List Word),
        ariEncodeFrom cap (cumTable (countTable P)) iv S (w :: Q) =
          match renormalize cap ⟨fadd iv.low (fmul (fsub iv.high iv.low) e.cl),
            fadd iv.low (fmul (fsub iv.high iv.low) e.ch)⟩ S with
          | .error c => .error c
          | .ok r => ariEncodeFrom cap (cumTable (countTable P)) r.1 r.2 Q

/-- R195, corner cases (1) and (2): the empty image, and an image of one colour of any size, complete with
the single bit '0'. -/
def Obligations.AriEncoderOneColour : Prop :=
  ∀ (s : State) (w : Word), s.caps.wf → s.regNat .pixLen = 4 * s.pixelCount →
    s.pixelCount ≤ s.caps.pixCap → (∀ x ∈ s.pixIn, x = w) →
    ∃ t, exec .ariEnc s = .next t ∧ Completed s t .noError ∧ t.regNat .bitLen = 1 ∧
      t.bitList = [false] ∧ t.regNat .compSize = 1 ∧ t.bufRead .bits 0 = 0

/-- R196: the final bit of every successful ARI_ENC is '0'. -/
def Obligations.FinalBitIsZero : Prop :=
  ∀ s t : State, s.caps.wf → exec .ariEnc s = .next t → t.errcode = .noError →
    t.bitList.getLast? = some false

/-- R205, R193: ARI_DEC within the capacities, on a table with a positive total, completes when every step
finds a symbol, with the symbols found in PIX_OUT and OUT_COUNT = N; everything else is left. When a
step finds none it ends with SYMBOL_NOT_FOUND. The empty image needs no table. A pass of its loop finds
the entry (FindMatchesNothing), emits its symbol and narrows (the new high from the old low), without
renormalization; the encoded value stays (BitWeights). -/
def Obligations.AriDecoderResult : Prop :=
  (∀ s : State, s.caps.wf → s.pixelCount ≤ s.caps.pixCap → s.regNat .symCount ≤ s.caps.symCap →
    s.regNat .bitLen ≤ s.caps.bitsCap → (s.pixelCount = 0 ∨ 0 < totalCount s.freqList) →
    (∀ out, ariDecodeFrom (cumTable s.freqList) (encodedValue s.bitList) s.pixelCount
        ⟨.fin false 0, .fin false (2 ^ 1074)⟩ = .ok out →
      ∃ t, exec .ariDec s = .next t ∧ Completed s t .noError ∧ out.length = s.pixelCount ∧
        t.regNat .outCount = s.pixelCount ∧ (∀ p (h : p < out.length), t.pixOut p = out[p]) ∧
        t.draws = s.draws ∧ KeptOutside s t [.outCount] [(.pixOut, s.pixelCount)]) ∧
    ((∀ out, ariDecodeFrom (cumTable s.freqList) (encodedValue s.bitList) s.pixelCount
        ⟨.fin false 0, .fin false (2 ^ 1074)⟩ ≠ .ok out) →
      ∃ t, exec .ariDec s = .next t ∧ Completed s t .symbolNotFound)) ∧
  ∀ (CT : List CumEntry) (v : F64) (n : Nat) (iv : Interval),
    ariDecodeFrom CT v 0 iv = .ok [] ∧
    (findSymbol CT iv v = none → ariDecodeFrom CT v (n + 1) iv = .error .symbolNotFound) ∧
    ∀ x, findSymbol CT iv v = some x → ariDecodeFrom CT v (n + 1) iv =
      match ariDecodeFrom CT v n ⟨fadd iv.low (fmul (fsub iv.high iv.low) x.cl),
        fadd iv.low (fmul (fsub iv.high iv.low) x.ch)⟩ with
      | .error c => .error c
      | .ok out => .ok (x.pix :: out)

/-- R202: the symbol search answers the first entry in the table's order whose half-open interval contains
`(v - low) / (high - low)`, and none exactly when no entry's does; on every cumulative table with a
positive total it answers none when `high - low` evaluates to 0.0, when the value is 1.0 or more, and
when the value is negative. -/
def Obligations.FindMatchesNothing : Prop :=
  (∀ (CT : List CumEntry) (iv : Interval) (v : F64),
    let value := fdiv (fsub v iv.low) (fsub iv.high iv.low)
    let matching := fun e : CumEntry => e.cl.le value = true ∧ value.lt e.ch = true
    (∀ x, findSymbol CT iv v = some x ↔
      ∃ j : Nat, CT[j]? = some x ∧ matching x ∧ ∀ i < j, ∀ e, CT[i]? = some e → ¬matching e) ∧
    (findSymbol CT iv v = none ↔ ∀ e ∈ CT, ¬matching e)) ∧
  ∀ (T : List FreqEntry) (iv : Interval) (v : F64), 0 < totalCount T →
    (∀ b, fsub iv.high iv.low = .fin b 0 → findSymbol (cumTable T) iv v = none) ∧
    (F64.one.le (fdiv (fsub v iv.low) (fsub iv.high iv.low)) = true →
      findSymbol (cumTable T) iv v = none) ∧
    ((fdiv (fsub v iv.low) (fsub iv.high iv.low)).lt .zero = true →
      findSymbol (cumTable T) iv v = none)

/-- R206: the arithmetic round trip holds for every image of one or two pixels. -/
def Obligations.ArithmeticRoundTripUpToTwo : Prop :=
  ∀ s t u : State, s.caps.wf → 1 ≤ s.pixelCount → s.pixelCount ≤ 2 →
    exec .ariEnc s = .next t → t.errcode = .noError → exec .ariDec t = .next u →
    u.errcode = .noError ∧ u.regNat .outCount = s.pixelCount ∧
      ∀ p < s.pixelCount, u.pixOut p = s.bufRead .pixIn p

/-- R206: three distinct symbols in canonical order encode to '0010', and that stream decodes, without an
error, to wrong pixels: the first symbol comes out in place of the third. -/
def Obligations.ArithmeticDecodesWrongPixels : Prop :=
  ∀ (cap : Nat) (a b c : Word), 32 ≤ cap → (symbolKey a).toNat < (symbolKey b).toNat →
    (symbolKey b).toNat < (symbolKey c).toNat →
    (∃ S, ariEncode cap (countTable [a, b, c]) [a, b, c] = .ok S ∧
      S.bits = [false, false, true, false]) ∧
    ariDecodeFrom (cumTable (countTable [a, b, c])) (encodedValue [false, false, true, false]) 3 .start =
      .ok [a, b, a]
end

