-- ==== Sys2Proof/Laws/Sort.lean ====
section
/-! SUPPORT. The laws of `stable_sort_ascending` (R162, R192): a sorted permutation in which elements of
equal key keep their order. -/

namespace Sys2Proof.Machine

variable {α : Type} (key : α → Nat)

theorem stableInsert_perm (x : α) (l : List α) : (stableInsert key x l).Perm (x :: l) := by
  induction l with
  | nil => exact .refl _
  | cons y ys ih =>
    unfold stableInsert
    split
    · exact .refl _
    · exact ((ih.cons y).trans (.swap x y ys))

/-- Sorting permutes. -/
theorem stableSort_perm (l : List α) : (stableSort key l).Perm l := by
  induction l with
  | nil => exact .refl _
  | cons x xs ih => exact (stableInsert_perm key x _).trans (ih.cons x)

@[simp] theorem stableSort_length (l : List α) : (stableSort key l).length = l.length :=
  (stableSort_perm key l).length_eq

theorem stableInsert_sorted (x : α) {l : List α} (h : l.Pairwise (fun a b => key a ≤ key b)) :
    (stableInsert key x l).Pairwise (fun a b => key a ≤ key b) := by
  induction l with
  | nil => simp [stableInsert]
  | cons y ys ih =>
    obtain ⟨h1, h2⟩ := List.pairwise_cons.1 h
    unfold stableInsert
    split
    · refine List.pairwise_cons.2 ⟨fun a ha => ?_, h⟩
      rcases List.mem_cons.1 ha with rfl | ha
      · assumption
      · exact le_trans ‹_› (h1 a ha)
    · refine List.pairwise_cons.2 ⟨fun a ha => ?_, ih h2⟩
      rcases List.mem_cons.1 ((stableInsert_perm key x ys).subset ha) with rfl | ha
      · omega
      · exact h1 a ha

/-- The result of sorting ascends. -/
theorem stableSort_sorted (l : List α) : (stableSort key l).Pairwise (fun a b => key a ≤ key b) := by
  induction l with
  | nil => exact .nil
  | cons x xs ih => exact stableInsert_sorted key x ih

theorem stableInsert_filter (x : α) (l : List α) (k : Nat) :
    (stableInsert key x l).filter (fun a => key a = k) = (x :: l).filter (fun a => key a = k) := by
  induction l with
  | nil => rfl
  | cons y ys ih =>
    unfold stableInsert
    split
    · rfl
    · rw [List.filter_cons, ih]
      by_cases hx : key x = k
      · have : key y ≠ k := by omega
        simp [hx, this]
      · simp [List.filter_cons, hx]

/-- Sorting is stable: the elements of one key keep their order. -/
theorem stableSort_stable (l : List α) (k : Nat) :
    (stableSort key l).filter (fun a => key a = k) = l.filter (fun a => key a = k) := by
  induction l with
  | nil => rfl
  | cons x xs ih => rw [stableSort, stableInsert_filter, List.filter_cons, List.filter_cons, ih]

end Sys2Proof.Machine
end

