-- ==== Sys2Proof/Laws/State.lean ====
section
/-! SUPPORT. What each named update of the state does to each field, so that no proof unfolds a record
update. -/

namespace Sys2Proof.Machine

/-! ## bufWrite -/

@[simp] theorem State.bufWrite_seq (s : State) (b : Buf) (w : Nat) (v : Word) :
    (s.bufWrite b w v).seq = s.seq := rfl
@[simp] theorem State.bufWrite_cmd (s : State) (b : Buf) (w : Nat) (v : Word) :
    (s.bufWrite b w v).cmd = s.cmd := rfl
@[simp] theorem State.bufWrite_done (s : State) (b : Buf) (w : Nat) (v : Word) :
    (s.bufWrite b w v).done = s.done := rfl
@[simp] theorem State.bufWrite_err (s : State) (b : Buf) (w : Nat) (v : Word) :
    (s.bufWrite b w v).err = s.err := rfl
@[simp] theorem State.bufWrite_errcode (s : State) (b : Buf) (w : Nat) (v : Word) :
    (s.bufWrite b w v).errcode = s.errcode := rfl
@[simp] theorem State.bufWrite_irqEn (s : State) (b : Buf) (w : Nat) (v : Word) :
    (s.bufWrite b w v).irqEn = s.irqEn := rfl
@[simp] theorem State.bufWrite_regs (s : State) (b : Buf) (w : Nat) (v : Word) :
    (s.bufWrite b w v).regs = s.regs := rfl
@[simp] theorem State.bufWrite_mem (s : State) (b : Buf) (w : Nat) (v : Word) :
    (s.bufWrite b w v).mem = Memory.putWord s.mem (b.addr w) v := rfl
@[simp] theorem State.bufWrite_memEpoch (s : State) (b : Buf) (w : Nat) (v : Word) :
    (s.bufWrite b w v).memEpoch = s.memEpoch := rfl
@[simp] theorem State.bufWrite_caps (s : State) (b : Buf) (w : Nat) (v : Word) :
    (s.bufWrite b w v).caps = s.caps := rfl
@[simp] theorem State.bufWrite_draws (s : State) (b : Buf) (w : Nat) (v : Word) :
    (s.bufWrite b w v).draws = s.draws := rfl
@[simp] theorem State.bufWrite_agenda (s : State) (b : Buf) (w : Nat) (v : Word) :
    (s.bufWrite b w v).agenda = s.agenda := rfl
@[simp] theorem State.bufWrite_reply (s : State) (b : Buf) (w : Nat) (v : Word) :
    (s.bufWrite b w v).reply = s.reply := rfl

/-! ## bufFill -/

@[simp] theorem State.bufFill_seq (s : State) (b : Buf) (vs : List Word) :
    (s.bufFill b vs).seq = s.seq := rfl
@[simp] theorem State.bufFill_cmd (s : State) (b : Buf) (vs : List Word) :
    (s.bufFill b vs).cmd = s.cmd := rfl
@[simp] theorem State.bufFill_done (s : State) (b : Buf) (vs : List Word) :
    (s.bufFill b vs).done = s.done := rfl
@[simp] theorem State.bufFill_err (s : State) (b : Buf) (vs : List Word) :
    (s.bufFill b vs).err = s.err := rfl
@[simp] theorem State.bufFill_errcode (s : State) (b : Buf) (vs : List Word) :
    (s.bufFill b vs).errcode = s.errcode := rfl
@[simp] theorem State.bufFill_irqEn (s : State) (b : Buf) (vs : List Word) :
    (s.bufFill b vs).irqEn = s.irqEn := rfl
@[simp] theorem State.bufFill_regs (s : State) (b : Buf) (vs : List Word) :
    (s.bufFill b vs).regs = s.regs := rfl
@[simp] theorem State.bufFill_mem (s : State) (b : Buf) (vs : List Word) :
    (s.bufFill b vs).mem = Memory.putWords s.mem (b.addr 0) vs := rfl
@[simp] theorem State.bufFill_memEpoch (s : State) (b : Buf) (vs : List Word) :
    (s.bufFill b vs).memEpoch = s.memEpoch := rfl
@[simp] theorem State.bufFill_caps (s : State) (b : Buf) (vs : List Word) :
    (s.bufFill b vs).caps = s.caps := rfl
@[simp] theorem State.bufFill_draws (s : State) (b : Buf) (vs : List Word) :
    (s.bufFill b vs).draws = s.draws := rfl
@[simp] theorem State.bufFill_agenda (s : State) (b : Buf) (vs : List Word) :
    (s.bufFill b vs).agenda = s.agenda := rfl
@[simp] theorem State.bufFill_reply (s : State) (b : Buf) (vs : List Word) :
    (s.bufFill b vs).reply = s.reply := rfl

/-! ## setReg -/

@[simp] theorem State.setReg_seq (s : State) (d : DataReg) (v : Word) :
    (s.setReg d v).seq = s.seq := rfl
@[simp] theorem State.setReg_cmd (s : State) (d : DataReg) (v : Word) :
    (s.setReg d v).cmd = s.cmd := rfl
@[simp] theorem State.setReg_done (s : State) (d : DataReg) (v : Word) :
    (s.setReg d v).done = s.done := rfl
@[simp] theorem State.setReg_err (s : State) (d : DataReg) (v : Word) :
    (s.setReg d v).err = s.err := rfl
@[simp] theorem State.setReg_errcode (s : State) (d : DataReg) (v : Word) :
    (s.setReg d v).errcode = s.errcode := rfl
@[simp] theorem State.setReg_irqEn (s : State) (d : DataReg) (v : Word) :
    (s.setReg d v).irqEn = s.irqEn := rfl
@[simp] theorem State.setReg_regs (s : State) (d : DataReg) (v : Word) :
    (s.setReg d v).regs = s.regs.set d v := rfl
@[simp] theorem State.setReg_mem (s : State) (d : DataReg) (v : Word) :
    (s.setReg d v).mem = s.mem := rfl
@[simp] theorem State.setReg_memEpoch (s : State) (d : DataReg) (v : Word) :
    (s.setReg d v).memEpoch = s.memEpoch := rfl
@[simp] theorem State.setReg_caps (s : State) (d : DataReg) (v : Word) :
    (s.setReg d v).caps = s.caps := rfl
@[simp] theorem State.setReg_draws (s : State) (d : DataReg) (v : Word) :
    (s.setReg d v).draws = s.draws := rfl
@[simp] theorem State.setReg_agenda (s : State) (d : DataReg) (v : Word) :
    (s.setReg d v).agenda = s.agenda := rfl
@[simp] theorem State.setReg_reply (s : State) (d : DataReg) (v : Word) :
    (s.setReg d v).reply = s.reply := rfl

/-! ## setRegNat -/

@[simp] theorem State.setRegNat_seq (s : State) (d : DataReg) (n : Nat) :
    (s.setRegNat d n).seq = s.seq := rfl
@[simp] theorem State.setRegNat_cmd (s : State) (d : DataReg) (n : Nat) :
    (s.setRegNat d n).cmd = s.cmd := rfl
@[simp] theorem State.setRegNat_done (s : State) (d : DataReg) (n : Nat) :
    (s.setRegNat d n).done = s.done := rfl
@[simp] theorem State.setRegNat_err (s : State) (d : DataReg) (n : Nat) :
    (s.setRegNat d n).err = s.err := rfl
@[simp] theorem State.setRegNat_errcode (s : State) (d : DataReg) (n : Nat) :
    (s.setRegNat d n).errcode = s.errcode := rfl
@[simp] theorem State.setRegNat_irqEn (s : State) (d : DataReg) (n : Nat) :
    (s.setRegNat d n).irqEn = s.irqEn := rfl
@[simp] theorem State.setRegNat_regs (s : State) (d : DataReg) (n : Nat) :
    (s.setRegNat d n).regs = s.regs.set d (BitVec.ofNat 32 n) := rfl
@[simp] theorem State.setRegNat_mem (s : State) (d : DataReg) (n : Nat) :
    (s.setRegNat d n).mem = s.mem := rfl
@[simp] theorem State.setRegNat_memEpoch (s : State) (d : DataReg) (n : Nat) :
    (s.setRegNat d n).memEpoch = s.memEpoch := rfl
@[simp] theorem State.setRegNat_caps (s : State) (d : DataReg) (n : Nat) :
    (s.setRegNat d n).caps = s.caps := rfl
@[simp] theorem State.setRegNat_draws (s : State) (d : DataReg) (n : Nat) :
    (s.setRegNat d n).draws = s.draws := rfl
@[simp] theorem State.setRegNat_agenda (s : State) (d : DataReg) (n : Nat) :
    (s.setRegNat d n).agenda = s.agenda := rfl
@[simp] theorem State.setRegNat_reply (s : State) (d : DataReg) (n : Nat) :
    (s.setRegNat d n).reply = s.reply := rfl

/-! ## advanceDraws -/

@[simp] theorem State.advanceDraws_seq (s : State) :
    (s.advanceDraws).seq = s.seq := rfl
@[simp] theorem State.advanceDraws_cmd (s : State) :
    (s.advanceDraws).cmd = s.cmd := rfl
@[simp] theorem State.advanceDraws_done (s : State) :
    (s.advanceDraws).done = s.done := rfl
@[simp] theorem State.advanceDraws_err (s : State) :
    (s.advanceDraws).err = s.err := rfl
@[simp] theorem State.advanceDraws_errcode (s : State) :
    (s.advanceDraws).errcode = s.errcode := rfl
@[simp] theorem State.advanceDraws_irqEn (s : State) :
    (s.advanceDraws).irqEn = s.irqEn := rfl
@[simp] theorem State.advanceDraws_regs (s : State) :
    (s.advanceDraws).regs = s.regs := rfl
@[simp] theorem State.advanceDraws_mem (s : State) :
    (s.advanceDraws).mem = s.mem := rfl
@[simp] theorem State.advanceDraws_memEpoch (s : State) :
    (s.advanceDraws).memEpoch = s.memEpoch := rfl
@[simp] theorem State.advanceDraws_caps (s : State) :
    (s.advanceDraws).caps = s.caps := rfl
@[simp] theorem State.advanceDraws_draws (s : State) :
    (s.advanceDraws).draws = s.draws + 1 := rfl
@[simp] theorem State.advanceDraws_agenda (s : State) :
    (s.advanceDraws).agenda = s.agenda := rfl
@[simp] theorem State.advanceDraws_reply (s : State) :
    (s.advanceDraws).reply = s.reply := rfl

/-! ## drawAll -/

@[simp] theorem State.drawAll_seq (s : State) (w : WriteSet) :
    (s.drawAll w).seq = s.seq := rfl
@[simp] theorem State.drawAll_cmd (s : State) (w : WriteSet) :
    (s.drawAll w).cmd = s.cmd := rfl
@[simp] theorem State.drawAll_done (s : State) (w : WriteSet) :
    (s.drawAll w).done = s.done := rfl
@[simp] theorem State.drawAll_err (s : State) (w : WriteSet) :
    (s.drawAll w).err = s.err := rfl
@[simp] theorem State.drawAll_errcode (s : State) (w : WriteSet) :
    (s.drawAll w).errcode = s.errcode := rfl
@[simp] theorem State.drawAll_irqEn (s : State) (w : WriteSet) :
    (s.drawAll w).irqEn = s.irqEn := rfl
@[simp] theorem State.drawAll_regs (s : State) (w : WriteSet) :
    (s.drawAll w).regs = Regs.drawEach s.regs s.draws w.regs := rfl
@[simp] theorem State.drawAll_mem (s : State) (w : WriteSet) :
    (s.drawAll w).mem = Memory.drawEach s.mem (s.draws + w.regs.length) w.bufs := rfl
@[simp] theorem State.drawAll_memEpoch (s : State) (w : WriteSet) :
    (s.drawAll w).memEpoch = s.memEpoch := rfl
@[simp] theorem State.drawAll_caps (s : State) (w : WriteSet) :
    (s.drawAll w).caps = s.caps := rfl
@[simp] theorem State.drawAll_draws (s : State) (w : WriteSet) :
    (s.drawAll w).draws = s.draws + w.size := rfl
@[simp] theorem State.drawAll_agenda (s : State) (w : WriteSet) :
    (s.drawAll w).agenda = s.agenda := rfl
@[simp] theorem State.drawAll_reply (s : State) (w : WriteSet) :
    (s.drawAll w).reply = s.reply := rfl

/-! ## finish -/

@[simp] theorem State.finish_seq (s : State) (c : ErrCode) :
    (s.finish c).seq = .idle := rfl
@[simp] theorem State.finish_cmd (s : State) (c : ErrCode) :
    (s.finish c).cmd = s.cmd := rfl
@[simp] theorem State.finish_done (s : State) (c : ErrCode) :
    (s.finish c).done = true := rfl
@[simp] theorem State.finish_err (s : State) (c : ErrCode) :
    (s.finish c).err = decide (c ≠ .noError) := rfl
@[simp] theorem State.finish_errcode (s : State) (c : ErrCode) :
    (s.finish c).errcode = c := rfl
@[simp] theorem State.finish_irqEn (s : State) (c : ErrCode) :
    (s.finish c).irqEn = s.irqEn := rfl
@[simp] theorem State.finish_regs (s : State) (c : ErrCode) :
    (s.finish c).regs = s.regs := rfl
@[simp] theorem State.finish_mem (s : State) (c : ErrCode) :
    (s.finish c).mem = s.mem := rfl
@[simp] theorem State.finish_memEpoch (s : State) (c : ErrCode) :
    (s.finish c).memEpoch = s.memEpoch := rfl
@[simp] theorem State.finish_caps (s : State) (c : ErrCode) :
    (s.finish c).caps = s.caps := rfl
@[simp] theorem State.finish_draws (s : State) (c : ErrCode) :
    (s.finish c).draws = s.draws := rfl
@[simp] theorem State.finish_agenda (s : State) (c : ErrCode) :
    (s.finish c).agenda = s.agenda := rfl
@[simp] theorem State.finish_reply (s : State) (c : ErrCode) :
    (s.finish c).reply = s.reply := rfl

/-! ## acceptCommand -/

@[simp] theorem State.acceptCommand_seq (s : State) (v : Word) :
    (s.acceptCommand v).seq = .busy := rfl
@[simp] theorem State.acceptCommand_cmd (s : State) (v : Word) :
    (s.acceptCommand v).cmd = v := rfl
@[simp] theorem State.acceptCommand_done (s : State) (v : Word) :
    (s.acceptCommand v).done = false := rfl
@[simp] theorem State.acceptCommand_err (s : State) (v : Word) :
    (s.acceptCommand v).err = false := rfl
@[simp] theorem State.acceptCommand_errcode (s : State) (v : Word) :
    (s.acceptCommand v).errcode = .noError := rfl
@[simp] theorem State.acceptCommand_irqEn (s : State) (v : Word) :
    (s.acceptCommand v).irqEn = s.irqEn := rfl
@[simp] theorem State.acceptCommand_regs (s : State) (v : Word) :
    (s.acceptCommand v).regs = s.regs := rfl
@[simp] theorem State.acceptCommand_mem (s : State) (v : Word) :
    (s.acceptCommand v).mem = s.mem := rfl
@[simp] theorem State.acceptCommand_memEpoch (s : State) (v : Word) :
    (s.acceptCommand v).memEpoch = s.memEpoch := rfl
@[simp] theorem State.acceptCommand_caps (s : State) (v : Word) :
    (s.acceptCommand v).caps = s.caps := rfl
@[simp] theorem State.acceptCommand_draws (s : State) (v : Word) :
    (s.acceptCommand v).draws = s.draws := rfl
@[simp] theorem State.acceptCommand_agenda (s : State) (v : Word) :
    (s.acceptCommand v).agenda = s.agenda := rfl
@[simp] theorem State.acceptCommand_reply (s : State) (v : Word) :
    (s.acceptCommand v).reply = s.reply := rfl

/-! ## writeCtrl -/

@[simp] theorem State.writeCtrl_seq (s : State) (v : Word) :
    (s.writeCtrl v).seq = s.seq := rfl
@[simp] theorem State.writeCtrl_cmd (s : State) (v : Word) :
    (s.writeCtrl v).cmd = s.cmd := rfl
@[simp] theorem State.writeCtrl_done (s : State) (v : Word) :
    (s.writeCtrl v).done = s.done := rfl
@[simp] theorem State.writeCtrl_err (s : State) (v : Word) :
    (s.writeCtrl v).err = s.err := rfl
@[simp] theorem State.writeCtrl_errcode (s : State) (v : Word) :
    (s.writeCtrl v).errcode = s.errcode := rfl
@[simp] theorem State.writeCtrl_irqEn (s : State) (v : Word) :
    (s.writeCtrl v).irqEn = v.getLsbD 0 := rfl
@[simp] theorem State.writeCtrl_regs (s : State) (v : Word) :
    (s.writeCtrl v).regs = s.regs := rfl
@[simp] theorem State.writeCtrl_mem (s : State) (v : Word) :
    (s.writeCtrl v).mem = s.mem := rfl
@[simp] theorem State.writeCtrl_memEpoch (s : State) (v : Word) :
    (s.writeCtrl v).memEpoch = s.memEpoch := rfl
@[simp] theorem State.writeCtrl_caps (s : State) (v : Word) :
    (s.writeCtrl v).caps = s.caps := rfl
@[simp] theorem State.writeCtrl_draws (s : State) (v : Word) :
    (s.writeCtrl v).draws = s.draws := rfl
@[simp] theorem State.writeCtrl_agenda (s : State) (v : Word) :
    (s.writeCtrl v).agenda = s.agenda := rfl
@[simp] theorem State.writeCtrl_reply (s : State) (v : Word) :
    (s.writeCtrl v).reply = s.reply := rfl

/-! ## answer -/

@[simp] theorem State.answer_seq (s : State) (r : BusReply) :
    (s.answer r).seq = s.seq := rfl
@[simp] theorem State.answer_cmd (s : State) (r : BusReply) :
    (s.answer r).cmd = s.cmd := rfl
@[simp] theorem State.answer_done (s : State) (r : BusReply) :
    (s.answer r).done = s.done := rfl
@[simp] theorem State.answer_err (s : State) (r : BusReply) :
    (s.answer r).err = s.err := rfl
@[simp] theorem State.answer_errcode (s : State) (r : BusReply) :
    (s.answer r).errcode = s.errcode := rfl
@[simp] theorem State.answer_irqEn (s : State) (r : BusReply) :
    (s.answer r).irqEn = s.irqEn := rfl
@[simp] theorem State.answer_regs (s : State) (r : BusReply) :
    (s.answer r).regs = s.regs := rfl
@[simp] theorem State.answer_mem (s : State) (r : BusReply) :
    (s.answer r).mem = s.mem := rfl
@[simp] theorem State.answer_memEpoch (s : State) (r : BusReply) :
    (s.answer r).memEpoch = s.memEpoch := rfl
@[simp] theorem State.answer_caps (s : State) (r : BusReply) :
    (s.answer r).caps = s.caps := rfl
@[simp] theorem State.answer_draws (s : State) (r : BusReply) :
    (s.answer r).draws = s.draws := rfl
@[simp] theorem State.answer_agenda (s : State) (r : BusReply) :
    (s.answer r).agenda = s.agenda := rfl
@[simp] theorem State.answer_reply (s : State) (r : BusReply) :
    (s.answer r).reply = r := rfl

/-! ## popEvent -/

@[simp] theorem State.popEvent_seq (s : State) :
    (s.popEvent).seq = s.seq := rfl
@[simp] theorem State.popEvent_cmd (s : State) :
    (s.popEvent).cmd = s.cmd := rfl
@[simp] theorem State.popEvent_done (s : State) :
    (s.popEvent).done = s.done := rfl
@[simp] theorem State.popEvent_err (s : State) :
    (s.popEvent).err = s.err := rfl
@[simp] theorem State.popEvent_errcode (s : State) :
    (s.popEvent).errcode = s.errcode := rfl
@[simp] theorem State.popEvent_irqEn (s : State) :
    (s.popEvent).irqEn = s.irqEn := rfl
@[simp] theorem State.popEvent_regs (s : State) :
    (s.popEvent).regs = s.regs := rfl
@[simp] theorem State.popEvent_mem (s : State) :
    (s.popEvent).mem = s.mem := rfl
@[simp] theorem State.popEvent_memEpoch (s : State) :
    (s.popEvent).memEpoch = s.memEpoch := rfl
@[simp] theorem State.popEvent_caps (s : State) :
    (s.popEvent).caps = s.caps := rfl
@[simp] theorem State.popEvent_draws (s : State) :
    (s.popEvent).draws = s.draws := rfl
@[simp] theorem State.popEvent_agenda (s : State) :
    (s.popEvent).agenda = s.agenda.tail := rfl
@[simp] theorem State.popEvent_reply (s : State) :
    (s.popEvent).reply = s.reply := rfl

/-! ## writeStatus -/

@[simp] theorem State.writeStatus_seq (s : State) (v : Word) :
    (s.writeStatus v).seq = s.seq := by
  unfold State.writeStatus; split <;> rfl
@[simp] theorem State.writeStatus_cmd (s : State) (v : Word) :
    (s.writeStatus v).cmd = s.cmd := by
  unfold State.writeStatus; split <;> rfl
@[simp] theorem State.writeStatus_done (s : State) (v : Word) :
    (s.writeStatus v).done = (s.done && !v.getLsbD 1) := by
  unfold State.writeStatus; cases h : v.getLsbD 1 <;> simp
@[simp] theorem State.writeStatus_err (s : State) (v : Word) :
    (s.writeStatus v).err = s.err := by
  unfold State.writeStatus; split <;> rfl
@[simp] theorem State.writeStatus_errcode (s : State) (v : Word) :
    (s.writeStatus v).errcode = s.errcode := by
  unfold State.writeStatus; split <;> rfl
@[simp] theorem State.writeStatus_irqEn (s : State) (v : Word) :
    (s.writeStatus v).irqEn = s.irqEn := by
  unfold State.writeStatus; split <;> rfl
@[simp] theorem State.writeStatus_regs (s : State) (v : Word) :
    (s.writeStatus v).regs = s.regs := by
  unfold State.writeStatus; split <;> rfl
@[simp] theorem State.writeStatus_mem (s : State) (v : Word) :
    (s.writeStatus v).mem = s.mem := by
  unfold State.writeStatus; split <;> rfl
@[simp] theorem State.writeStatus_memEpoch (s : State) (v : Word) :
    (s.writeStatus v).memEpoch = s.memEpoch := by
  unfold State.writeStatus; split <;> rfl
@[simp] theorem State.writeStatus_caps (s : State) (v : Word) :
    (s.writeStatus v).caps = s.caps := by
  unfold State.writeStatus; split <;> rfl
@[simp] theorem State.writeStatus_draws (s : State) (v : Word) :
    (s.writeStatus v).draws = s.draws := by
  unfold State.writeStatus; split <;> rfl
@[simp] theorem State.writeStatus_agenda (s : State) (v : Word) :
    (s.writeStatus v).agenda = s.agenda := by
  unfold State.writeStatus; split <;> rfl
@[simp] theorem State.writeStatus_reply (s : State) (v : Word) :
    (s.writeStatus v).reply = s.reply := by
  unfold State.writeStatus; split <;> rfl

/-! ## Registers -/

@[simp] theorem Regs.get_set_same (r : Regs) (d : DataReg) (v : Word) : (r.set d v).get d = v := by
  cases d <;> rfl

theorem Regs.get_set_ne (r : Regs) {d e : DataReg} (v : Word) (h : e ≠ d) :
    (r.set d v).get e = r.get e := by
  cases d <;> cases e <;> first | rfl | exact absurd rfl h

/-- A register after one register write. -/
@[simp] theorem Regs.get_set (r : Regs) (d e : DataReg) (v : Word) :
    (r.set d v).get e = if e = d then v else r.get e := by
  split
  · subst e; simp
  · exact Regs.get_set_ne r v ‹_›

/-- Drawing registers leaves the others alone. -/
theorem Regs.get_drawEach_of_notMem (ds : List DataReg) (r : Regs) (n : Nat) {d : DataReg} (h : d ∉ ds) :
    (Regs.drawEach r n ds).get d = r.get d := by
  induction ds generalizing r n with
  | nil => rfl
  | cons e ds ih =>
    rw [List.mem_cons, not_or] at h
    rw [Regs.drawEach, ih _ _ h.2, Regs.get_set_ne _ _ h.1]

/-- Of distinct registers, the one at place `k` takes draw `n + k`. -/
theorem Regs.get_drawEach (ds : List DataReg) (r : Regs) (n : Nat) (hn : ds.Nodup) (k : Nat) (hk : k < ds.length) :
    (Regs.drawEach r n ds).get ds[k] = Config.draw (n + k) := by
  induction ds generalizing r n k with
  | nil => simp at hk
  | cons e ds ih =>
    rw [List.nodup_cons] at hn
    cases k with
    | zero => rw [List.getElem_cons_zero, Regs.drawEach, Regs.get_drawEach_of_notMem ds _ _ hn.1, Regs.get_set_same]; rfl
    | succ k =>
      rw [List.getElem_cons_succ, Regs.drawEach, ih _ _ hn.2 k (by simpa using hk), Nat.add_right_comm]
      rfl

end Sys2Proof.Machine
end

