-- ==== Sys2Proof/Laws/Memory.lean ====
section
/-! SUPPORT. The laws of memory: what a byte, a word or a list of words reads as after a store, and that
every store keeps the canonical form. -/

namespace Sys2Proof.Machine

/-! ## Bytes -/

/-- A byte after one byte store. -/
theorem Memory.get?_put (m : Memory) (a x : Nat) (b : Byte) :
    Memory.get? (Memory.put m a b) x = if x = a then some b else Memory.get? m x := by
  induction m with
  | nil => simp [Memory.put, Memory.get?, eq_comm]
  | cons c m ih =>
    obtain ⟨k, c⟩ := c
    unfold Memory.put
    split
    · simp only [Memory.get?, eq_comm (a := a)]
    · split
      · subst k; simp only [Memory.get?, eq_comm (a := a)]; split <;> rfl
      · simp only [Memory.get?, ih]
        by_cases hk : k = x
        · subst k; simp [Ne.symm ‹¬a = x›]
        · simp [hk]

/-- The entries after a byte store are the stored one and old ones. -/
theorem Memory.mem_put {m : Memory} {a : Nat} {b : Byte} {c : Host.Cell} (h : c ∈ Memory.put m a b) :
    c = (a, b) ∨ c ∈ m := by
  induction m with
  | nil => simpa [Memory.put] using h
  | cons d m ih =>
    obtain ⟨k, d⟩ := d
    unfold Memory.put at h
    split at h
    · simpa using h
    · split at h
      · rcases List.mem_cons.1 h with h | h
        · exact .inl h
        · exact .inr (List.mem_cons_of_mem _ h)
      · rcases List.mem_cons.1 h with h | h
        · exact .inr (h ▸ List.mem_cons_self)
        · exact (ih h).imp_right (List.mem_cons_of_mem _)

/-- A byte store keeps the canonical form. -/
theorem Memory.wf_put {m : Memory} (h : Memory.wf m) (a : Nat) (b : Byte) : Memory.wf (Memory.put m a b) := by
  induction m with
  | nil => simp [Memory.put]
  | cons d m ih =>
    obtain ⟨k, d⟩ := d
    obtain ⟨h1, h2⟩ := List.pairwise_cons.1 h
    unfold Memory.put
    split
    · refine List.pairwise_cons.2 ⟨fun c hc => ?_, h⟩
      rcases List.mem_cons.1 hc with rfl | hc
      · assumption
      · exact lt_trans ‹_› (h1 c hc)
    · split
      · subst k; exact List.pairwise_cons.2 ⟨h1, h2⟩
      · refine List.pairwise_cons.2 ⟨fun c hc => ?_, ih h2⟩
        rcases Memory.mem_put hc with rfl | hc
        · show k < a; omega
        · exact h1 c hc

/-! ## Words -/

/-- A word is made of its four bytes (R71). -/
@[simp] theorem wordOfBytes_byteOfWord (v : Word) :
    wordOfBytes (byteOfWord v 0) (byteOfWord v 1) (byteOfWord v 2) (byteOfWord v 3) = v := by
  unfold wordOfBytes byteOfWord
  refine BitVec.eq_of_getLsbD_eq fun i hi => ?_
  simp only [BitVec.getLsbD_append, BitVec.getLsbD_extractLsb']
  split
  · simp [*]
  · split
    · rw [show 8 * 1 + (i - 8) = i from by omega]; simp [*]
    · split
      · rw [show 8 * 2 + (i - 8 - 8) = i from by omega]; simp [*]
      · rw [show 8 * 3 + (i - 8 - 8 - 8) = i from by omega]
        simp [show i - 8 - 8 - 8 < 8 from by omega]

/-- A byte after a word store. -/
theorem Memory.get?_putWord (m : Memory) (a x : Nat) (v : Word) :
    Memory.get? (Memory.putWord m a v) x =
      if a ≤ x ∧ x < a + 4 then some (byteOfWord v (x - a)) else Memory.get? m x := by
  unfold Memory.putWord
  simp only [Memory.get?_put]
  by_cases h : a ≤ x ∧ x < a + 4
  · obtain rfl | rfl | rfl | rfl : x = a ∨ x = a + 1 ∨ x = a + 2 ∨ x = a + 3 := by omega
    all_goals simp
  · have h0 : x ≠ a := by omega
    have h1 : x ≠ a + 1 := by omega
    have h2 : x ≠ a + 2 := by omega
    have h3 : x ≠ a + 3 := by omega
    simp [h, h0, h1, h2, h3]

/-- A word store keeps the canonical form. -/
theorem Memory.wf_putWord {m : Memory} (h : Memory.wf m) (a : Nat) (v : Word) :
    Memory.wf (Memory.putWord m a v) :=
  Memory.wf_put (Memory.wf_put (Memory.wf_put (Memory.wf_put h _ _) _ _) _ _) _ _

/-- The entries after a word store lie in the word or are old ones. -/
theorem Memory.mem_putWord {m : Memory} {a : Nat} {v : Word} {c : Host.Cell}
    (h : c ∈ Memory.putWord m a v) : (a ≤ c.1 ∧ c.1 < a + 4) ∨ c ∈ m := by
  unfold Memory.putWord at h
  rcases Memory.mem_put h with rfl | h
  · exact .inl ⟨by simp, by simp⟩
  rcases Memory.mem_put h with rfl | h
  · exact .inl ⟨by simp, by simp⟩
  rcases Memory.mem_put h with rfl | h
  · exact .inl ⟨by simp, by simp⟩
  rcases Memory.mem_put h with rfl | h
  · exact .inl ⟨by simp, by simp⟩
  · exact .inr h

/-- A byte outside a stored list of words is left alone. -/
theorem Memory.get?_putWords_outside (vs : List Word) (m : Memory) (a x : Nat)
    (h : x < a ∨ a + 4 * vs.length ≤ x) : Memory.get? (Memory.putWords m a vs) x = Memory.get? m x := by
  induction vs generalizing m a with
  | nil => rfl
  | cons v vs ih =>
    rw [List.length_cons] at h
    rw [Memory.putWords, ih _ _ (by omega), Memory.get?_putWord, if_neg (by omega)]

/-- Byte `j` of word `i` of a stored list of words. -/
theorem Memory.get?_putWords_inside (vs : List Word) (m : Memory) (a i j : Nat) (hi : i < vs.length)
    (hj : j < 4) : Memory.get? (Memory.putWords m a vs) (a + 4 * i + j) = some (byteOfWord vs[i] j) := by
  induction vs generalizing m a i with
  | nil => simp at hi
  | cons v vs ih =>
    rw [Memory.putWords]
    cases i with
    | zero =>
      rw [Memory.get?_putWords_outside _ _ _ _ (by omega), Memory.get?_putWord, if_pos (by omega)]
      simp
    | succ i =>
      have := ih (Memory.putWord m a v) (a + 4) i (by simpa using hi)
      rw [show a + 4 * (i + 1) + j = a + 4 + 4 * i + j from by omega, this]
      simp

/-- Storing a list of words keeps the canonical form. -/
theorem Memory.wf_putWords (vs : List Word) {m : Memory} (h : Memory.wf m) (a : Nat) :
    Memory.wf (Memory.putWords m a vs) := by
  induction vs generalizing m a with
  | nil => exact h
  | cons v vs ih => exact ih (Memory.wf_putWord h a v) (a + 4)

/-- The entries after storing a list of words lie in it or are old ones. -/
theorem Memory.mem_putWords (vs : List Word) {m : Memory} {a : Nat} {c : Host.Cell}
    (h : c ∈ Memory.putWords m a vs) : (a ≤ c.1 ∧ c.1 < a + 4 * vs.length) ∨ c ∈ m := by
  induction vs generalizing m a with
  | nil => exact .inr h
  | cons v vs ih =>
    rw [List.length_cons]
    rcases ih h with h | h
    · exact .inl (by omega)
    · exact (Memory.mem_putWord h).imp_left (by omega)

/-! ## Drawn words -/

@[simp] theorem drawnWords_length (n k : Nat) : (drawnWords n k).length = k := by simp [drawnWords]

/-- Drawing buffer words keeps the canonical form. -/
theorem Memory.wf_drawEach (l : List (Buf × Nat)) {m : Memory} (h : Memory.wf m) (n : Nat) :
    Memory.wf (Memory.drawEach m n l) := by
  induction l generalizing m n with
  | nil => exact h
  | cons p l ih => exact ih (Memory.wf_putWords _ h _) _

/-- The entries after drawing buffer words lie in the drawn words or are old ones. -/
theorem Memory.mem_drawEach (l : List (Buf × Nat)) {m : Memory} {n : Nat} {c : Host.Cell}
    (h : c ∈ Memory.drawEach m n l) :
    (∃ p ∈ l, p.1.addr 0 ≤ c.1 ∧ c.1 < p.1.addr 0 + 4 * p.2) ∨ c ∈ m := by
  induction l generalizing m n with
  | nil => exact .inr h
  | cons p l ih =>
    rcases ih h with ⟨q, hq, h⟩ | h
    · exact .inl ⟨q, List.mem_cons_of_mem _ hq, h⟩
    · rcases Memory.mem_putWords _ h with h | h
      · exact .inl ⟨p, List.mem_cons_self, by simpa using h⟩
      · exact .inr h

/-- A byte outside the drawn words is left alone. -/
theorem Memory.get?_drawEach_outside (l : List (Buf × Nat)) (m : Memory) (n x : Nat)
    (h : ∀ p ∈ l, x < p.1.addr 0 ∨ p.1.addr 0 + 4 * p.2 ≤ x) :
    Memory.get? (Memory.drawEach m n l) x = Memory.get? m x := by
  induction l generalizing m n with
  | nil => rfl
  | cons p l ih =>
    rw [Memory.drawEach, ih _ _ fun q hq => h q (List.mem_cons_of_mem _ hq),
      Memory.get?_putWords_outside _ _ _ _ (by simpa using h p List.mem_cons_self)]

/-! ## Bytes and words of the state -/

/-- A byte depends on the memory and the epoch only. -/
theorem State.readByte_congr {s t : State} {a : Nat} (h : Memory.get? s.mem a = Memory.get? t.mem a)
    (he : s.memEpoch = t.memEpoch) : s.readByte a = t.readByte a := by
  unfold State.readByte; rw [h, he]

/-- A buffer word depends on its four bytes only. -/
theorem State.bufRead_congr {s t : State} {b : Buf} {w : Nat}
    (h : ∀ j < 4, s.readByte (b.addr w + j) = t.readByte (b.addr w + j)) :
    s.bufRead b w = t.bufRead b w := by
  unfold State.bufRead State.readWord
  rw [h 1 (by omega), h 2 (by omega), h 3 (by omega)]
  have := h 0 (by omega)
  simp only [Nat.add_zero] at this
  rw [this]

/-- The stored words read back (R77). -/
theorem State.bufRead_bufFill_inside (s : State) (b : Buf) (vs : List Word) (i : Nat) (h : i < vs.length) :
    (s.bufFill b vs).bufRead b i = vs[i] := by
  have hb : ∀ j < 4, (s.bufFill b vs).readByte (b.addr i + j) = byteOfWord vs[i] j := fun j hj => by
    unfold State.readByte
    rw [State.bufFill_mem, show b.addr i + j = b.addr 0 + 4 * i + j from by unfold Buf.addr; omega,
      Memory.get?_putWords_inside vs s.mem _ i j h hj]
  unfold State.bufRead State.readWord
  have h0 := hb 0 (by omega)
  simp only [Nat.add_zero] at h0
  rw [h0, hb 1 (by omega), hb 2 (by omega), hb 3 (by omega), wordOfBytes_byteOfWord]

/-- Bytes outside the stored words are left alone. -/
theorem State.readByte_bufFill_outside (s : State) (b : Buf) (vs : List Word) (x : Nat)
    (h : x < b.addr 0 ∨ b.addr 0 + 4 * vs.length ≤ x) : (s.bufFill b vs).readByte x = s.readByte x :=
  State.readByte_congr (Memory.get?_putWords_outside vs s.mem _ x h) rfl

/-- Words of the same buffer above the stored ones are left alone. -/
theorem State.bufRead_bufFill_above (s : State) (b : Buf) (vs : List Word) (i : Nat) (h : vs.length ≤ i) :
    (s.bufFill b vs).bufRead b i = s.bufRead b i :=
  State.bufRead_congr fun j _ =>
    State.readByte_bufFill_outside _ _ _ _ (.inr (by unfold Buf.addr; omega))

/-- The window of a buffer has room for 2^26 words, and the windows do not meet (R74). -/
theorem Buf.base_apart {b c : Buf} (h : b ≠ c) : b.base + 2 ^ 28 ≤ c.base ∨ c.base + 2 ^ 28 ≤ b.base := by
  cases b <;> cases c <;> first | exact absurd rfl h | (left; decide) | (right; decide)

/-- Words of another buffer are left alone. -/
theorem State.bufRead_bufFill_other (s : State) {b c : Buf} (hbc : c ≠ b) (vs : List Word) (i : Nat)
    (hv : vs.length ≤ 2 ^ 26) (hi : i < 2 ^ 26) : (s.bufFill b vs).bufRead c i = s.bufRead c i :=
  State.bufRead_congr fun j _ => by
    have := Buf.base_apart hbc
    exact State.readByte_bufFill_outside _ _ _ _ (by unfold Buf.addr; omega)

@[simp] theorem State.readByte_setReg (s : State) (d : DataReg) (v : Word) (a : Nat) :
    (s.setReg d v).readByte a = s.readByte a := rfl

@[simp] theorem State.readByte_setRegNat (s : State) (d : DataReg) (n a : Nat) :
    (s.setRegNat d n).readByte a = s.readByte a := rfl

@[simp] theorem State.readByte_finish (s : State) (c : ErrCode) (a : Nat) :
    (s.finish c).readByte a = s.readByte a := rfl

@[simp] theorem State.bufRead_setReg (s : State) (d : DataReg) (v : Word) (b : Buf) (w : Nat) :
    (s.setReg d v).bufRead b w = s.bufRead b w := rfl

@[simp] theorem State.bufRead_setRegNat (s : State) (d : DataReg) (n : Nat) (b : Buf) (w : Nat) :
    (s.setRegNat d n).bufRead b w = s.bufRead b w := rfl

@[simp] theorem State.bufRead_finish (s : State) (c : ErrCode) (b : Buf) (w : Nat) :
    (s.finish c).bufRead b w = s.bufRead b w := rfl

/-- One word stored through the bus reads back (R76). -/
theorem State.bufRead_bufWrite (s : State) (b : Buf) (w : Nat) (v : Word) :
    (s.bufWrite b w v).bufRead b w = v := by
  have hb : ∀ j < 4, (s.bufWrite b w v).readByte (b.addr w + j) = byteOfWord v j := fun j hj => by
    unfold State.readByte
    rw [State.bufWrite_mem, Memory.get?_putWord, if_pos (by omega)]
    simp
  unfold State.bufRead State.readWord
  have h0 := hb 0 (by omega)
  simp only [Nat.add_zero] at h0
  rw [h0, hb 1 (by omega), hb 2 (by omega), hb 3 (by omega), wordOfBytes_byteOfWord]

/-- Bytes outside a stored word are left alone. -/
theorem State.readByte_bufWrite_outside (s : State) (b : Buf) (w : Nat) (v : Word) (x : Nat)
    (h : x < b.addr w ∨ b.addr w + 4 ≤ x) : (s.bufWrite b w v).readByte x = s.readByte x :=
  State.readByte_congr (by rw [State.bufWrite_mem, Memory.get?_putWord, if_neg (by omega)]) rfl

end Sys2Proof.Machine
end

