-- ==== Sys2Proof/Laws/Stream.lean ====
section
/-! SUPPORT. The bit stream of an encoder: emission under the capacity, and the packing into BITS words
(R82, R165). -/

namespace Sys2Proof.Machine

/-! ## Emission -/

/-- `emit_bit` succeeds exactly while there is room. -/
theorem emitBit_eq (cap : Nat) (S : Stream) (b : Bool) (h : S.len ≤ cap) :
    emitBit cap S b = if S.len + 1 ≤ cap then .ok ⟨b :: S.newest, S.len + 1⟩ else .error .capacity := by
  unfold emitBit
  by_cases hc : S.len = cap
  · rw [if_pos hc, if_neg (by omega)]
  · rw [if_neg hc, if_pos (by omega)]

/-- Emitting a list of bits appends it, if it fits. -/
theorem emitBits_eq (cap : Nat) (bs : List Bool) (S : Stream) (h : S.len ≤ cap) :
    emitBits cap S bs =
      if S.len + bs.length ≤ cap then .ok ⟨bs.reverse ++ S.newest, S.len + bs.length⟩
      else .error .capacity := by
  induction bs generalizing S with
  | nil => simp [emitBits, h]
  | cons b bs ih =>
    rw [emitBits, emitBit_eq cap S b h]
    by_cases hc : S.len + 1 ≤ cap
    · simp only [if_pos hc]
      rw [ih _ hc]
      simp [Nat.add_assoc, Nat.add_comm 1]
    · simp only [if_neg hc]
      rw [if_neg (by simp; omega)]

/-- Emitting the codes of the pixels appends them, if they fit (R166). -/
theorem emitCodes_eq (cap : Nat) (C : List (Word × List Bool)) (P : List Word) (S : Stream)
    (h : S.len ≤ cap) :
    emitCodes cap C S P =
      if S.len + (codeBits C P).length ≤ cap then
        .ok ⟨(codeBits C P).reverse ++ S.newest, S.len + (codeBits C P).length⟩
      else .error .capacity := by
  induction P generalizing S with
  | nil => simp [emitCodes, codeBits, h]
  | cons w P ih =>
    rw [emitCodes, emitBits_eq cap _ S h]
    have hb : codeBits C (w :: P) = codeOf C w ++ codeBits C P := rfl
    by_cases hc : S.len + (codeOf C w).length ≤ cap
    · simp only [if_pos hc]
      rw [ih _ hc, hb]
      simp [Nat.add_assoc]
    · simp only [if_neg hc]
      rw [if_neg (by rw [hb]; simp; omega)]

/-! ## Packing -/

theorem natOfBits_testBit (bs : List Bool) (i : Nat) : (natOfBits bs).testBit i = bs.getD i false := by
  induction bs generalizing i with
  | nil => simp [natOfBits]
  | cons b bs ih =>
    cases i with
    | zero => cases b <;> simp [natOfBits, Nat.testBit_zero]
    | succ i =>
      rw [Nat.testBit_succ, show natOfBits (b :: bs) / 2 = natOfBits bs from by
        have := Bool.toNat_lt b
        rw [natOfBits]; omega, ih]
      simp

@[simp] theorem packBits_length (S : List Bool) : (packBits S).length = (S.length + 31) / 32 := by
  simp [packBits]

/-- Bit `j` of packed word `w` is stream bit `32w + j`, or 0 above the stream (R82). -/
theorem packBits_getLsbD (S : List Bool) (w j : Nat) (hw : w < (packBits S).length) (hj : j < 32) :
    ((packBits S)[w]).getLsbD j = S.getD (32 * w + j) false := by
  simp only [packBits, List.getElem_map, List.getElem_range, BitVec.getLsbD_ofNat, hj, decide_true,
    Bool.true_and]
  rw [natOfBits_testBit]
  simp [List.getD_eq_getElem?_getD, hj]

/-- Stream bit `i` of the stored stream (R82, R165). -/
theorem State.bit_writeBits (s : State) (S : List Bool) (i : Nat) (h : i < 32 * ((S.length + 31) / 32)) :
    (s.writeBits S).bit i = S.getD i false := by
  have hw : i / 32 < (packBits S).length := by rw [packBits_length]; omega
  unfold State.bit State.writeBits
  rw [State.bufRead_setRegNat, State.bufRead_bufFill_inside _ _ _ _ hw, packBits_getLsbD S _ _ hw (by omega)]
  congr 1; omega

end Sys2Proof.Machine
end

