-- ==== Sys2Proof/Laws/Arithmetic.lean ====
section
/-! SUPPORT. The cumulative table (R191), the renormalization loop of the arithmetic encoder (R194, R198) and the
encoder's stream: every pass but the last emits a bit, so the stream's room bounds the passes. -/

namespace Sys2Proof.Machine

/-! ## Emission keeps the stream within its capacity -/

/-- What a successful `emit_bit` did. -/
theorem emitBit_ok {cap : Nat} {S S' : Stream} {b : Bool} (h : emitBit cap S b = .ok S') (hS : S.len ≤ cap) :
    S' = ⟨b :: S.newest, S.len + 1⟩ ∧ S.len + 1 ≤ cap := by
  rw [emitBit_eq cap S b hS] at h
  split at h
  · cases h; exact ⟨rfl, ‹_›⟩
  · cases h

/-- `emit_bit` fails only with CAPACITY. -/
theorem emitBit_error {cap : Nat} {S : Stream} {b : Bool} {c : ErrCode} (h : emitBit cap S b = .error c) :
    c = .capacity := by
  unfold emitBit at h
  split at h <;> cases h
  rfl

/-! ## The renormalization loop -/

/-- With more passes than the stream has room for, one more pass changes nothing. -/
theorem renormalizeIn_passes (cap : Nat) (k : Nat) (iv : Interval) (S : Stream) (hS : S.len ≤ cap)
    (hk : cap - S.len < k) : renormalizeIn cap k iv S = renormalizeIn cap (cap - S.len + 1) iv S := by
  induction k generalizing iv S with
  | zero => omega
  | succ k ih =>
    rw [renormalizeIn, renormalizeIn, emitBit_eq cap S _ hS, emitBit_eq cap S _ hS]
    by_cases h : S.len + 1 ≤ cap
    · simp only [if_pos h]
      rw [ih _ _ h (by simp only; omega), ih _ _ h (by simp only; omega),
        show cap - S.len = cap - (S.len + 1) + 1 from by omega]
    · simp only [if_neg h]

/-- `renormalize()` pass by pass (R194). -/
theorem renormalize_unfold (cap : Nat) (iv : Interval) (S : Stream) (hS : S.len ≤ cap) :
    renormalize cap iv S =
      if iv.high.le .half then
        match emitBit cap S false with
        | .error c => .error c
        | .ok S' => renormalize cap (scaleLow iv) S'
      else if F64.half.le iv.low then
        match emitBit cap S true with
        | .error c => .error c
        | .ok S' => renormalize cap (scaleHigh iv) S'
      else .ok (iv, S) := by
  rw [renormalize, renormalizeIn, emitBit_eq cap S _ hS, emitBit_eq cap S _ hS]
  by_cases h : S.len + 1 ≤ cap
  · simp only [if_pos h, renormalize]
    rw [show cap - S.len = cap - (S.len + 1) + 1 from by omega]
  · simp only [if_neg h]

/-- An interval property that both rescalings keep while they apply holds at the end of the loop; the loop ends
with neither test true, and it only adds bits (R194, R198). -/
theorem renormalizeIn_ok {cap : Nat} (p : Interval → Prop)
    (hlow : ∀ iv, p iv → iv.high.le .half = true → p (scaleLow iv))
    (hhigh : ∀ iv, p iv → F64.half.le iv.low = true → p (scaleHigh iv))
    (k : Nat) {iv : Interval} {S : Stream} {r : Interval × Stream} (hp : p iv) (hS : S.len ≤ cap)
    (h : renormalizeIn cap k iv S = .ok r) :
    p r.1 ∧ r.1.high.le .half = false ∧ F64.half.le r.1.low = false ∧ r.2.len ≤ cap ∧
      ∃ bs, r.2.newest = bs ++ S.newest ∧ r.2.len = bs.length + S.len := by
  induction k generalizing iv S with
  | zero => cases h
  | succ k ih =>
    unfold renormalizeIn at h
    split at h
    · split at h
      · cases h
      · rename_i hh _ S' hS'
        obtain ⟨rfl, hc⟩ := emitBit_ok hS' hS
        obtain ⟨h1, h2, h3, h4, bs, h5, h6⟩ := ih (hlow _ hp hh) hc h
        exact ⟨h1, h2, h3, h4, bs ++ [false], by simp [h5], by simp [h6]; omega⟩
    · split at h
      · split at h
        · cases h
        · rename_i hh _ S' hS'
          obtain ⟨rfl, hc⟩ := emitBit_ok hS' hS
          obtain ⟨h1, h2, h3, h4, bs, h5, h6⟩ := ih (hhigh _ hp hh) hc h
          exact ⟨h1, h2, h3, h4, bs ++ [true], by simp [h5], by simp [h6]; omega⟩
      · cases h
        exact ⟨hp, by simp_all, by simp_all, hS, [], rfl, by simp⟩

/-- The loop fails only with CAPACITY. -/
theorem renormalizeIn_error {cap k : Nat} {iv : Interval} {S : Stream} {c : ErrCode}
    (h : renormalizeIn cap k iv S = .error c) : c = .capacity := by
  induction k generalizing iv S with
  | zero => cases h; rfl
  | succ k ih =>
    unfold renormalizeIn at h
    split at h
    · split at h
      · cases h; exact emitBit_error ‹_›
      · exact ih h
    · split at h
      · split at h
        · cases h; exact emitBit_error ‹_›
        · exact ih h
      · cases h

/-! ## The cumulative table -/

theorem cumFrom_pix (tot c : Nat) (O : List FreqEntry) :
    (cumFrom tot c O).map CumEntry.pix = O.map FreqEntry.pix := by
  induction O generalizing c with
  | nil => rfl
  | cons e O ih => simp [cumFrom, ih]

/-- The cumulative table has the symbols of its table (R191). -/
theorem cumTable_pix (T : List FreqEntry) : ((cumTable T).map CumEntry.pix).Perm (T.map FreqEntry.pix) := by
  unfold cumTable
  rw [cumFrom_pix]
  exact (stableSort_perm _ T).map _

/-- Where every symbol has one entry, a symbol's bounds are those of its entry (R195). -/
theorem boundsOf_eq {CT : List CumEntry} (hn : (CT.map CumEntry.pix).Nodup) {e : CumEntry} (he : e ∈ CT) :
    boundsOf CT e.pix = (e.cl, e.ch) := by
  have hfind : CT.find? (fun f => f.pix == e.pix) = some e := by
    cases hf : CT.find? (fun f => f.pix == e.pix) with
    | none => exact absurd (List.find?_eq_none.1 hf e he) (by simp)
    | some f =>
      have hfe : f.pix = e.pix := by simpa using List.find?_some hf
      rw [List.inj_on_of_nodup_map hn (List.mem_of_find?_eq_some hf) he hfe]
  rw [boundsOf, hfind]

/-! ## The encoder's loop over the pixels -/

/-- An interval property that narrowing and both rescalings keep holds at the end of the encoder's loop, which
only adds bits, within the capacity. -/
theorem ariEncodeFrom_ok {cap : Nat} {CT : List CumEntry} (p : Interval → Prop)
    (hn : ∀ iv w, p iv → p (narrow iv (boundsOf CT w).1 (boundsOf CT w).2))
    (hlow : ∀ iv, p iv → iv.high.le .half = true → p (scaleLow iv))
    (hhigh : ∀ iv, p iv → F64.half.le iv.low = true → p (scaleHigh iv))
    (P : List Word) {iv : Interval} {S : Stream} {r : Interval × Stream} (hp : p iv) (hS : S.len ≤ cap)
    (hw : S.len = S.newest.length) (h : ariEncodeFrom cap CT iv S P = .ok r) :
    p r.1 ∧ r.2.len ≤ cap ∧ r.2.len = r.2.newest.length ∧
      (P ≠ [] → r.1.high.le .half = false ∧ F64.half.le r.1.low = false) := by
  induction P generalizing iv S with
  | nil => cases h; exact ⟨hp, hS, hw, fun h => absurd rfl h⟩
  | cons w P ih =>
    unfold ariEncodeFrom at h
    split at h
    · cases h
    · rename_i r' hr
      obtain ⟨h1, h2, h3, h4, bs, h5, h6⟩ := renormalizeIn_ok p hlow hhigh _ (hn iv w hp) hS hr
      obtain ⟨k1, k2, k3, k4⟩ := ih h1 h4 (by rw [h5, h6, hw]; simp) h
      refine ⟨k1, k2, k3, fun _ => ?_⟩
      cases P with
      | nil => cases h; exact ⟨h2, h3⟩
      | cons => exact k4 (by simp)

/-- The encoder's loop fails only with CAPACITY. -/
theorem ariEncodeFrom_error {cap : Nat} {CT : List CumEntry} {P : List Word} {iv : Interval} {S : Stream}
    {c : ErrCode} (h : ariEncodeFrom cap CT iv S P = .error c) : c = .capacity := by
  induction P generalizing iv S with
  | nil => cases h
  | cons w P ih =>
    unfold ariEncodeFrom at h
    split at h
    · cases h; exact renormalizeIn_error ‹_›
    · exact ih h

/-- A successful ARI_ENC's stream fits BITS_CAP, and its count is its length. -/
theorem ariEncode_ok {cap : Nat} {T : List FreqEntry} {P : List Word} {S : Stream}
    (h : ariEncode cap T P = .ok S) : S.len ≤ cap ∧ S.bits.length = S.len := by
  unfold ariEncode at h
  split at h
  · cases h
  · rename_i r hr
    obtain ⟨-, h2, h3, -⟩ := ariEncodeFrom_ok (fun _ => True) (fun _ _ _ => trivial) (fun _ _ _ => trivial)
      (fun _ _ _ => trivial) P trivial (Nat.zero_le _) rfl hr
    obtain ⟨rfl, hc⟩ := emitBit_ok h h2
    exact ⟨hc, by simp [Stream.bits, h3]⟩

/-- ARI_ENC's stream fails only with CAPACITY. -/
theorem ariEncode_error {cap : Nat} {T : List FreqEntry} {P : List Word} {c : ErrCode}
    (h : ariEncode cap T P = .error c) : c = .capacity := by
  unfold ariEncode at h
  split at h
  · cases h; exact ariEncodeFrom_error ‹_›
  · exact emitBit_error h

end Sys2Proof.Machine
end

