-- ==== Sys2Proof/Laws/Binary64.lean ====
section
/-! SUPPORT. The rounding of Machine/Binary64.lean against the description of R52: the nearest magnitude, ties
to the even significand. -/

namespace Sys2Proof.Machine

/-- `roundDiv` is a nearest whole number: twice its error is at most one, and only an even number has that
error. -/
theorem roundDiv_error (num : Nat) {den : Nat} (hd : 0 < den) :
    |2 * ((roundDiv num den * den : Int) - num)| ≤ den ∧
      (|2 * ((roundDiv num den * den : Int) - num)| = den → roundDiv num den % 2 = 0) := by
  have hlt := Nat.mod_lt num hd
  have hc : (num : Int) = (num / den : Nat) * den + (num % den : Nat) := by
    rw [← Nat.cast_mul, ← Nat.cast_add, Nat.mul_comm, Nat.div_add_mod]
  generalize hq : num / den = q at *
  generalize hr : num % den = r at *
  unfold roundDiv
  rw [hc, hq, hr]
  split
  · rw [show (2 * ((q * den : Int) - (q * den + r))) = -(2 * r) by ring, abs_neg, abs_of_nonneg (by omega)]
    exact ⟨by omega, by omega⟩
  · split
    · rw [show (2 * (((q + 1 : Nat) * den : Int) - (q * den + r))) = 2 * (den - r) by push_cast; ring,
        abs_of_nonneg (by omega)]
      exact ⟨by omega, by omega⟩
    · have h2 : 2 * r = den := by omega
      refine ⟨?_, fun _ => by omega⟩
      rw [show (2 * (((q + q % 2 : Nat) * den : Int) - (q * den + r))) = (2 * (q % 2 : Nat) - 1) * den by
        push_cast [← h2]; ring, abs_mul]
      rcases Nat.mod_two_eq_zero_or_one q with h | h <;> simp [h]

/-- A nearest whole number is at least as near as any other, and a tie is with an even one. -/
theorem roundDiv_nearest (num : Nat) {den : Nat} (hd : 0 < den) (j : Nat) :
    |(roundDiv num den * den : Int) - num| ≤ |(j * den : Int) - num| ∧
      (|(roundDiv num den * den : Int) - num| = |(j * den : Int) - num| → j ≠ roundDiv num den →
        roundDiv num den % 2 = 0) := by
  obtain ⟨h1, h2⟩ := roundDiv_error num hd
  generalize roundDiv num den = r at *
  rw [abs_mul, abs_two] at h1 h2
  rcases eq_or_ne j r with rfl | hj
  · exact ⟨le_refl _, fun _ h => absurd rfl h⟩
  · have h3 : (den : Int) ≤ |(j * den : Int) - r * den| := by
      rw [← sub_mul, abs_mul, Nat.abs_cast]
      exact le_mul_of_one_le_left (by omega) (Int.one_le_abs (by omega))
    have h4 := abs_sub_le (j * den : Int) num (r * den)
    rw [abs_sub_comm (num : Int)] at h4
    exact ⟨by omega, fun h _ => h2 (by omega)⟩

/-- `r * 2^e` with a significand of at most 2^53 is representable. -/
theorem representable_of_le {r e : Nat} (h : r ≤ 2 ^ 53) : representable (r * 2 ^ e) := by
  rcases Nat.lt_or_ge r (2 ^ 53) with h' | h'
  · exact ⟨r, e, h', rfl⟩
  · exact ⟨2 ^ 52, e + 1, by norm_num, by rw [show r = 2 ^ 53 by omega]; ring⟩

/-- `r * 2^e` with an even `r` in the range of a significand, or one above it, has an even significand. -/
theorem evenSignificand_of_le {r e : Nat} (h : r ≤ 2 ^ 53) (he : e = 0 ∨ 2 ^ 52 ≤ r) (h2 : r % 2 = 0) :
    evenSignificand (r * 2 ^ e) := by
  rcases Nat.lt_or_ge r (2 ^ 53) with h' | h'
  · exact ⟨r, e, h', he, rfl, h2⟩
  · exact ⟨2 ^ 52, e + 1, by norm_num, .inr (le_refl _), by rw [show r = 2 ^ 53 by omega]; ring, by norm_num⟩

/-- `roundUnits` rounds to nearest with ties to even (R52). -/
theorem roundUnits_nearestEven (num : Nat) {den : Nat} (hd : 0 < den) :
    NearestEven (roundUnits num den) num den := by
  -- the spacing `2 ^ e`, and where the significand lies
  obtain ⟨e, he⟩ : ∃ e, e = Nat.log2 (num / den) - 52 := ⟨_, rfl⟩
  have hD : 0 < den * 2 ^ e := by positivity
  have hq : num / (den * 2 ^ e) < 2 ^ 53 := by
    rw [← Nat.div_div_eq_div_mul, Nat.div_lt_iff_lt_mul (by positivity), ← pow_add]
    exact lt_of_lt_of_le Nat.lt_log2_self (Nat.pow_le_pow_right (by norm_num) (by omega))
  have hbig : e = 0 ∨ 2 ^ 52 * 2 ^ e ≤ num / den := by
    rcases Nat.eq_zero_or_pos e with h | h
    · exact .inl h
    · right
      rw [← pow_add, show 52 + e = Nat.log2 (num / den) by omega]
      exact Nat.log2_self_le (by rintro h0; simp [h0] at he; omega)
  have hr : roundDiv num (den * 2 ^ e) ≤ 2 ^ 53 := by
    unfold roundDiv; split
    · omega
    · split <;> omega
  have hlow : e = 0 ∨ 2 ^ 52 ≤ roundDiv num (den * 2 ^ e) := by
    refine hbig.imp_right fun h => ?_
    have : 2 ^ 52 ≤ num / (den * 2 ^ e) := by
      rw [← Nat.div_div_eq_div_mul, Nat.le_div_iff_mul_le (by positivity)]; exact h
    refine le_trans this ?_
    unfold roundDiv; split
    · exact le_refl _
    · split <;> omega
  have hm : roundUnits num den = roundDiv num (den * 2 ^ e) * 2 ^ e := by rw [he]; rfl
  rw [hm]
  have key (m' : Nat) (h' : representable m') :
      |((roundDiv num (den * 2 ^ e) * 2 ^ e : Nat) * den : Int) - num| ≤ |(m' * den : Int) - num| ∧
        (|((roundDiv num (den * 2 ^ e) * 2 ^ e : Nat) * den : Int) - num| = |(m' * den : Int) - num| →
          m' ≠ roundDiv num (den * 2 ^ e) * 2 ^ e → roundDiv num (den * 2 ^ e) % 2 = 0) := by
    have hmul (j : Nat) : ((j * 2 ^ e : Nat) * den : Int) = j * (den * 2 ^ e : Nat) := by push_cast; ring
    obtain ⟨k, f, hk, rfl⟩ := h'
    rw [hmul]
    rcases Nat.lt_or_ge f e with hf | hf
    · -- a finer magnitude lies below the least of the spacing, which lies below the exact value
      have h1 : k * 2 ^ f < 2 ^ 52 * 2 ^ e := by
        calc k * 2 ^ f < 2 ^ 53 * 2 ^ f := Nat.mul_lt_mul_of_pos_right hk (by positivity)
          _ = 2 ^ 52 * 2 ^ (f + 1) := by ring
          _ ≤ 2 ^ 52 * 2 ^ e := Nat.mul_le_mul_left _ (Nat.pow_le_pow_right (by norm_num) hf)
      have h2 : 2 ^ 52 * (den * 2 ^ e) ≤ num := by
        have := (Nat.le_div_iff_mul_le hd).1 (hbig.resolve_left (by omega))
        calc 2 ^ 52 * (den * 2 ^ e) = 2 ^ 52 * 2 ^ e * den := by ring
          _ ≤ num := this
      have h3 : k * 2 ^ f * den < 2 ^ 52 * (den * 2 ^ e) := by
        calc k * 2 ^ f * den < 2 ^ 52 * 2 ^ e * den := Nat.mul_lt_mul_of_pos_right h1 hd
          _ = 2 ^ 52 * (den * 2 ^ e) := by ring
      have h4 := (roundDiv_nearest num hD (2 ^ 52)).1
      have h5 : |((2 ^ 52 : Nat) * (den * 2 ^ e : Nat) : Int) - num| < |((k * 2 ^ f : Nat) * den : Int) - num| := by
        rw [← Nat.cast_mul, ← Nat.cast_mul, abs_of_nonpos (by omega), abs_of_nonpos (by omega)]
        omega
      exact ⟨by omega, fun h _ => by omega⟩
    · obtain ⟨g, rfl⟩ := Nat.exists_eq_add_of_le hf
      have hj : k * 2 ^ (e + g) = (k * 2 ^ g) * 2 ^ e := by ring
      rw [hj, hmul]
      obtain ⟨h1, h2⟩ := roundDiv_nearest num hD (k * 2 ^ g)
      exact ⟨h1, fun h hne => h2 h fun h => hne (by rw [h])⟩
  exact ⟨representable_of_le hr, fun m' h => (key m' h).1, fun m' h ht hne =>
    evenSignificand_of_le hr hlow ((key m' h).2 ht hne)⟩

/-- `F64.round` is the exact value, rounded. -/
theorem F64.round_roundsTo (neg : Bool) (num : Nat) {den : Nat} (hd : 0 < den) :
    RoundsTo (F64.round neg num den) neg num den :=
  ⟨_, roundUnits_nearestEven num hd, rfl⟩

/-! ## The operations on finite values -/

/-- An exact zero stays a zero of its sign. -/
@[simp] theorem F64.round_zero (neg : Bool) (den : Nat) : F64.round neg 0 den = .fin neg 0 := by
  have h : roundUnits 0 den = 0 := by unfold roundUnits roundDiv; simp
  unfold F64.round
  rw [h, if_pos (show 0 < unitsLimit by unfold unitsLimit; positivity)]

theorem fadd_fin (a b : Bool) (m n : Nat) : fadd (.fin a m) (.fin b n) =
    if a = b then F64.round a (m + n) 1
    else if m = n then .zero
    else if n < m then F64.round a (m - n) 1
    else F64.round b (n - m) 1 := rfl

theorem fsub_fin (a b : Bool) (m n : Nat) : fsub (.fin a m) (.fin b n) = fadd (.fin a m) (.fin (!b) n) := rfl

theorem fmul_fin (a b : Bool) (m n : Nat) : fmul (.fin a m) (.fin b n) = F64.round (a ^^ b) (m * n) unitsOne := rfl

theorem fdiv_fin (a b : Bool) (m : Nat) {n : Nat} (h : 0 < n) :
    fdiv (.fin a m) (.fin b n) = F64.round (a ^^ b) (m * unitsOne) n := by
  unfold fdiv; simp only [if_neg (show n ≠ 0 by omega)]

theorem unitsOne_pos : 0 < unitsOne := by unfold unitsOne; positivity

end Sys2Proof.Machine
end

