-- ==== Sys2Proof/Laws/Frequency.lean ====
section
/-! SUPPORT. What `freq_model` computes (R130, R133). -/

namespace Sys2Proof.Machine

theorem mem_firstSeen {P : List Word} {w : Word} : w ∈ firstSeen P ↔ w ∈ P := by
  induction P with
  | nil => simp [firstSeen]
  | cons x P ih => by_cases h : w = x <;> simp [firstSeen, ih, h]

theorem firstSeen_nodup (P : List Word) : (firstSeen P).Nodup := by
  induction P with
  | nil => simp [firstSeen]
  | cons x P ih => exact List.nodup_cons.2 ⟨by simp, ih.filter _⟩

/-- A further pixel is new exactly when it has not occurred. -/
theorem firstSeen_append_single (P : List Word) (w : Word) :
    firstSeen (P ++ [w]) = if w ∈ P then firstSeen P else firstSeen P ++ [w] := by
  induction P with
  | nil => simp [firstSeen]
  | cons x P ih =>
    rw [List.cons_append, firstSeen, ih, firstSeen]
    by_cases hw : w ∈ P
    · simp [hw]
    · by_cases hx : w = x
      · subst hx; simp [hw, List.filter_append]
      · simp [hw, hx, List.filter_append]

theorem firstSeen_append_length_le (P Q : List Word) : (firstSeen P).length ≤ (firstSeen (P ++ Q)).length := by
  induction Q using List.reverseRecOn with
  | nil => simp
  | append_singleton Q w ih =>
    rw [← List.append_assoc, firstSeen_append_single]
    split
    · exact ih
    · simp; omega

@[simp] theorem countTable_length (P : List Word) : (countTable P).length = (firstSeen P).length := by
  simp [countTable]

theorem countTable_pix (P : List Word) : (countTable P).map FreqEntry.pix = firstSeen P := by
  unfold countTable
  rw [List.map_map]
  exact List.map_id _

/-- One step of the scan: the table of `P` turns into the table of `P ++ [w]` (R130). -/
theorem countPixel_countTable (symCap : Nat) (P : List Word) (w : Word) (h : (firstSeen P).length ≤ symCap) :
    countPixel symCap w (countTable P) =
      if (firstSeen (P ++ [w])).length ≤ symCap then .ok (countTable (P ++ [w]))
      else .error .capacity := by
  have hany : (countTable P).any (fun e => e.pix == w) = decide (w ∈ P) := by
    rw [Bool.eq_iff_iff]
    simp only [countTable, List.any_map, List.any_eq_true, Function.comp, beq_iff_eq, decide_eq_true_eq,
      mem_firstSeen]
    exact ⟨fun ⟨x, hx, h⟩ => h ▸ hx, fun h => ⟨w, h, rfl⟩⟩
  unfold countPixel
  rw [hany]
  by_cases hw : w ∈ P
  · have hs : firstSeen (P ++ [w]) = firstSeen P := by rw [firstSeen_append_single, if_pos hw]
    rw [if_pos (by simpa using hw), hs, if_pos h]
    unfold countTable
    rw [hs, List.map_map]
    congr 1
    refine List.map_congr_left fun x _ => ?_
    by_cases hx : x = w
    · subst x; simp
    · have : w ≠ x := Ne.symm hx
      simp [hx, List.count_append, this]
  · have hs : firstSeen (P ++ [w]) = firstSeen P ++ [w] := by rw [firstSeen_append_single, if_neg hw]
    rw [if_neg (by simpa using hw), hs, countTable_length]
    by_cases hc : (firstSeen P).length = symCap
    · rw [if_pos hc, if_neg (by simp; omega)]
    · rw [if_neg hc, if_pos (by simp; omega)]
      unfold countTable
      rw [hs, List.map_append, List.map_singleton, List.count_append, List.count_eq_zero.2 hw]
      congr 2
      · refine List.map_congr_left fun x hx => ?_
        have : w ≠ x := fun h => hw (h ▸ mem_firstSeen.1 hx)
        simp [List.count_append, this]
      · simp

/-- The scan from the table of the pixels `P` over the pixels `Q` (R130). -/
theorem freqScanFrom_countTable (symCap : Nat) (Q P : List Word) (h : (firstSeen P).length ≤ symCap) :
    freqScanFrom symCap (countTable P) Q =
      if (firstSeen (P ++ Q)).length ≤ symCap then .ok (countTable (P ++ Q)) else .error .capacity := by
  induction Q generalizing P with
  | nil => simp [freqScanFrom, h]
  | cons w Q ih =>
    rw [freqScanFrom, countPixel_countTable symCap P w h]
    have happ : P ++ w :: Q = (P ++ [w]) ++ Q := by simp
    by_cases hw : (firstSeen (P ++ [w])).length ≤ symCap
    · simp only [if_pos hw]
      rw [ih _ hw, happ]
    · simp only [if_neg hw]
      have := firstSeen_append_length_le (P ++ [w]) Q
      rw [happ, if_neg (by omega)]

/-- The counts of a table sum to the number of pixels (R130). -/
theorem totalCount_countTable (P : List Word) :
    ((countTable P).map FreqEntry.cnt).sum = P.length := by
  have key : ∀ l : List Word, l.Nodup → (∀ x ∈ P, x ∈ l) → (l.map fun w => P.count w).sum = P.length := by
    induction P with
    | nil => simp
    | cons x P ih =>
      intro l hl hx
      have h1 := ih l hl fun y hy => hx y (List.mem_cons_of_mem _ hy)
      have h2 : (l.map fun w => (x :: P).count w).sum = (l.map fun w => P.count w).sum + l.count x := by
        clear *-
        induction l with
        | nil => simp
        | cons y l ih =>
          rw [List.map_cons, List.sum_cons, ih, List.map_cons, List.sum_cons, List.count_cons, List.count_cons]
          by_cases h : x = y
          · subst y; simp; omega
          · have : ¬ y = x := fun e => h e.symm
            simp [h, this]; omega
      rw [h2, h1, List.count_eq_one_of_mem hl (hx x List.mem_cons_self), List.length_cons]
  have := key (firstSeen P) (firstSeen_nodup P) fun x hx => mem_firstSeen.2 hx
  rw [countTable, List.map_map]
  exact this

end Sys2Proof.Machine
end

