-- ==== Sys2Proof/Laws/RunLength.lean ====
section
/-! SUPPORT. What run detection, run replay and the quantizer compute (R140, R143, R144, R150). -/

namespace Sys2Proof.Machine

/-! ## Run detection -/

/-- The runs with the current run `(cur, c)` and the pixels `P` to come, without a capacity. -/
def runsOf (cur : Word) (c : Nat) : List Word → List Run
  | [] => [⟨cur, c⟩]
  | w :: P => if w = cur then runsOf cur (c + 1) P else ⟨cur, c⟩ :: runsOf w 1 P

theorem runsOf_length_pos (cur : Word) (c : Nat) (P : List Word) : 1 ≤ (runsOf cur c P).length := by
  induction P generalizing cur c with
  | nil => simp [runsOf]
  | cons w P ih => unfold runsOf; split <;> simp [ih]

/-- The run detector is `runsOf` under its capacity (R140). -/
theorem runsFrom_eq (runCap : Nat) (P : List Word) (U : List Run) (cur : Word) (c : Nat)
    (h : U.length ≤ runCap) :
    runsFrom runCap U cur c P =
      if (U ++ runsOf cur c P).length ≤ runCap then .ok (U ++ runsOf cur c P) else .error .capacity := by
  induction P generalizing U cur c with
  | nil =>
    unfold runsFrom pushRun runsOf
    by_cases hc : U.length = runCap
    · rw [if_pos hc, if_neg (by simp; omega)]
    · rw [if_neg hc, if_pos (by simp; omega)]
  | cons w P ih =>
    unfold runsFrom runsOf
    by_cases hw : w = cur
    · rw [if_pos hw, if_pos hw, ih _ _ _ h]
    · rw [if_neg hw, if_neg hw, pushRun]
      by_cases hc : U.length = runCap
      · simp only [if_pos hc]
        have := runsOf_length_pos w 1 P
        rw [if_neg (by simp; omega)]
      · simp only [if_neg hc]
        rw [ih _ _ _ (by simp; omega)]
        simp

theorem expandRuns_runsOf (P : List Word) (cur : Word) (c : Nat) :
    expandRuns (runsOf cur c P) = List.replicate c cur ++ P := by
  induction P generalizing cur c with
  | nil => simp [runsOf, expandRuns]
  | cons w P ih =>
    unfold runsOf
    split
    · subst w; rw [ih, List.replicate_succ']; simp
    · have := ih w 1
      simp only [expandRuns, List.flatMap_cons] at this ⊢
      rw [this]; simp

theorem runsOf_head (P : List Word) (cur : Word) (c : Nat) :
    ∃ n U, runsOf cur c P = ⟨cur, n⟩ :: U := by
  induction P generalizing cur c with
  | nil => exact ⟨c, [], rfl⟩
  | cons w P ih =>
    unfold runsOf
    split
    · exact ih _ _
    · exact ⟨c, _, rfl⟩

theorem maximalRuns_runsOf (P : List Word) (cur : Word) (c : Nat) (h : 1 ≤ c) :
    maximalRuns (runsOf cur c P) := by
  induction P generalizing cur c with
  | nil => exact ⟨by simpa [runsOf] using h, by simp [runsOf]⟩
  | cons w P ih =>
    unfold runsOf
    split
    · exact ih _ _ (by omega)
    · rename_i hw
      obtain ⟨h1, h2⟩ := ih w 1 le_rfl
      obtain ⟨n, U, hU⟩ := runsOf_head P w 1
      refine ⟨fun u hu => ?_, ?_⟩
      · rcases List.mem_cons.1 hu with rfl | hu
        · exact h
        · exact h1 u hu
      · rw [hU] at h2 ⊢
        exact List.isChain_cons_cons.2 ⟨fun e => hw e.symm, h2⟩

/-- The maximal runs of a pixel sequence, without a capacity. -/
def runsOfPixels : List Word → List Run
  | [] => []
  | w :: P => runsOf w 1 P

theorem rleRuns_eq (runCap : Nat) (P : List Word) :
    rleRuns runCap P =
      if (runsOfPixels P).length ≤ runCap then .ok (runsOfPixels P) else .error .capacity := by
  cases P with
  | nil => simp [rleRuns, runsOfPixels]
  | cons w P => exact runsFrom_eq runCap P [] w 1 (Nat.zero_le _)

theorem expandRuns_runsOfPixels (P : List Word) : expandRuns (runsOfPixels P) = P := by
  cases P with
  | nil => rfl
  | cons w P => simpa [runsOfPixels] using expandRuns_runsOf P w 1

theorem maximalRuns_runsOfPixels (P : List Word) : maximalRuns (runsOfPixels P) := by
  cases P with
  | nil => exact ⟨by simp [runsOfPixels], .nil⟩
  | cons w P => exact maximalRuns_runsOf P w 1 le_rfl

/-- The counts of a run sequence sum to the length of what it stands for. -/
theorem expandRuns_length (U : List Run) : (expandRuns U).length = (U.map Run.cnt).sum := by
  simp [expandRuns, List.length_flatMap]

theorem cnt_le_expandRuns {U : List Run} {u : Run} (h : u ∈ U) : u.cnt ≤ (expandRuns U).length := by
  rw [expandRuns_length]
  exact List.le_sum_of_mem (List.mem_map_of_mem h)

/-! ## Run replay -/

/-- Replay gives the pixels that the runs stand for, cut off at the room (R150). -/
theorem replayRuns_eq_take (U : List Run) (room : Nat) : replayRuns room U = (expandRuns U).take room := by
  induction U generalizing room with
  | nil => simp [replayRuns, expandRuns]
  | cons u U ih =>
    unfold replayRuns
    split
    · subst room; simp
    · rw [ih, show expandRuns (u :: U) = List.replicate u.cnt u.pix ++ expandRuns U from rfl, List.take_append, List.take_replicate, List.length_replicate,
        Nat.min_comm]
      congr 1
      by_cases hc : u.cnt ≤ room
      · rw [Nat.min_eq_right hc]
      · rw [Nat.min_eq_left (by omega)]; simp [show room - u.cnt = 0 from by omega]

/-! ## The quantizer -/

theorem quant_lt (c : Nat) : quant c < 256 := by unfold quant; omega

/-- Quantizing twice is quantizing once (R144). -/
theorem quant_quant (c : Nat) : quant (quant c) = quant c := by unfold quant; omega

@[simp] theorem byteOfWord_bytes_zero (b3 b2 b1 b0 : Byte) : byteOfWord (b3 ++ b2 ++ b1 ++ b0) 0 = b0 := by
  unfold byteOfWord
  refine BitVec.eq_of_getLsbD_eq fun i hi => ?_
  rw [BitVec.getLsbD_extractLsb', BitVec.getLsbD_append, if_pos (by omega)]
  simp [hi]

@[simp] theorem byteOfWord_bytes_one (b3 b2 b1 b0 : Byte) : byteOfWord (b3 ++ b2 ++ b1 ++ b0) 1 = b1 := by
  unfold byteOfWord
  refine BitVec.eq_of_getLsbD_eq fun i hi => ?_
  rw [BitVec.getLsbD_extractLsb', BitVec.getLsbD_append, if_neg (by omega), BitVec.getLsbD_append,
    if_pos (by omega), show 8 * 1 + i - 8 = i from by omega]
  simp [hi]

@[simp] theorem byteOfWord_bytes_two (b3 b2 b1 b0 : Byte) : byteOfWord (b3 ++ b2 ++ b1 ++ b0) 2 = b2 := by
  unfold byteOfWord
  refine BitVec.eq_of_getLsbD_eq fun i hi => ?_
  rw [BitVec.getLsbD_extractLsb', BitVec.getLsbD_append, if_neg (by omega), BitVec.getLsbD_append,
    if_neg (by omega), BitVec.getLsbD_append, if_pos (by omega),
    show 8 * 2 + i - 8 - 8 = i from by omega]
  simp [hi]

@[simp] theorem byteOfWord_bytes_three (b3 b2 b1 b0 : Byte) :
    byteOfWord (b3 ++ b2 ++ b1 ++ b0) 3 = b3 := by
  unfold byteOfWord
  refine BitVec.eq_of_getLsbD_eq fun i hi => ?_
  rw [BitVec.getLsbD_extractLsb', BitVec.getLsbD_append, if_neg (by omega), BitVec.getLsbD_append,
    if_neg (by omega), BitVec.getLsbD_append, if_neg (by omega),
    show 8 * 3 + i - 8 - 8 - 8 = i from by omega]
  simp [hi]

/-- The quantized value of a channel fits its byte. -/
theorem toNat_ofNat_quant (c : Nat) : (BitVec.ofNat 8 (quant c)).toNat = quant c := by
  rw [BitVec.toNat_ofNat]; exact Nat.mod_eq_of_lt (quant_lt c)

theorem byteOfWord_qpix_red (w : Word) : byteOfWord (qpix w) 0 = BitVec.ofNat 8 (quant (byteOfWord w 0).toNat) :=
  byteOfWord_bytes_zero _ _ _ _

theorem byteOfWord_qpix_green (w : Word) :
    byteOfWord (qpix w) 1 = BitVec.ofNat 8 (quant (byteOfWord w 1).toNat) := byteOfWord_bytes_one _ _ _ _

theorem byteOfWord_qpix_blue (w : Word) : byteOfWord (qpix w) 2 = BitVec.ofNat 8 (quant (byteOfWord w 2).toNat) :=
  byteOfWord_bytes_two _ _ _ _

theorem byteOfWord_qpix_alpha (w : Word) : byteOfWord (qpix w) 3 = byteOfWord w 3 :=
  byteOfWord_bytes_three _ _ _ _

end Sys2Proof.Machine
end

