-- ==== Sys2Proof/Laws/Records.lean ====
section
/-! SUPPORT. The record views of the buffers read back what the write operations stored (R81 to R84, R132,
R142, R163), and every stored number fits its word. -/

namespace Sys2Proof.Machine

/-! ## Records of two and of four words -/

theorem length_flatMap_pair {α : Type} (f g : α → Word) (l : List α) :
    (l.flatMap (fun x => [f x, g x])).length = 2 * l.length := by
  induction l with
  | nil => rfl
  | cons x l ih => rw [List.flatMap_cons, List.length_append, ih]; simp; omega

theorem getElem?_flatMap_pair {α : Type} (f g : α → Word) (l : List α) (i : Nat) :
    (l.flatMap (fun x => [f x, g x]))[2 * i]? = l[i]?.map f ∧
    (l.flatMap (fun x => [f x, g x]))[2 * i + 1]? = l[i]?.map g := by
  induction l generalizing i with
  | nil => simp
  | cons x l ih =>
    cases i with
    | zero => simp
    | succ i =>
      have := ih i
      rw [List.flatMap_cons, show 2 * (i + 1) = 2 * i + 1 + 1 from by omega]
      simpa using this

@[simp] theorem freqWords_length (T : List FreqEntry) : (freqWords T).length = 2 * T.length :=
  length_flatMap_pair _ _ T

@[simp] theorem runWords_length (U : List Run) : (runWords U).length = 2 * U.length :=
  length_flatMap_pair _ _ U

@[simp] theorem treeWords_length (nodes : List HuffNode) : (nodes.flatMap nodeWords).length = 4 * nodes.length := by
  induction nodes with
  | nil => rfl
  | cons n l ih =>
    rw [List.flatMap_cons, List.length_append, ih]
    cases n <;> simp [nodeWords] <;> omega

/-- Word `j` of node `k` of a stored tree. -/
theorem treeWords_getElem? (nodes : List HuffNode) (k j : Nat) (hj : j < 4) :
    (nodes.flatMap nodeWords)[4 * k + j]? = nodes[k]?.bind (fun n => (nodeWords n)[j]?) := by
  induction nodes generalizing k with
  | nil => simp
  | cons n l ih =>
    have h4 : (nodeWords n).length = 4 := by cases n <;> rfl
    rw [List.flatMap_cons]
    cases k with
    | zero => rw [List.getElem?_append_left (by omega)]; simp
    | succ k =>
      rw [List.getElem?_append_right (by omega), h4, show 4 * (k + 1) + j - 4 = 4 * k + j from by omega, ih]
      simp

/-! ## Reading back -/

/-- FREQ and SYM_COUNT hold the table `T`. -/
theorem State.freqList_eq {t : State} {T : List FreqEntry} (hn : t.regNat .symCount = T.length)
    (hw : ∀ i (h : i < (freqWords T).length), t.bufRead .freq i = (freqWords T)[i])
    (hc : ∀ e ∈ T, e.cnt < 2 ^ 32) : t.freqList = T := by
  unfold State.freqList
  rw [hn]
  refine List.ext_getElem (by simp) fun e h1 h2 => ?_
  have hp := getElem?_flatMap_pair FreqEntry.pix (fun e => BitVec.ofNat 32 e.cnt) T e
  have h0 := hw (2 * e) (by simp; omega)
  have h1' := hw (2 * e + 1) (by simp; omega)
  have hlt := hc _ (List.getElem_mem h2)
  simp only [freqWords] at h0 h1'
  rw [List.getElem?_eq_getElem (by rw [length_flatMap_pair]; omega), List.getElem?_eq_getElem h2,
    List.getElem?_eq_getElem (by rw [length_flatMap_pair]; omega)] at hp
  simp only [Option.map_some, Option.some.injEq] at hp
  simp only [List.getElem_map, List.getElem_range, State.freqEntry, h0, h1', hp.1, hp.2]
  rw [BitVec.toNat_ofNat, Nat.mod_eq_of_lt hlt]

/-- RUNS and RUN_COUNT hold the runs `U`. -/
theorem State.runList_eq {t : State} {U : List Run} (hn : t.regNat .runCount = U.length)
    (hw : ∀ i (h : i < (runWords U).length), t.bufRead .runs i = (runWords U)[i])
    (hc : ∀ u ∈ U, u.cnt < 2 ^ 32) : t.runList = U := by
  unfold State.runList
  rw [hn]
  refine List.ext_getElem (by simp) fun e h1 h2 => ?_
  have hp := getElem?_flatMap_pair Run.pix (fun u => BitVec.ofNat 32 u.cnt) U e
  have h0 := hw (2 * e) (by simp; omega)
  have h1' := hw (2 * e + 1) (by simp; omega)
  have hlt := hc _ (List.getElem_mem h2)
  simp only [runWords] at h0 h1'
  rw [List.getElem?_eq_getElem (by rw [length_flatMap_pair]; omega), List.getElem?_eq_getElem h2,
    List.getElem?_eq_getElem (by rw [length_flatMap_pair]; omega)] at hp
  simp only [Option.map_some, Option.some.injEq] at hp
  simp only [List.getElem_map, List.getElem_range, State.run, h0, h1', hp.1, hp.2]
  rw [BitVec.toNat_ofNat, Nat.mod_eq_of_lt hlt]

/-- TREE holds the nodes. -/
theorem State.treeNode_eq {t : State} {nodes : List HuffNode}
    (hw : ∀ i (h : i < (nodes.flatMap nodeWords).length), t.bufRead .tree i = (nodes.flatMap nodeWords)[i])
    (k : Nat) (h : k < nodes.length) :
    [t.treeKind k, t.treeFreq k, t.treeA k, t.treeB k] = nodeWords nodes[k] := by
  have key : ∀ j < 4, some (t.bufRead .tree (4 * k + j)) = (nodeWords nodes[k])[j]? := fun j hj => by
    have hlt : 4 * k + j < (nodes.flatMap nodeWords).length := by rw [treeWords_length]; omega
    rw [hw _ hlt, ← List.getElem?_eq_getElem hlt, treeWords_getElem? nodes k j hj,
      List.getElem?_eq_getElem h]
    rfl
  have k0 := key 0 (by omega)
  have k1 := key 1 (by omega)
  have k2 := key 2 (by omega)
  have k3 := key 3 (by omega)
  unfold State.treeKind State.treeFreq State.treeA State.treeB
  cases hn : nodes[k] <;> simp_all [nodeWords]

/-- BITS and BIT_LEN hold the stream `S`. -/
theorem State.bitList_eq {t : State} {S : List Bool} (hn : t.regNat .bitLen = S.length)
    (hw : ∀ i (h : i < (packBits S).length), t.bufRead .bits i = (packBits S)[i]) : t.bitList = S := by
  unfold State.bitList
  rw [hn]
  refine List.ext_getElem (by simp) fun i h1 h2 => ?_
  have hp : i / 32 < (packBits S).length := by rw [packBits_length]; omega
  simp only [List.getElem_map, List.getElem_range, State.bit]
  rw [hw _ hp, packBits_getLsbD S _ _ hp (by omega), show 32 * (i / 32) + i % 32 = i from by omega]
  simp [h2]

/-! ## The sizes of what the commands store -/

@[simp] theorem State.pixIn_length (s : State) : s.pixIn.length = s.pixelCount := by simp [State.pixIn]

theorem firstSeen_length_le (P : List Word) : (firstSeen P).length ≤ P.length := by
  have := totalCount_countTable P
  rw [← countTable_length, ← this, ← List.length_map (f := FreqEntry.cnt)]
  refine List.length_le_sum_of_one_le _ fun n hn => ?_
  obtain ⟨e, he, rfl⟩ := List.mem_map.1 hn
  obtain ⟨w, hw, rfl⟩ := List.mem_map.1 he
  exact List.one_le_count_iff.2 (mem_firstSeen.1 hw)

theorem countTable_cnt_le {P : List Word} {e : FreqEntry} (h : e ∈ countTable P) : e.cnt ≤ P.length := by
  obtain ⟨w, _, rfl⟩ := List.mem_map.1 h
  exact List.count_le_length

end Sys2Proof.Machine
end

