-- ==== Sys2Proof/Laws/Completion.lean ====
section
/-! SUPPORT. What a completion can do (R236, R234, R108): the endings of the commands, their frames, and the
cases of each command. -/

namespace Sys2Proof.Machine

/-- How the command `i` ends on `s`. -/
def endingOf (i : Instr) (s : State) : Ending :=
  match i with
  | .freqScan => freqScanEnding s
  | .rleEnc => rleEncEnding s s.pixIn
  | .qrleEnc => rleEncEnding s (s.pixIn.map qpix)
  | .rleDec => rleDecEnding s
  | .hufEnc => hufEncEnding s
  | .hufDec => hufDecEnding s
  | .ariEnc => ariEncEnding s
  | .ariDec => ariDecEnding s

/-- Every meaning is a completion with its command's ending. -/
theorem exec_eq (i : Instr) (s : State) : exec i s = .next (s.complete (endingOf i s)) := by
  cases i <;> rfl

/-- The code that an ending records. -/
def Ending.code : Ending → ErrCode
  | .success _ => .noError
  | .checkError c => c
  | .runError c _ => c

/-- `t` is `s` but for the data registers and the memory. -/
def sameButData (s t : State) : Prop := t = { s with regs := t.regs, mem := t.mem }

theorem sameButData_refl (s : State) : sameButData s s := rfl

theorem sameButData_bufFill {s t : State} (h : sameButData s t) (b : Buf) (vs : List Word) :
    sameButData s (t.bufFill b vs) := by
  unfold sameButData at *; rw [h]; rfl

theorem sameButData_setRegNat {s t : State} (h : sameButData s t) (d : DataReg) (n : Nat) :
    sameButData s (t.setRegNat d n) := by
  unfold sameButData at *; rw [h]; rfl

theorem sameButData_writeOut (s : State) (l : List Word) : sameButData s (s.writeOut l) :=
  sameButData_setRegNat (sameButData_bufFill (sameButData_refl s) _ _) _ _

theorem sameButData_writeSizes {s t : State} (h : sameButData s t) (n : Nat) :
    sameButData s (t.writeSizes n) := sameButData_setRegNat (sameButData_setRegNat h _ _) _ _

theorem sameButData_writeFreq {s t : State} (h : sameButData s t) (T : List FreqEntry) :
    sameButData s (t.writeFreq T) := sameButData_setRegNat (sameButData_bufFill h _ _) _ _

theorem sameButData_writeRuns {s t : State} (h : sameButData s t) (U : List Run) :
    sameButData s (t.writeRuns U) := sameButData_setRegNat (sameButData_bufFill h _ _) _ _

theorem sameButData_writeBits {s t : State} (h : sameButData s t) (S : List Bool) :
    sameButData s (t.writeBits S) := sameButData_setRegNat (sameButData_bufFill h _ _) _ _

theorem sameButData_writeTree {s t : State} (h : sameButData s t) (nodes : List HuffNode) (root : Nat) :
    sameButData s (t.writeTree nodes root) :=
  sameButData_setRegNat (sameButData_setRegNat (sameButData_bufFill h _ _) _ _) _ _

/-- A successful command has changed data registers and memory only, before STATUS is written. -/
theorem endingOf_success {i : Instr} {s t : State} (h : endingOf i s = .success t) : sameButData s t := by
  cases i <;>
    simp only [endingOf, freqScanEnding, rleEncEnding, rleDecEnding, hufEncEnding, hufDecEnding, ariEncEnding,
      ariDecEnding] at h <;>
    repeat' split at h
  all_goals first
    | contradiction
    | (rw [← Ending.success.inj h]
       repeat with_reducible first
        | exact sameButData_refl s
        | exact sameButData_writeOut s _
        | apply sameButData_writeSizes
        | apply sameButData_writeBits
        | apply sameButData_writeTree
        | apply sameButData_writeRuns
        | apply sameButData_writeFreq)

/-- The completion step in general (R236). -/
theorem complete_completed (s : State) (e : Ending) (h : ∀ t, e = .success t → sameButData s t) :
    Completed s (s.complete e) e.code := by
  cases e with
  | success t =>
    have := h t rfl
    unfold sameButData at this
    rw [this]
    exact ⟨rfl, rfl, rfl, rfl, rfl, rfl, rfl, rfl, rfl, rfl⟩
  | checkError c => exact ⟨rfl, rfl, rfl, rfl, rfl, rfl, rfl, rfl, rfl, rfl⟩
  | runError c w => exact ⟨rfl, rfl, rfl, rfl, rfl, rfl, rfl, rfl, rfl, rfl⟩

/-- Every command's completion. -/
theorem exec_completed (i : Instr) (s : State) :
    Completed s (s.complete (endingOf i s)) (endingOf i s).code :=
  complete_completed s _ fun _ => endingOf_success

/-! ## Frames -/

theorem KeptOutside.refl (s : State) (regs : List DataReg) (bufs : List (Buf × Nat)) :
    KeptOutside s s regs bufs := ⟨fun _ _ => rfl, fun _ _ => rfl⟩

theorem KeptOutside.finish {s t : State} {regs bufs} (h : KeptOutside s t regs bufs) (c : ErrCode) :
    KeptOutside s (t.finish c) regs bufs := ⟨h.regs, h.bytes⟩

theorem KeptOutside.setRegNat {s t : State} {regs bufs} (h : KeptOutside s t regs bufs) {d : DataReg}
    (hd : d ∈ regs) (n : Nat) : KeptOutside s (t.setRegNat d n) regs bufs :=
  ⟨fun e he => by
    have : e ≠ d := fun h => he (h ▸ hd)
    rw [← h.regs e he]
    exact Regs.get_set_ne _ _ this, h.bytes⟩

theorem KeptOutside.bufFill {s t : State} {regs bufs} (h : KeptOutside s t regs bufs) {b : Buf} {n : Nat}
    (hb : (b, n) ∈ bufs) {vs : List Word} (hv : vs.length ≤ n) :
    KeptOutside s (t.bufFill b vs) regs bufs :=
  ⟨h.regs, fun a ha => by
    rw [← h.bytes a ha]
    have := ha _ hb
    simp only [] at this
    exact State.readByte_bufFill_outside _ _ _ _ (by simp only [Buf.addr]; omega)⟩

theorem KeptOutside.drawAll {s : State} {regs bufs} {w : WriteSet} (hr : ∀ d ∈ w.regs, d ∈ regs)
    (hb : ∀ p ∈ w.bufs, ∃ n, (p.1, n) ∈ bufs ∧ p.2 ≤ n) : KeptOutside s (s.drawAll w) regs bufs :=
  ⟨fun d hd => Regs.get_drawEach_of_notMem _ _ _ fun h => hd (hr d h), fun a ha => by
    refine State.readByte_congr (Memory.get?_drawEach_outside _ _ _ _ fun p hp => ?_) rfl
    obtain ⟨n, hn, hle⟩ := hb p hp
    have := ha _ hn
    simp only [Buf.addr] at *
    omega⟩

/-! ## What the checks establish -/

theorem checkInputPixels_eq_none {s : State} (h : s.checkInputPixels = none) :
    s.regNat .pixLen = 4 * s.pixelCount ∧ s.pixelCount ≤ s.caps.pixCap := by
  unfold State.checkInputPixels at h
  split at h
  · cases h
  · split at h
    · cases h
    · exact ⟨by simpa using ‹¬s.regNat .pixLen ≠ _›, by omega⟩

theorem checkInputPixels_of {s : State} (h1 : s.regNat .pixLen = 4 * s.pixelCount)
    (h2 : s.pixelCount ≤ s.caps.pixCap) : s.checkInputPixels = none := by
  unfold State.checkInputPixels
  rw [if_neg (by simpa using h1), if_neg (by omega)]

/-- The frequency model against the table's own length (R130). -/
theorem freqModel_table (symCap : Nat) (P : List Word) :
    freqModel symCap P =
      if (countTable P).length ≤ symCap then .ok (countTable P) else .error .capacity := by
  have := freqScanFrom_countTable symCap P [] (by simp [firstSeen])
  simpa [countTable, firstSeen, freqModel] using this

theorem replayRuns_length_le (room : Nat) (U : List Run) : (replayRuns room U).length ≤ room := by
  rw [replayRuns_eq_take]; simp

theorem hufDecodeFrom_length_le (s : State) (bits : List Bool) (room cur : Nat) :
    (hufDecodeFrom s room cur bits).length ≤ min room bits.length := by
  induction bits generalizing room cur with
  | nil => simp [hufDecodeFrom]
  | cons b bits ih =>
    unfold hufDecodeFrom
    split
    · simp
    · split
      · have := ih (room - 1) (s.regNat .root)
        simp only [List.length_cons]; omega
      · have := ih room (s.treeChild cur b)
        simp only [List.length_cons]; omega

@[simp] theorem State.bitList_length (s : State) : s.bitList.length = s.regNat .bitLen := by
  simp [State.bitList]

theorem hufDecoded_length_le (s : State) : (hufDecoded s).length ≤ s.pixelCount := by
  unfold hufDecoded
  split
  · simp
  · split
    · simp
    · exact le_trans (hufDecodeFrom_length_le _ _ _ _) (Nat.min_le_left _ _)

theorem ariDecodeFrom_length {CT : List CumEntry} {v : F64} {n : Nat} {iv : Interval} {out : List Word}
    (h : ariDecodeFrom CT v n iv = .ok out) : out.length = n := by
  induction n generalizing iv out with
  | zero => cases h; rfl
  | succ n ih =>
    unfold ariDecodeFrom at h
    split at h
    · cases h
    · split at h
      · cases h
      · cases h; simp [ih ‹_›]

theorem ariDecodeFrom_error {CT : List CumEntry} {v : F64} {n : Nat} {iv : Interval} {c : ErrCode}
    (h : ariDecodeFrom CT v n iv = .error c) : c = .symbolNotFound := by
  induction n generalizing iv with
  | zero => cases h
  | succ n ih =>
    unfold ariDecodeFrom at h
    split at h
    · cases h; rfl
    · split at h
      · cases h; exact ih ‹_›
      · cases h

end Sys2Proof.Machine
end

