-- ==== Sys2Proof/Laws/Decode.lean ====
section
/-! SUPPORT. The laws of the decoder and the encoder. -/

namespace Sys2Proof

/-- The units that OP selects, with their numbers (R102). -/
theorem unitOf_eq_some {n : Nat} {i : Instr} (h : unitOf n = some i) :
    (n = 1 ∧ i = .freqScan) ∨ (n = 2 ∧ i = .rleEnc) ∨ (n = 3 ∧ i = .rleDec) ∨ (n = 4 ∧ i = .hufEnc) ∨
    (n = 5 ∧ i = .hufDec) ∨ (n = 6 ∧ i = .ariEnc) ∨ (n = 7 ∧ i = .ariDec) := by
  unfold unitOf at h
  split at h <;> simp_all

/-- OP selects no unit exactly for 0x0 and from 0x8 on (R102, R104). -/
theorem unitOf_eq_none {n : Nat} : unitOf n = none ↔ n = 0 ∨ 8 ≤ n := by
  constructor
  · intro h
    unfold unitOf at h
    split at h <;> simp_all
    omega
  · rintro (rfl | h)
    · rfl
    · unfold unitOf
      split <;> first | omega | rfl

/-- A word is made of its fields (R101). -/
theorem toNat_fields (v : Word) :
    v.toNat = opField v + 16 * reservedLow v + 256 * (if quantizeBit v then 1 else 0)
      + 512 * reservedHigh v := by
  unfold opField reservedLow reservedHigh quantizeBit
  have : v.toNat / 256 % 2 = 0 ∨ v.toNat / 256 % 2 = 1 := by omega
  rcases this with h | h <;> simp [h] <;> omega

/-- Decoding a command's word gives the command. -/
theorem decode_encode (i : Instr) : decode (encode i) = .ok i := by cases i <;> decide

/-- A word that decodes to a command is the command's word: no other bit pattern is accepted (R107). -/
theorem eq_encode_of_decode {v : Word} {i : Instr} (h : decode v = .ok i) : v = encode i := by
  have hv := toNat_fields v
  unfold decode at h
  split at h
  · cases h
  · rename_i hr
    push Not at hr
    rw [hr.1, hr.2] at hv
    cases hu : unitOf (opField v) with
    | none => rw [hu] at h; cases h
    | some j =>
      rw [hu] at h
      apply BitVec.eq_of_toNat_eq
      cases hq : quantizeBit v <;> rw [hq] at h hv <;> simp only [] at h
      · obtain rfl : j = i := by simpa using h
        rw [hv]
        rcases unitOf_eq_some hu with ⟨h1, rfl⟩ | ⟨h1, rfl⟩ | ⟨h1, rfl⟩ | ⟨h1, rfl⟩ | ⟨h1, rfl⟩ | ⟨h1, rfl⟩ | ⟨h1, rfl⟩ <;>
          rw [h1] <;> decide
      · by_cases h2 : opField v = 2
        · obtain rfl : Instr.qrleEnc = i := by simpa [h2] using h
          rw [hv, h2]; decide
        · simp [h2] at h

/-- When a word is refused (R104). -/
theorem decode_eq_error_iff (v : Word) :
    (∃ e, decode v = .error e) ↔
      (opField v = 0 ∨ 8 ≤ opField v) ∨ (reservedLow v ≠ 0 ∨ reservedHigh v ≠ 0) ∨
      (quantizeBit v = true ∧ opField v ≠ 2) := by
  unfold decode
  by_cases hr : reservedLow v ≠ 0 ∨ reservedHigh v ≠ 0
  · simp [hr]
  · rw [if_neg hr]
    cases hu : unitOf (opField v) with
    | none => simp [unitOf_eq_none.1 hu]
    | some j =>
      have hn : ¬(opField v = 0 ∨ 8 ≤ opField v) := fun h => by
        rw [unitOf_eq_none.2 h] at hu; cases hu
      cases hq : quantizeBit v
      · simp [hn, hr]
      · by_cases h2 : opField v = 2 <;> simp_all

end Sys2Proof
end

