-- ==== Sys2Proof/Laws/Draws.lean ====
section
/-! SUPPORT. The draws of a runtime error (R234): every location of the write set takes a draw of its own, the
registers first and then the buffer words, in the order listed (log entry 4). -/

namespace Sys2Proof.Machine

@[simp] theorem mem_wordsOf {bufs : List (Buf × Nat)} {x : Buf × Nat} :
    x ∈ wordsOf bufs ↔ ∃ n, (x.1, n) ∈ bufs ∧ x.2 < n := by
  obtain ⟨b, w⟩ := x
  simp [wordsOf]

@[simp] theorem wordsOf_length (bufs : List (Buf × Nat)) : (wordsOf bufs).length = (bufs.map Prod.snd).sum := by
  simp [wordsOf, List.length_flatMap]

/-- Where each buffer is listed once, so is each word. -/
theorem wordsOf_nodup {bufs : List (Buf × Nat)} (h : (bufs.map Prod.fst).Nodup) : (wordsOf bufs).Nodup := by
  induction bufs with
  | nil => exact .nil
  | cons p bufs ih =>
    rw [List.map_cons, List.nodup_cons] at h
    unfold wordsOf
    rw [List.flatMap_cons, List.nodup_append]
    refine ⟨List.nodup_range.map fun a b h => (Prod.mk.inj h).2, ih h.2, fun x hx y hy hxy => ?_⟩
    obtain ⟨w, -, rfl⟩ := List.mem_map.1 hx
    obtain ⟨n, hn, -⟩ := mem_wordsOf.1 (show y ∈ wordsOf bufs from hy)
    exact h.1 (List.mem_map.2 ⟨_, hn, by rw [← hxy]⟩)

/-- Of words listed once, in buffers that fit their windows, the one at place `k` takes draw `n + k`. -/
theorem Memory.get?_drawEach (bufs : List (Buf × Nat)) (m : Memory) (n : Nat) (hb : (bufs.map Prod.fst).Nodup)
    (hf : ∀ p ∈ bufs, 4 * p.2 ≤ 2 ^ 28) (k : Nat) (hk : k < (wordsOf bufs).length) (j : Nat) (hj : j < 4) :
    Memory.get? (Memory.drawEach m n bufs) ((wordsOf bufs)[k].1.addr (wordsOf bufs)[k].2 + j) =
      some (byteOfWord (Config.draw (n + k)) j) := by
  induction bufs generalizing m n k with
  | nil => simp [wordsOf] at hk
  | cons p bufs ih =>
    rw [List.map_cons, List.nodup_cons] at hb
    have hw : wordsOf (p :: bufs) = (List.range p.2).map (fun w => (p.1, w)) ++ wordsOf bufs := rfl
    simp only [hw] at hk ⊢
    rw [Memory.drawEach]
    by_cases hp : k < p.2
    · rw [List.getElem_append_left (by simpa using hp), Memory.get?_drawEach_outside]
      · have := Memory.get?_putWords_inside (drawnWords n p.2) m (p.1.addr 0) k j (by simpa using hp) hj
        simpa [Buf.addr, drawnWords] using this
      · intro q hq
        have hne : q.1 ≠ p.1 := fun h => hb.1 (h ▸ List.mem_map_of_mem hq)
        have h1 := Buf.base_apart hne
        have h2 := hf q (List.mem_cons_of_mem _ hq)
        have h3 := hf p List.mem_cons_self
        simp only [Buf.addr, List.getElem_map, List.getElem_range]; omega
    · rw [List.getElem_append_right (by simpa using hp)]
      simp only [List.length_map, List.length_range]
      rw [ih _ _ hb.2 (fun q hq => hf q (List.mem_cons_of_mem _ hq)) (k - p.2) (by simp at hk ⊢; omega),
        show n + p.2 + (k - p.2) = n + k by omega]

/-- After a runtime error every register and word of its write set holds a draw of its own: the one at place `k`
of the list holds draw number `draws + k` (R234, log entry 4). -/
theorem State.locationWord_drawAll (s : State) {w : WriteSet} (hr : w.regs.Nodup)
    (hb : (w.bufs.map Prod.fst).Nodup) (hf : ∀ p ∈ w.bufs, 4 * p.2 ≤ 2 ^ 28) (k : Nat)
    (hk : k < (w.regs.map DataLocation.reg ++ (wordsOf w.bufs).map (fun x => DataLocation.word x.1 x.2)).length) :
    (s.drawAll w).locationWord (w.regs.map DataLocation.reg ++ (wordsOf w.bufs).map (fun x => DataLocation.word x.1 x.2))[k] =
      Config.draw (s.draws + k) := by
  by_cases hp : k < w.regs.length
  · rw [List.getElem_append_left (by simpa using hp), List.getElem_map]
    exact Regs.get_drawEach w.regs s.regs s.draws hr k hp
  · rw [List.getElem_append_right (by simpa using hp)]
    simp only [List.length_map, List.getElem_map]
    have hk' : k - w.regs.length < (wordsOf w.bufs).length := by
      simp only [List.length_append, List.length_map] at hk; omega
    have h := Memory.get?_drawEach w.bufs s.mem (s.draws + w.regs.length) hb hf (k - w.regs.length) hk'
    have hbyte (j : Nat) (hj : j < 4) :
        (s.drawAll w).readByte ((wordsOf w.bufs)[k - w.regs.length].1.addr (wordsOf w.bufs)[k - w.regs.length].2 + j) =
          byteOfWord (Config.draw (s.draws + k)) j := by
      unfold State.readByte
      rw [State.drawAll_mem, h j hj, show s.draws + w.regs.length + (k - w.regs.length) = s.draws + k by omega]
    simp only [State.locationWord, State.bufRead, State.readWord]
    rw [hbyte 1 (by omega), hbyte 2 (by omega), hbyte 3 (by omega)]
    have h0 := hbyte 0 (by omega)
    simp only [Nat.add_zero] at h0
    rw [h0, wordOfBytes_byteOfWord]

end Sys2Proof.Machine
end

