-- ==== Sys2Proof/Laws/Huffman.lean ====
section
/-! SUPPORT. The Huffman tree and its codes (R161, R162, R164). -/

namespace Sys2Proof.Machine

/-! ## Nodes -/

/-- Every node's children are older nodes. -/
def orderedNodes (nodes : List HuffNode) : Prop := ∀ k, orderedNode nodes k

theorem freqOf_append {nodes : List HuffNode} {k : Nat} (h : k < nodes.length) (ext : List HuffNode) :
    freqOf (nodes ++ ext) k = freqOf nodes k := by
  unfold freqOf
  rw [List.getElem?_append_left h]

theorem freqOf_of_getElem? {nodes : List HuffNode} {k : Nat} {n : HuffNode} (h : nodes[k]? = some n) :
    freqOf nodes k = n.freq := by
  unfold freqOf
  rw [h]

/-- The children of a node of an ordered tree. -/
theorem orderedNodes.children {nodes : List HuffNode} (h : orderedNodes nodes) {k f l r : Nat}
    (hk : nodes[k]? = some (.internal f l r)) :
    l < k ∧ r < k ∧ l ≠ r ∧ f = freqOf nodes l + freqOf nodes r := by
  have := h k
  unfold orderedNode at this
  rwa [hk] at this

/-- A parent of two older nodes keeps the tree ordered. -/
theorem orderedNodes.append {nodes : List HuffNode} (h : orderedNodes nodes) {a b : Nat}
    (ha : a < nodes.length) (hb : b < nodes.length) (hab : a ≠ b) :
    orderedNodes (nodes ++ [.internal (freqOf nodes a + freqOf nodes b) a b]) := by
  intro k
  unfold orderedNode
  by_cases hk : k < nodes.length
  · rw [List.getElem?_append_left hk]
    have := h k
    unfold orderedNode at this
    revert this
    cases hn : nodes[k]? with
    | none => exact id
    | some n =>
      cases n with
      | leaf => exact id
      | internal f l r =>
        rintro ⟨h1, h2, h3, h4⟩
        exact ⟨h1, h2, h3, by rw [freqOf_append (by omega), freqOf_append (by omega)]; exact h4⟩
  · by_cases hk' : k = nodes.length
    · subst k
      rw [List.getElem?_concat_length]
      exact ⟨ha, hb, hab, by rw [freqOf_append ha, freqOf_append hb]⟩
    · rw [List.getElem?_eq_none (by simp; omega)]
      trivial

/-! ## Walking -/

/-- The depth bound of a walk does not show when it exceeds the node's index. -/
theorem walkCodes_fuel {nodes : List HuffNode} (h : orderedNodes nodes) (k : Nat) :
    ∀ (m n : Nat) (c : List Bool), k < m → k < n → walkCodes nodes m k c = walkCodes nodes n k c := by
  induction k using Nat.strongRecOn with
  | _ k ih =>
    intro m n c hm hn
    obtain ⟨m, rfl⟩ : ∃ m', m = m' + 1 := ⟨m - 1, by omega⟩
    obtain ⟨n, rfl⟩ : ∃ n', n = n' + 1 := ⟨n - 1, by omega⟩
    unfold walkCodes
    split
    · rfl
    · obtain ⟨h1, h2, -⟩ := h.children ‹_›
      rw [ih _ h1 m n _ (by omega) (by omega), ih _ h2 m n _ (by omega) (by omega)]
    · rfl

/-- Younger nodes do not change a walk. -/
theorem walkCodes_append {nodes : List HuffNode} (h : orderedNodes nodes) (ext : List HuffNode) (k : Nat) :
    ∀ (m : Nat) (c : List Bool), k < nodes.length →
      walkCodes (nodes ++ ext) m k c = walkCodes nodes m k c := by
  induction k using Nat.strongRecOn with
  | _ k ih =>
    intro m c hk
    cases m with
    | zero => rfl
    | succ m =>
      unfold walkCodes
      rw [List.getElem?_append_left hk]
      split
      · rfl
      · obtain ⟨h1, h2, -⟩ := h.children ‹_›
        rw [ih _ h1 m _ (by omega), ih _ h2 m _ (by omega)]
      · rfl

/-- The code on the way is a prefix of every code of the walk. -/
theorem walkCodes_prefix (nodes : List HuffNode) (m k : Nat) (c : List Bool) :
    walkCodes nodes m k c = (walkCodes nodes m k []).map (fun p => (p.1, c ++ p.2)) := by
  induction m generalizing k c with
  | zero => rfl
  | succ m ih =>
    unfold walkCodes
    split
    · simp
    · rename_i l r _
      rw [ih l (c ++ [false]), ih r (c ++ [true]), ih l ([] ++ [false]), ih r ([] ++ [true])]
      simp [Function.comp_def]
    · rfl

/-- The symbols and codes under node `k`. -/
def codesUnder (nodes : List HuffNode) (k : Nat) : List (Word × List Bool) := walkCodes nodes (k + 1) k []

theorem codesUnder_leaf {nodes : List HuffNode} {k : Nat} {pix : Word} {f : Nat}
    (hk : nodes[k]? = some (.leaf pix f)) : codesUnder nodes k = [(pix, [])] := by
  unfold codesUnder walkCodes; rw [hk]

/-- Under an internal node: the left codes after '0', then the right codes after '1' (R164). -/
theorem codesUnder_internal {nodes : List HuffNode} (h : orderedNodes nodes) {k f l r : Nat}
    (hk : nodes[k]? = some (.internal f l r)) :
    codesUnder nodes k = (codesUnder nodes l).map (fun p => (p.1, false :: p.2)) ++
      (codesUnder nodes r).map (fun p => (p.1, true :: p.2)) := by
  obtain ⟨h1, h2, -⟩ := h.children hk
  unfold codesUnder
  rw [walkCodes, hk]
  simp only []
  rw [walkCodes_prefix _ _ l, walkCodes_prefix _ _ r, walkCodes_fuel h l k (l + 1) [] h1 (by omega),
    walkCodes_fuel h r k (r + 1) [] h2 (by omega)]
  simp

theorem codesUnder_append {nodes : List HuffNode} (h : orderedNodes nodes) (ext : List HuffNode) {k : Nat}
    (hk : k < nodes.length) : codesUnder (nodes ++ ext) k = codesUnder nodes k :=
  walkCodes_append h ext k _ _ hk

/-- No two entries under a node have codes of which one is a prefix of the other. -/
theorem codesUnder_prefixFree {nodes : List HuffNode} (h : orderedNodes nodes) (k : Nat) :
    (codesUnder nodes k).Pairwise (fun p q => ¬p.2 <+: q.2 ∧ ¬q.2 <+: p.2) := by
  induction k using Nat.strongRecOn with
  | _ k ih =>
    cases hk : nodes[k]? with
    | none => unfold codesUnder walkCodes; rw [hk]; exact .nil
    | some n =>
      cases n with
      | leaf pix f => rw [codesUnder_leaf hk]; exact List.pairwise_singleton _ _
      | internal f l r =>
        obtain ⟨h1, h2, -⟩ := h.children hk
        rw [codesUnder_internal h hk, List.pairwise_append]
        refine ⟨List.pairwise_map.2 ?_, List.pairwise_map.2 ?_, ?_⟩
        · exact (ih l h1).imp fun hp => by simpa [List.cons_prefix_cons] using hp
        · exact (ih r h2).imp fun hp => by simpa [List.cons_prefix_cons] using hp
        · intro p hp q hq
          obtain ⟨p', _, rfl⟩ := List.mem_map.1 hp
          obtain ⟨q', _, rfl⟩ := List.mem_map.1 hq
          simp [List.cons_prefix_cons]

/-- A code under a node, followed from it, leads to a leaf of its symbol (R164). -/
theorem codesUnder_followCode {nodes : List HuffNode} (h : orderedNodes nodes) (k : Nat) :
    ∀ p ∈ codesUnder nodes k, ∃ f, followCode nodes k p.2 = some (.leaf p.1 f) := by
  induction k using Nat.strongRecOn with
  | _ k ih =>
    intro p hp
    cases hk : nodes[k]? with
    | none => unfold codesUnder walkCodes at hp; rw [hk] at hp; cases hp
    | some n =>
      cases n with
      | leaf pix f =>
        rw [codesUnder_leaf hk, List.mem_singleton] at hp
        subst hp
        exact ⟨f, hk⟩
      | internal f l r =>
        obtain ⟨h1, h2, -⟩ := h.children hk
        rw [codesUnder_internal h hk, List.mem_append, List.mem_map, List.mem_map] at hp
        obtain ⟨q, hq, rfl⟩ | ⟨q, hq, rfl⟩ := hp <;> simp only [followCode, hk]
        · exact ih l h1 q hq
        · exact ih r h2 q hq

/-- A code is shorter than the number of leaves under its node. -/
theorem codesUnder_length {nodes : List HuffNode} (h : orderedNodes nodes) (k : Nat) (hk : k < nodes.length) :
    1 ≤ (codesUnder nodes k).length ∧ ∀ p ∈ codesUnder nodes k, p.2.length + 1 ≤ (codesUnder nodes k).length := by
  induction k using Nat.strongRecOn with
  | _ k ih =>
    cases hn : nodes[k]? with
    | none => rw [List.getElem?_eq_none_iff] at hn; omega
    | some n =>
      cases n with
      | leaf pix f => rw [codesUnder_leaf hn]; simp
      | internal f l r =>
        obtain ⟨h1, h2, -⟩ := h.children hn
        obtain ⟨l1, l2⟩ := ih l h1 (by omega)
        obtain ⟨r1, r2⟩ := ih r h2 (by omega)
        rw [codesUnder_internal h hn]
        refine ⟨by simp; omega, fun p hp => ?_⟩
        rw [List.length_append, List.length_map, List.length_map]
        rcases List.mem_append.1 hp with hp | hp
        · obtain ⟨q, hq, rfl⟩ := List.mem_map.1 hp
          have := l2 q hq
          simp only [List.length_cons]; omega
        · obtain ⟨q, hq, rfl⟩ := List.mem_map.1 hp
          have := r2 q hq
          simp only [List.length_cons]; omega

/-! ## Building -/

/-- What the loop of `huffman_build` keeps, for the table `T` (R161, R162). -/
structure BuildInv (T : List FreqEntry) (nodes : List HuffNode) (W : List Nat) : Prop where
  leaves   : nodes.take T.length = leavesOf T
  longer   : T.length ≤ nodes.length
  inner    : ∀ k, T.length ≤ k → k < nodes.length → ∃ f l r, nodes[k]? = some (.internal f l r)
  ordered  : orderedNodes nodes
  inRange  : ∀ k ∈ W, k < nodes.length
  distinct : W.Nodup
  count    : nodes.length + W.length = 2 * T.length
  newest   : T.length < nodes.length → nodes.length - 1 ∈ W
  symbols  : (W.flatMap (fun k => (codesUnder nodes k).map Prod.fst)).Perm (T.map FreqEntry.pix)
  total    : (W.map (freqOf nodes)).sum = totalCount T

theorem leavesOf_getElem? (T : List FreqEntry) (k : Nat) :
    (leavesOf T)[k]? = T[k]?.map (fun e => .leaf e.pix e.cnt) := by simp [leavesOf]

theorem buildInv_start (T : List FreqEntry) : BuildInv T (leavesOf T) (List.range T.length) where
  leaves := by rw [← List.length_map (f := fun e : FreqEntry => HuffNode.leaf e.pix e.cnt)]; exact List.take_length
  longer := by simp [leavesOf]
  inner := fun k h1 h2 => by simp [leavesOf] at h2; omega
  ordered := fun k => by
    unfold orderedNode
    rw [leavesOf_getElem?]
    cases T[k]? <;> simp
  inRange := fun k hk => by simpa [leavesOf] using hk
  distinct := List.nodup_range
  count := by simp [leavesOf]; omega
  newest := fun h => by simp [leavesOf] at h
  symbols := by
    have : (List.range T.length).flatMap (fun k => (codesUnder (leavesOf T) k).map Prod.fst) =
        T.map FreqEntry.pix := by
      rw [List.flatMap_def, List.flatten_eq_flatMap]
      have : (List.range T.length).map (fun k => (codesUnder (leavesOf T) k).map Prod.fst) =
          T.map (fun e => [e.pix]) := by
        refine List.ext_getElem (by simp) fun k h1 h2 => ?_
        have hk : k < T.length := by simpa using h1
        rw [List.getElem_map, List.getElem_range, List.getElem_map,
          codesUnder_leaf (f := T[k].cnt) (pix := T[k].pix) (by rw [leavesOf_getElem?]; simp [hk])]
        rfl
      rw [this]
      clear this
      induction T with
      | nil => rfl
      | cons e T ih => simpa using ih
    rw [this]
  total := by
    have : (List.range T.length).map (freqOf (leavesOf T)) = T.map FreqEntry.cnt := by
      refine List.ext_getElem (by simp) fun k h1 h2 => ?_
      have hk : k < T.length := by simpa using h1
      rw [List.getElem_map, List.getElem_range, List.getElem_map]
      unfold freqOf
      rw [leavesOf_getElem?]
      simp [hk, HuffNode.freq]
    rw [this]; rfl

/-- The two lowest nodes of a working list of at least two. -/
theorem exists_lowest {nodes : List HuffNode} {W : List Nat} (h : 1 < W.length) :
    ∃ a b rest, stableSort (freqOf nodes) W = a :: b :: rest := by
  have hl := stableSort_length (freqOf nodes) W
  match hs : stableSort (freqOf nodes) W, hl with
  | [], hl => simp at hl; omega
  | [_], hl => simp at hl; omega
  | a :: b :: rest, _ => exact ⟨a, b, rest, rfl⟩

/-- One round keeps it. -/
theorem BuildInv.merge {T : List FreqEntry} {nodes : List HuffNode} {W : List Nat} (h : BuildInv T nodes W)
    (hW : 1 < W.length) : BuildInv T (mergeLowest nodes W).1 (mergeLowest nodes W).2 := by
  obtain ⟨a, b, rest, hs⟩ := exists_lowest (nodes := nodes) hW
  have hperm : (a :: b :: rest).Perm W := hs ▸ stableSort_perm (freqOf nodes) W
  have hnd : (a :: b :: rest).Nodup := hperm.nodup_iff.2 h.distinct
  have hlen : rest.length + 2 = W.length := by simpa using hperm.length_eq
  have ha : a < nodes.length := h.inRange a (hperm.subset (by simp))
  have hb : b < nodes.length := h.inRange b (hperm.subset (by simp))
  have hr : ∀ k ∈ rest, k < nodes.length := fun k hk => h.inRange k (hperm.subset (by simp [hk]))
  have hab : a ≠ b := fun e => by simp [e] at hnd
  have hm : mergeLowest nodes W =
      (nodes ++ [.internal (freqOf nodes a + freqOf nodes b) a b], rest ++ [nodes.length]) := by
    unfold mergeLowest; rw [hs]
  have hord := h.ordered.append ha hb hab
  have hnew : (nodes ++ [HuffNode.internal (freqOf nodes a + freqOf nodes b) a b])[nodes.length]? =
      some (.internal (freqOf nodes a + freqOf nodes b) a b) := List.getElem?_concat_length
  rw [hm]
  refine ⟨?_, by simp; have := h.longer; omega, ?_, hord, ?_, ?_, ?_, ?_, ?_, ?_⟩
  · rw [List.take_append_of_le_length h.longer]; exact h.leaves
  · intro k h1 h2
    by_cases hk : k < nodes.length
    · obtain ⟨f, l, r, hk'⟩ := h.inner k h1 hk
      exact ⟨f, l, r, by rw [List.getElem?_append_left hk]; exact hk'⟩
    · obtain rfl : k = nodes.length := by simp at h2; omega
      exact ⟨_, _, _, hnew⟩
  · intro k hk
    rcases List.mem_append.1 hk with hk | hk
    · have := hr k hk; simp; omega
    · simp at hk; simp [hk]
  · have h1 : rest.Nodup := (List.nodup_cons.1 (List.nodup_cons.1 hnd).2).2
    refine List.nodup_append.2 ⟨h1, by simp, ?_⟩
    intro x hx y hy
    have := hr x hx
    simp at hy; omega
  · have := h.count; simp; omega
  · intro _; simp
  · refine List.Perm.trans ?_ h.symbols
    rw [List.flatMap_append, List.flatMap_singleton, codesUnder_internal hord hnew,
      codesUnder_append h.ordered _ ha, codesUnder_append h.ordered _ hb]
    have hrest : rest.flatMap (fun k => (codesUnder (nodes ++ [HuffNode.internal (freqOf nodes a + freqOf nodes b) a b]) k).map Prod.fst) =
        rest.flatMap (fun k => (codesUnder nodes k).map Prod.fst) :=
      List.flatMap_congr fun k hk => by rw [codesUnder_append h.ordered _ (hr k hk)]
    rw [hrest]
    refine List.Perm.trans ?_ (hperm.flatMap_right _)
    have hcomm := List.perm_append_comm (l₁ := rest.flatMap (fun k => (codesUnder nodes k).map Prod.fst))
      (l₂ := (codesUnder nodes a).map Prod.fst ++ (codesUnder nodes b).map Prod.fst)
    simpa [Function.comp_def, List.append_assoc] using hcomm
  · have h1 : (rest.map (freqOf (nodes ++ [HuffNode.internal (freqOf nodes a + freqOf nodes b) a b]))) =
        rest.map (freqOf nodes) := List.map_congr_left fun k hk => freqOf_append (hr k hk) _
    have h2 : freqOf (nodes ++ [HuffNode.internal (freqOf nodes a + freqOf nodes b) a b]) nodes.length =
        freqOf nodes a + freqOf nodes b := freqOf_of_getElem? hnew
    have h3 : ((a :: b :: rest).map (freqOf nodes)).sum = totalCount T :=
      (hperm.map (freqOf nodes)).sum_eq.trans h.total
    rw [List.map_append, List.sum_append, h1, List.map_singleton, List.sum_singleton, h2]
    simp only [List.map_cons, List.sum_cons] at h3
    omega

/-- The loop ends with one node left. -/
theorem BuildInv.loop {T : List FreqEntry} (m : Nat) {nodes : List HuffNode} {W : List Nat}
    (h : BuildInv T nodes W) (hm : W.length ≤ m + 1) (hW : 1 ≤ W.length) :
    BuildInv T (buildLoop m nodes W).1 (buildLoop m nodes W).2 ∧ (buildLoop m nodes W).2.length = 1 := by
  induction m generalizing nodes W with
  | zero => exact ⟨h, by show W.length = 1; omega⟩
  | succ m ih =>
    unfold buildLoop
    split
    · exact ⟨h, by show W.length = 1; omega⟩
    · have h' := h.merge (by omega)
      have hlen : (mergeLowest nodes W).2.length = W.length - 1 := by
        have h1 := h.count
        have h2 := h'.count
        have h3 : (mergeLowest nodes W).1.length = nodes.length + 1 := by
          obtain ⟨a, b, rest, hs⟩ := exists_lowest (nodes := nodes) (W := W) (by omega)
          unfold mergeLowest; rw [hs]; simp
        omega
      exact ih h' (by omega) (by omega)

/-- The tree of a table with at least one entry (R161, R162). -/
theorem huffmanBuild_inv {T : List FreqEntry} (hT : T ≠ []) :
    (huffmanBuild T).2 = 2 * T.length - 2 ∧ (huffmanBuild T).1.length = 2 * T.length - 1 ∧
    BuildInv T (huffmanBuild T).1 [(huffmanBuild T).2] := by
  have hpos : 1 ≤ T.length := List.length_pos_iff.2 hT
  obtain ⟨hinv, hlen⟩ := (buildInv_start T).loop T.length (by simp) (by simpa using hpos)
  unfold huffmanBuild
  simp only [if_neg (show ¬T.length = 0 by omega)]
  obtain ⟨r, hr⟩ := List.length_eq_one_iff.1 hlen
  rw [hr] at hinv ⊢
  simp only [List.headD_cons]
  have hc := hinv.count
  simp only [List.length_singleton] at hc
  refine ⟨?_, by omega, hinv⟩
  by_cases hn : T.length < (buildLoop T.length (leavesOf T) (List.range T.length)).1.length
  · have := hinv.newest hn
    simp at this; omega
  · have := hinv.inRange r (by simp)
    omega

/-- The empty table has no node. -/
theorem huffmanBuild_nil : huffmanBuild [] = ([], 0) := rfl

end Sys2Proof.Machine
end

