-- ==== Sys2Proof/Laws/Endings.lean ====
section
/-! SUPPORT. What each command's completion can do, said once: it writes within its row of R108, on success
through `bufFill` and `setRegNat`, after a runtime error through draws (R234). Every frame and the memory's
invariant follow from this. -/

namespace Sys2Proof.Machine

/-! ## Writes within a row -/

/-- `t` comes from `s` by filling the first words of the listed buffers and setting the listed registers. -/
inductive Writes (regs : List DataReg) (bufs : List (Buf × Nat)) (s : State) : State → Prop where
  | refl : Writes regs bufs s s
  | bufFill {t : State} {b : Buf} {n : Nat} {vs : List Word} (h : Writes regs bufs s t)
      (hb : (b, n) ∈ bufs) (hv : vs.length ≤ n) : Writes regs bufs s (t.bufFill b vs)
  | setRegNat {t : State} {d : DataReg} (h : Writes regs bufs s t) (hd : d ∈ regs) (n : Nat) :
      Writes regs bufs s (t.setRegNat d n)

theorem Writes.keptOutside {regs bufs} {s t : State} (h : Writes regs bufs s t) : KeptOutside s t regs bufs := by
  induction h with
  | refl => exact KeptOutside.refl s regs bufs
  | bufFill _ hb hv ih => exact ih.bufFill hb hv
  | setRegNat _ hd n ih => exact ih.setRegNat hd n

theorem Writes.draws {regs bufs} {s t : State} (h : Writes regs bufs s t) : t.draws = s.draws := by
  induction h with
  | refl => rfl
  | bufFill _ _ _ ih => exact ih
  | setRegNat _ _ _ ih => exact ih

theorem Writes.memEpoch {regs bufs} {s t : State} (h : Writes regs bufs s t) : t.memEpoch = s.memEpoch := by
  induction h with
  | refl => rfl
  | bufFill _ _ _ ih => exact ih
  | setRegNat _ _ _ ih => exact ih

/-- The buffers of a row lie in the block's buffers. -/
def rowFits (c : Caps) (bufs : List (Buf × Nat)) : Prop := ∀ p ∈ bufs, p.2 ≤ p.1.words c

theorem insideBuffer_of_word {c : Caps} {b : Buf} {a : Nat} (h1 : b.base ≤ a) (h2 : a < b.base + 4 * b.words c) :
    insideBuffer c a = true := by
  unfold insideBuffer
  rw [List.any_eq_true]
  exact ⟨b, by cases b <;> decide, by simp [h1, h2]⟩

/-- The memory part of the invariant. -/
def memoryOk (c : Caps) (m : Memory) : Prop := Memory.wf m ∧ ∀ x ∈ m, insideBuffer c x.1 = true

theorem memoryOk.putWords {c : Caps} {m : Memory} (h : memoryOk c m) {b : Buf} {vs : List Word}
    (hv : vs.length ≤ b.words c) : memoryOk c (Memory.putWords m (b.addr 0) vs) :=
  ⟨Memory.wf_putWords vs h.1 _, fun x hx => by
    rcases Memory.mem_putWords vs hx with hx | hx
    · exact insideBuffer_of_word (b := b) (by simp only [Buf.addr] at hx; omega)
        (by simp only [Buf.addr] at hx; omega)
    · exact h.2 x hx⟩

theorem memoryOk.putWord {c : Caps} {m : Memory} (h : memoryOk c m) {b : Buf} {w : Nat} (hw : w < b.words c)
    (v : Word) : memoryOk c (Memory.putWord m (b.addr w) v) :=
  ⟨Memory.wf_putWord h.1 _ _, fun x hx => by
    rcases Memory.mem_putWord hx with hx | hx
    · exact insideBuffer_of_word (b := b) (by simp only [Buf.addr] at hx; omega)
        (by simp only [Buf.addr] at hx; omega)
    · exact h.2 x hx⟩

theorem memoryOk.drawEach {c : Caps} {m : Memory} (h : memoryOk c m) {bufs : List (Buf × Nat)}
    (hb : rowFits c bufs) (n : Nat) : memoryOk c (Memory.drawEach m n bufs) := by
  induction bufs generalizing m n with
  | nil => exact h
  | cons p l ih =>
    obtain ⟨b, k⟩ := p
    exact ih (h.putWords (by simpa [drawnWords] using hb (b, k) List.mem_cons_self))
      (fun q hq => hb q (List.mem_cons_of_mem _ hq)) _

theorem Writes.memoryOk {regs bufs} {s t : State} {c : Caps} (h : Writes regs bufs s t) (hb : rowFits c bufs)
    (hm : memoryOk c s.mem) : memoryOk c t.mem := by
  induction h with
  | refl => exact hm
  | bufFill _ hb' hv ih => exact ih.putWords (le_trans hv (hb _ hb'))
  | setRegNat _ _ _ ih => exact ih

/-! ## The endings of the commands -/

/-- The number of nodes, the empty table's included (R161, R162). -/
theorem huffmanBuild_length (T : List FreqEntry) : (huffmanBuild T).1.length = 2 * T.length - 1 := by
  by_cases h : T = []
  · subst h; simp [huffmanBuild_nil]
  · exact (huffmanBuild_inv h).2.1

theorem freqModel_ok {symCap : Nat} {P : List Word} {T : List FreqEntry} (h : freqModel symCap P = .ok T) :
    T = countTable P ∧ T.length ≤ symCap := by
  rw [freqModel_table] at h
  split at h
  · rename_i hc; cases h; exact ⟨rfl, hc⟩
  · cases h

theorem freqModel_error {symCap : Nat} {P : List Word} {c : ErrCode} (h : freqModel symCap P = .error c) :
    c = .capacity := by
  rw [freqModel_table] at h
  split at h <;> cases h
  rfl

theorem rleRuns_ok {runCap : Nat} {P : List Word} {U : List Run} (h : rleRuns runCap P = .ok U) :
    U = runsOfPixels P ∧ U.length ≤ runCap := by
  rw [rleRuns_eq] at h
  split at h
  · cases h; exact ⟨rfl, ‹_›⟩
  · cases h

theorem rleRuns_error {runCap : Nat} {P : List Word} {c : ErrCode} (h : rleRuns runCap P = .error c) :
    c = .capacity := by
  rw [rleRuns_eq] at h
  split at h <;> cases h
  rfl

theorem emitCodes_ok {cap : Nat} {C : List (Word × List Bool)} {P : List Word} {S : Stream}
    (h : emitCodes cap C .empty P = .ok S) :
    S.bits = codeBits C P ∧ S.len = (codeBits C P).length ∧ (codeBits C P).length ≤ cap := by
  rw [emitCodes_eq _ _ _ _ (Nat.zero_le _)] at h
  split at h
  · rename_i hc; cases h
    exact ⟨by simp [Stream.bits, Stream.empty], by simp [Stream.empty], by simpa [Stream.empty] using hc⟩
  · cases h

theorem emitCodes_error {cap : Nat} {C : List (Word × List Bool)} {P : List Word} {c : ErrCode}
    (h : emitCodes cap C .empty P = .error c) : c = .capacity ∧ cap < (codeBits C P).length := by
  rw [emitCodes_eq _ _ _ _ (Nat.zero_le _)] at h
  split at h
  · cases h
  · rename_i hc; cases h; exact ⟨rfl, by simpa [Stream.empty] using hc⟩

theorem rowFits_rowWriteBufs {i : Instr} {s : State} (hN : (i = .rleDec ∨ i = .hufDec ∨ i = .ariDec) →
    s.pixelCount ≤ s.caps.pixCap) : rowFits s.caps (rowWriteBufs i s) := by
  intro p hp
  cases i <;> simp only [rowWriteBufs, List.mem_cons, List.not_mem_nil, or_false] at hp
  all_goals first
    | (subst hp; exact hN (by simp))
    | (subst hp; exact le_refl _)
    | (rcases hp with rfl | rfl | rfl <;> exact le_refl _)

theorem writes_writeOut {i : Instr} (hi : i = .rleDec ∨ i = .hufDec ∨ i = .ariDec) {s : State} {l : List Word}
    (hl : l.length ≤ s.pixelCount) : Writes (rowWriteRegs i) (rowWriteBufs i s) s (s.writeOut l) := by
  refine .setRegNat (.bufFill (b := .pixOut) (n := s.pixelCount) .refl ?_ ?_) ?_ _
  · rcases hi with rfl | rfl | rfl <;> simp [rowWriteBufs]
  · simp; omega
  · rcases hi with rfl | rfl | rfl <;> simp [rowWriteRegs]

/-- What the checks of a decoder establish. -/
theorem checkRleDec_eq_none {s : State} (h : s.checkRleDec = none) :
    s.pixelCount ≤ s.caps.pixCap ∧ s.regNat .runCount ≤ s.caps.runCap := by
  unfold State.checkRleDec at h
  split at h
  · cases h
  · split at h
    · cases h
    · omega

theorem checkHufDec_eq_none {s : State} (h : s.checkHufDec = none) :
    s.pixelCount ≤ s.caps.pixCap ∧ s.regNat .bitLen ≤ s.caps.bitsCap ∧ s.regNat .nodeCount ≤ nodeCap s.caps ∧
      (s.pixelCount = 0 ∨ s.treeValid = true) := by
  unfold State.checkHufDec at h
  split at h
  · cases h
  · split at h
    · cases h
    · split at h
      · cases h
      · split at h
        · cases h
        · refine ⟨by omega, by omega, by omega, ?_⟩
          cases hv : s.treeValid
          · left
            by_contra hc
            exact ‹¬(_ ∧ _)› ⟨by omega, hv⟩
          · right; rfl

theorem checkAriDec_eq_none {s : State} (h : s.checkAriDec = none) :
    s.pixelCount ≤ s.caps.pixCap ∧ s.regNat .symCount ≤ s.caps.symCap ∧ s.regNat .bitLen ≤ s.caps.bitsCap ∧
      (s.pixelCount = 0 ∨ 0 < totalCount s.freqList) := by
  unfold State.checkAriDec at h
  split at h
  · cases h
  · split at h
    · cases h
    · split at h
      · cases h
      · split at h
        · cases h
        · omega

/-- An error of an input check comes only where the checks do not pass (R233). -/
theorem endingOf_checkError {i : Instr} {s : State} {c : ErrCode} (h : endingOf i s = .checkError c) :
    ¬inputChecksPass i s := by
  intro hp
  cases i <;> simp only [endingOf, inputChecksPass] at h hp
  case freqScan =>
    unfold freqScanEnding at h; rw [checkInputPixels_of hp.1 hp.2] at h
    simp only at h
    split at h <;> cases h
  case rleEnc | qrleEnc =>
    unfold rleEncEnding at h; rw [checkInputPixels_of hp.1 hp.2] at h
    simp only at h
    split at h <;> cases h
  case rleDec =>
    unfold rleDecEnding State.checkRleDec at h
    rw [if_neg (by omega), if_neg (by omega)] at h
    cases h
  case hufEnc =>
    unfold hufEncEnding at h; rw [checkInputPixels_of hp.1 hp.2] at h
    simp only at h
    split at h
    · cases h
    · split at h <;> cases h
  case hufDec =>
    obtain ⟨h1, h2, h3, h4⟩ := hp
    unfold hufDecEnding State.checkHufDec at h
    rw [if_neg (by omega), if_neg (by omega), if_neg (by unfold nodeCap; omega),
      if_neg (by rcases h4 with h4 | h4 <;> simp [h4])] at h
    cases h
  case ariEnc =>
    unfold ariEncEnding at h; rw [checkInputPixels_of hp.1 hp.2] at h
    simp only at h
    split at h
    · cases h
    · split at h <;> cases h
  case ariDec =>
    unfold ariDecEnding State.checkAriDec at h
    rw [if_neg (by omega), if_neg (by omega), if_neg (by omega), if_neg (by omega)] at h
    simp only at h
    split at h
    · cases h
    · split at h <;> cases h

/-- On success a command writes within its row, and the row's words exist. -/
theorem endingOf_success_writes {i : Instr} {s t : State} (h : endingOf i s = .success t) :
    Writes (rowWriteRegs i) (rowWriteBufs i s) s t ∧ rowFits s.caps (rowWriteBufs i s) := by
  cases i <;> simp only [endingOf] at h
  case freqScan =>
    unfold freqScanEnding at h
    split at h
    · cases h
    · split at h
      · cases h
      · rename_i T hT
        cases h
        have := (freqModel_ok hT).2
        refine ⟨.setRegNat (.bufFill .refl (b := .freq) (n := Buf.words s.caps .freq) (by simp [rowWriteBufs]) ?_)
          (by simp [rowWriteRegs]) _, rowFits_rowWriteBufs (by simp)⟩
        simp [Buf.words, this]
  case rleEnc =>
    unfold rleEncEnding at h
    split at h
    · cases h
    · split at h
      · cases h
      · rename_i U hU
        cases h
        have := (rleRuns_ok hU).2
        refine ⟨.setRegNat (.setRegNat (.setRegNat (.bufFill .refl (b := .runs) (n := Buf.words s.caps .runs)
          (by simp [rowWriteBufs]) ?_) (by simp [rowWriteRegs]) _) (by simp [rowWriteRegs]) _)
          (by simp [rowWriteRegs]) _, rowFits_rowWriteBufs (by simp)⟩
        simp [Buf.words, this]
  case qrleEnc =>
    unfold rleEncEnding at h
    split at h
    · cases h
    · split at h
      · cases h
      · rename_i U hU
        cases h
        have := (rleRuns_ok hU).2
        refine ⟨.setRegNat (.setRegNat (.setRegNat (.bufFill .refl (b := .runs) (n := Buf.words s.caps .runs)
          (by simp [rowWriteBufs]) ?_) (by simp [rowWriteRegs]) _) (by simp [rowWriteRegs]) _)
          (by simp [rowWriteRegs]) _, rowFits_rowWriteBufs (by simp)⟩
        simp [Buf.words, this]
  case rleDec =>
    unfold rleDecEnding at h
    split at h
    · cases h
    · cases h
      exact ⟨writes_writeOut (.inl rfl) (replayRuns_length_le _ _),
        rowFits_rowWriteBufs fun _ => (checkRleDec_eq_none ‹_›).1⟩
  case hufEnc =>
    unfold hufEncEnding at h
    split at h
    · cases h
    · split at h
      · cases h
      · rename_i T hT
        simp only at h
        split at h
        · cases h
        · rename_i S hS
          cases h
          have hT' := (freqModel_ok hT).2
          obtain ⟨hb, -, hcap⟩ := emitCodes_ok hS
          have hn := (huffmanBuild_length T).le
          refine ⟨.setRegNat (.setRegNat (.setRegNat (.bufFill (.setRegNat (.setRegNat (.bufFill (.setRegNat
            (.bufFill .refl (b := .freq) (n := Buf.words s.caps .freq) (by simp [rowWriteBufs]) ?_)
              (by simp [rowWriteRegs]) _) (b := .tree) (n := Buf.words s.caps .tree) (by simp [rowWriteBufs]) ?_)
              (by simp [rowWriteRegs]) _) (by simp [rowWriteRegs]) _)
              (b := .bits) (n := Buf.words s.caps .bits) (by simp [rowWriteBufs]) ?_)
              (by simp [rowWriteRegs]) _) (by simp [rowWriteRegs]) _) (by simp [rowWriteRegs]) _,
              rowFits_rowWriteBufs (by simp)⟩
          · simp [Buf.words, hT']
          · rw [treeWords_length]; simp only [Buf.words, nodeCap]; omega
          · rw [hb]; simp only [packBits_length, Buf.words]; omega
  case hufDec =>
    unfold hufDecEnding at h
    split at h
    · cases h
    · cases h
      exact ⟨writes_writeOut (.inr (.inl rfl)) (hufDecoded_length_le _),
        rowFits_rowWriteBufs fun _ => (checkHufDec_eq_none ‹_›).1⟩
  case ariEnc =>
    unfold ariEncEnding at h
    split at h
    · cases h
    · split at h
      · cases h
      · rename_i T hT
        split at h
        · cases h
        · rename_i S hS
          cases h
          have hT' := (freqModel_ok hT).2
          obtain ⟨hcap, hb⟩ := ariEncode_ok hS
          refine ⟨.setRegNat (.setRegNat (.setRegNat (.bufFill (.setRegNat
            (.bufFill .refl (b := .freq) (n := Buf.words s.caps .freq) (by simp [rowWriteBufs]) ?_)
              (by simp [rowWriteRegs]) _)
              (b := .bits) (n := Buf.words s.caps .bits) (by simp [rowWriteBufs]) ?_)
              (by simp [rowWriteRegs]) _) (by simp [rowWriteRegs]) _) (by simp [rowWriteRegs]) _,
              rowFits_rowWriteBufs (by simp)⟩
          · simp [Buf.words, hT']
          · simp only [packBits_length, Buf.words]; omega
  case ariDec =>
    unfold ariDecEnding at h
    split at h
    · cases h
    · have hN := (checkAriDec_eq_none ‹_›).1
      split at h
      · cases h
        exact ⟨writes_writeOut (.inr (.inr rfl)) (by simp), rowFits_rowWriteBufs fun _ => hN⟩
      · split at h
        · cases h
        · rename_i out ho
          cases h
          exact ⟨writes_writeOut (.inr (.inr rfl)) (ariDecodeFrom_length ho).le, rowFits_rowWriteBufs fun _ => hN⟩

/-- The write set of a runtime error: all registers of the row, and the words of `drawnBufs`, of each buffer no
more than the row has (R234, log entry 8). -/
theorem endingOf_runError {i : Instr} {s : State} {c : ErrCode} {w : WriteSet}
    (h : endingOf i s = .runError c w) :
    c ≠ .noError ∧ w = ⟨rowWriteRegs i, drawnBufs i s⟩ ∧ rowFits s.caps (rowWriteBufs i s) := by
  have hfull {symCap : Nat} {P : List Word} {c : ErrCode} (h : freqModel symCap P = .error c) :
      c = .capacity ∧ min (countTable P).length symCap = symCap := by
    rw [freqModel_table] at h
    split at h <;> cases h
    exact ⟨rfl, by omega⟩
  have hpart {symCap : Nat} {P : List Word} {T : List FreqEntry} (h : freqModel symCap P = .ok T) :
      T = countTable P ∧ min (countTable P).length symCap = (countTable P).length := by
    rw [freqModel_table] at h
    split at h <;> cases h
    exact ⟨rfl, by omega⟩
  cases i <;> simp only [endingOf] at h
  case freqScan =>
    unfold freqScanEnding at h
    split at h
    · cases h
    · split at h <;> cases h
      obtain ⟨rfl, hn⟩ := hfull ‹_›
      exact ⟨by simp, by simp only [drawnBufs, hn]; rfl, rowFits_rowWriteBufs (by simp)⟩
  case rleEnc | qrleEnc =>
    unfold rleEncEnding at h
    split at h
    · cases h
    · split at h <;> cases h
      exact ⟨by have hc := ‹rleRuns _ _ = _›; rw [rleRuns_error hc]; simp, rfl, rowFits_rowWriteBufs (by simp)⟩
  case rleDec =>
    unfold rleDecEnding at h
    split at h <;> cases h
  case hufEnc =>
    unfold hufEncEnding at h
    split at h
    · cases h
    · split at h
      · cases h
        obtain ⟨rfl, hn⟩ := hfull ‹_›
        exact ⟨by simp, by simp only [drawnBufs, hn]; rfl,
          rowFits_rowWriteBufs (by simp)⟩
      · obtain ⟨rfl, hn⟩ := hpart ‹_›
        simp only at h
        split at h <;> cases h
        exact ⟨by have hc := ‹emitCodes _ _ _ _ = _›; rw [(emitCodes_error hc).1]; simp,
          by simp only [drawnBufs, hn, huffmanBuild_length]; rfl,
          rowFits_rowWriteBufs (by simp)⟩
  case hufDec =>
    unfold hufDecEnding at h
    split at h <;> cases h
  case ariEnc =>
    unfold ariEncEnding at h
    split at h
    · cases h
    · split at h
      · cases h
        obtain ⟨rfl, hn⟩ := hfull ‹_›
        exact ⟨by simp, by simp only [drawnBufs, hn]; rfl,
          rowFits_rowWriteBufs (by simp)⟩
      · obtain ⟨rfl, hn⟩ := hpart ‹_›
        split at h <;> cases h
        exact ⟨by have hc := ‹ariEncode _ _ _ = _›; rw [ariEncode_error hc]; simp,
          by simp only [drawnBufs, hn]; rfl, rowFits_rowWriteBufs (by simp)⟩
  case ariDec =>
    unfold ariDecEnding at h
    split at h
    · cases h
    · have hN := (checkAriDec_eq_none ‹_›).1
      split at h
      · cases h
      · split at h <;> cases h
        exact ⟨by have hc := ‹ariDecodeFrom _ _ _ _ = _›; rw [ariDecodeFrom_error hc]; simp, rfl,
          rowFits_rowWriteBufs fun _ => hN⟩

/-- The drawn words lie in the command's row, each buffer at most once. -/
theorem drawnBufs_row (i : Instr) (s : State) :
    (∀ p ∈ drawnBufs i s, ∃ n, (p.1, n) ∈ rowWriteBufs i s ∧ p.2 ≤ n) ∧
      ((drawnBufs i s).map Prod.fst).Nodup := by
  have h : min (countTable s.pixIn).length s.caps.symCap ≤ s.caps.symCap := Nat.min_le_right _ _
  refine ⟨fun p hp => ?_, by cases i <;> simp [drawnBufs]⟩
  cases i <;>
    simp only [drawnBufs, rowWriteBufs, List.mem_cons, List.not_mem_nil, or_false, Buf.words, nodeCap] at hp ⊢
  case hufEnc =>
    rcases hp with rfl | rfl | rfl
    · exact ⟨_, .inl rfl, by simp only; omega⟩
    · exact ⟨_, .inr (.inl rfl), by simp only; omega⟩
    · exact ⟨_, .inr (.inr rfl), le_refl _⟩
  case ariEnc =>
    rcases hp with rfl | rfl
    · exact ⟨_, .inl rfl, by simp only; omega⟩
    · exact ⟨_, .inr rfl, le_refl _⟩
  all_goals subst hp; exact ⟨_, rfl, by simp only; omega⟩

/-! ## Completions -/

/-- An error raised in processing makes the locations of `drawnBufs` and the row's registers draws, and leaves
every other location (R234). -/
theorem complete_runError {i : Instr} {s : State} {c : ErrCode} {w : WriteSet}
    (h : endingOf i s = .runError c w) :
    s.complete (endingOf i s) = (s.drawAll ⟨rowWriteRegs i, drawnBufs i s⟩).finish c ∧
      KeptOutside s (s.complete (endingOf i s)) (rowWriteRegs i) (drawnBufs i s) := by
  obtain ⟨-, rfl, -⟩ := endingOf_runError h
  rw [h]
  exact ⟨rfl, (KeptOutside.drawAll (fun d hd => hd) fun p hp => ⟨_, hp, le_refl _⟩).finish _⟩

/-- A command writes only within its row, however it ends (R15, R108). -/
theorem complete_keptOutside (i : Instr) (s : State) :
    KeptOutside s (s.complete (endingOf i s)) (rowWriteRegs i) (rowWriteBufs i s) := by
  cases h : endingOf i s with
  | success t => exact (endingOf_success_writes h).1.keptOutside.finish _
  | checkError c => exact (KeptOutside.refl s _ _).finish _
  | runError c w =>
    obtain ⟨-, rfl, -⟩ := endingOf_runError h
    exact (KeptOutside.drawAll (fun d hd => hd) (drawnBufs_row i s).1).finish _

/-- A completion keeps the memory in its canonical form and inside the buffers. -/
theorem complete_memoryOk (i : Instr) {s : State} (h : memoryOk s.caps s.mem) :
    memoryOk s.caps (s.complete (endingOf i s)).mem := by
  cases he : endingOf i s with
  | success t =>
    obtain ⟨hw, hf⟩ := endingOf_success_writes he
    exact hw.memoryOk hf h
  | checkError c => exact h
  | runError c w =>
    obtain ⟨-, rfl, hf⟩ := endingOf_runError he
    refine h.drawEach (fun p hp => ?_) _
    obtain ⟨n, hn, hle⟩ := (drawnBufs_row i s).1 p hp
    exact le_trans hle (hf _ hn)

/-- A completion takes draws, and gives none back. -/
theorem complete_draws_le (i : Instr) (s : State) : s.draws ≤ (s.complete (endingOf i s)).draws := by
  cases he : endingOf i s with
  | success t => exact (endingOf_success_writes he).1.draws.ge
  | checkError c => exact le_refl _
  | runError c w => exact Nat.le_add_right _ _

end Sys2Proof.Machine
end

