-- ==== Sys2Proof/Laws/PerInstr.lean ====
section
/-! SUPPORT. Facts about every command word, one lemma per constructor of `Instr`. -/

namespace Sys2Proof.Laws

/-- A command's word has the fields of R101 to R103: OP and Q are the command's, every reserved bit is 0, and
the decoder reads the command back from it, also in the opcode table's numbering. -/
def CommandWord.Statement (i : Instr) : Prop :=
  i.wf = true ∧ opField (encode i) = opCode i ∧ quantizeBit (encode i) = (quantizeOf i == 1) ∧
    reservedLow (encode i) = 0 ∧ reservedHigh (encode i) = 0 ∧ decode (encode i) = .ok i ∧
    decodeTableWord 32 (encode i).toNat = some i

theorem CommandWord.freqScan : CommandWord.Statement .freqScan := by
  unfold CommandWord.Statement; decide
theorem CommandWord.rleEnc : CommandWord.Statement .rleEnc := by
  unfold CommandWord.Statement; decide
theorem CommandWord.qrleEnc : CommandWord.Statement .qrleEnc := by
  unfold CommandWord.Statement; decide
theorem CommandWord.rleDec : CommandWord.Statement .rleDec := by
  unfold CommandWord.Statement; decide
theorem CommandWord.hufEnc : CommandWord.Statement .hufEnc := by
  unfold CommandWord.Statement; decide
theorem CommandWord.hufDec : CommandWord.Statement .hufDec := by
  unfold CommandWord.Statement; decide
theorem CommandWord.ariEnc : CommandWord.Statement .ariEnc := by
  unfold CommandWord.Statement; decide
theorem CommandWord.ariDec : CommandWord.Statement .ariDec := by
  unfold CommandWord.Statement; decide

end Sys2Proof.Laws
end

