-- ==== Sys2Proof/Laws/Step.lean ====
section
/-! SUPPORT. What one step can do, said once (R8, R90, R236): a wait, a completion, an access, or a reset. -/

namespace Sys2Proof.Machine

/-! ## The sequencer's turn -/

/-- How a running command ends, supported or not (R104, R236). -/
def runningEnding (s : State) : Ending :=
  match decode s.cmd with
  | .ok i => endingOf i s
  | .error _ => .checkError .unsupported

/-- The state after the sequencer's turn. -/
def State.turn (s : State) : State :=
  match s.seq with
  | .idle => s
  | .busy => s.complete (runningEnding s)

theorem sequencerTurn_eq (s : State) : sequencerTurn s = .next s.turn := by
  unfold sequencerTurn State.turn runningEnding
  cases s.seq with
  | idle => rfl
  | busy =>
    cases decode s.cmd with
    | ok i => exact exec_eq i s
    | error e => rfl

/-- The state after the first waiting event, or after the sequencer's turn when none waits. -/
def State.afterEvent (s : State) : State :=
  match s.agenda with
  | [] => s.turn
  | .sequencer :: _ => s.popEvent.turn
  | .access x :: _ => s.popEvent.busAccess x
  | .reset :: _ => s.popEvent.applyReset

/-- Every step goes on, to the state after the event. -/
theorem step_eq (s : State) : step s = .next s.afterEvent := by
  unfold step eventStep State.afterEvent
  cases s.agenda with
  | nil => exact sequencerTurn_eq s
  | cons e l =>
    cases e with
    | access x => rfl
    | reset => rfl
    | sequencer => exact sequencerTurn_eq _

theorem step_access {s : State} {x : BusAccess} {rest : List Event} (h : s.agenda = .access x :: rest) :
    step s = .next (State.busAccess { s with agenda := rest } x) := by
  rw [step_eq]; unfold State.afterEvent State.popEvent; rw [h]; rfl

theorem step_reset {s : State} {rest : List Event} (h : s.agenda = .reset :: rest) :
    step s = .next (State.applyReset { s with agenda := rest }) := by
  rw [step_eq]; unfold State.afterEvent State.popEvent; rw [h]; rfl

theorem step_sequencer {s : State} {rest : List Event} (h : s.agenda = .sequencer :: rest) :
    step s = .next (State.turn { s with agenda := rest }) := by
  rw [step_eq]; unfold State.afterEvent State.popEvent; rw [h]; rfl

theorem step_noEvent {s : State} (h : s.agenda = []) : step s = .next s.turn := by
  rw [step_eq]; unfold State.afterEvent; rw [h]

theorem turn_idle {s : State} (h : s.seq = .idle) : s.turn = s := by unfold State.turn; rw [h]

theorem turn_busy {s : State} (h : s.seq = .busy) : s.turn = s.complete (runningEnding s) := by
  unfold State.turn; rw [h]

/-- A completion of a running command (R236). -/
theorem running_completed (s : State) : Completed s (s.complete (runningEnding s)) (runningEnding s).code := by
  refine complete_completed s _ fun t ht => ?_
  unfold runningEnding at ht
  split at ht
  · exact endingOf_success ht
  · cases ht

/-- A run of one step more. -/
theorem run_next (M : Host.Core) {n : Nat} {s s' : M.State} (h : M.step s = .next s') :
    M.run (n + 1) s = M.run n s' := by
  rw [Host.Core.run, h]

/-! ## Host accesses -/

/-- An access with a word size and an aligned offset is accepted (R72). -/
theorem busAccess_read (s : State) {o : Word} (h : o.toNat % 4 = 0) :
    s.busAccess ⟨.read, o, 4⟩ = s.memRead o.toNat := by
  unfold State.busAccess BusAccess.accepted
  simp [h]

theorem busAccess_write (s : State) {o : Word} (v : Word) (h : o.toNat % 4 = 0) :
    s.busAccess ⟨.write v, o, 4⟩ = s.memWrite o.toNat v := by
  unfold State.busAccess BusAccess.accepted
  simp [h]

theorem busAccess_refused (s : State) (x : BusAccess) (h : x.addr.toNat % 4 ≠ 0 ∨ x.size ≠ 4) :
    s.busAccess x = s.answer .busError := by
  unfold State.busAccess BusAccess.accepted
  rcases h with h | h <;> simp [h]

theorem memRead_idle {s : State} (h : s.seq = .idle) (a : Nat) :
    s.memRead a = s.answer (.data (s.valueAt (lookupLocation s.caps a))) := by
  unfold State.memRead State.busy
  simp [h]

theorem memRead_busy_hidden {s : State} (h : s.seq = .busy) {a : Nat}
    (ha : (lookupLocation s.caps a).hiddenWhileBusy = true) :
    s.memRead a = (s.answer (.data s.nextDraw)).advanceDraws := by
  unfold State.memRead State.busy
  simp [h, ha]

theorem memRead_visible {s : State} {a : Nat} (ha : (lookupLocation s.caps a).hiddenWhileBusy = false) :
    s.memRead a = s.answer (.data (s.valueAt (lookupLocation s.caps a))) := by
  unfold State.memRead
  simp [ha]

theorem memWrite_idle {s : State} (h : s.seq = .idle) (a : Nat) (v : Word) :
    s.memWrite a v = (s.storeAt v (lookupLocation s.caps a)).answer .acknowledged := by
  unfold State.memWrite State.busy
  simp [h]

theorem memWrite_busy {s : State} (h : s.seq = .busy) (a : Nat) (v : Word) :
    s.memWrite a v = s.answer .acknowledged := by
  unfold State.memWrite State.busy
  simp [h]

/-- A read changes the reply and, at most, the draws. -/
theorem memRead_frame (s : State) (a : Nat) :
    ∃ r d, s.memRead a = { s with reply := r, draws := d } ∧ s.draws ≤ d := by
  unfold State.memRead
  simp only
  split
  · exact ⟨_, s.draws + 1, rfl, by omega⟩
  · exact ⟨_, s.draws, rfl, le_refl _⟩

/-! ## The address map -/

/-- The word that a buffer word's offset names (R74). -/
theorem lookup_bufWord (c : Caps) (b : Buf) (w : Nat) (hw : w < b.words c) (h26 : w < 2 ^ 26) :
    lookupLocation c (b.addr w) = .word b w := by
  have key : ∀ n, b.base = n * 0x10000000 → 1 ≤ n → windowBuf n = some b →
      lookupLocation c (b.addr w) = .word b w := fun n hn h1 hb => by
    unfold lookupLocation Buf.addr
    rw [if_neg (by omega), show (b.base + 4 * w) / 0x10000000 = n from by omega, hb,
      show (b.base + 4 * w) % 0x10000000 / 4 = w from by omega]
    simp only [if_pos hw]
  cases b
  · exact key 1 rfl (by omega) rfl
  · exact key 2 rfl (by omega) rfl
  · exact key 3 rfl (by omega) rfl
  · exact key 4 rfl (by omega) rfl
  · exact key 5 rfl (by omega) rfl
  · exact key 6 rfl (by omega) rfl

/-- A buffer of a legal build fits its window (R9, R74). -/
theorem Buf.words_le {c : Caps} (h : c.wf) (b : Buf) : b.words c ≤ 2 ^ 26 := by
  obtain ⟨h1, h2, h3, h4⟩ := h
  cases b <;> simp only [Buf.words, nodeCap] <;> omega

/-- What a word location is. -/
theorem lookup_eq_word {c : Caps} {a : Nat} {b : Buf} {w : Nat} (h : lookupLocation c a = .word b w) :
    w < b.words c := by
  unfold lookupLocation at h
  split at h
  · exfalso
    have : ∀ l, registerMap.lookup a = some l → l ≠ .word b w := by
      intro l hl
      simp only [registerMap, List.lookup] at hl
      repeat' split at hl
      all_goals first
        | (injection hl with hl; subst hl; exact fun h => by cases h)
        | cases hl
    cases hl : registerMap.lookup a with
    | none => rw [hl] at h; cases h
    | some l => rw [hl] at h; exact this l hl h
  · split at h
    · cases h
    · split at h
      · cases h; assumption
      · cases h

end Sys2Proof.Machine
end

