-- ==== Sys2Proof/Tests/Slice0.lean ====
section
/-! SUPPORT. The model's own tests. Expected results come from spec/95_test_vectors.md and the examples of the
rules, or from the rules by hand; the capacities are those of 95_test_vectors.md section 0 unless a test
says otherwise. -/

namespace Sys2Proof.Tests

-- The tests check one after another: side by side, their threads need much memory.
set_option Elab.async false

open Sys2Proof.Machine

/-! ## Helpers -/

/-- The capacities of 95_test_vectors.md section 0. -/
def testCaps : Caps := ⟨1024, 512, 256, 8192⟩

/-- The block right after reset. -/
def fresh : State := State.resetWith testCaps

/-- The block with an image of `w` by `h` pixels loaded. -/
def image (c : Caps) (w h : Nat) (px : List Word) : State :=
  ((((State.resetWith c).setRegNat .width w).setRegNat .height h).setRegNat .pixLen (4 * (w * h))).bufFill
    .pixIn px

/-- The block with a row of `n` output pixels asked for. -/
def row (n : Nat) : State := (fresh.setRegNat .width n).setRegNat .height 1

/-- The state after a command's completion. -/
def ran (i : Instr) (s : State) : State :=
  match exec i s with
  | .next t => t
  | .fault _ | .refused _ => s

/-- A command always completes. -/
theorem exec_ran (i : Instr) (s : State) : exec i s = .next (ran i s) := by cases i <;> rfl

/-- The block with one host access waiting. -/
def host (s : State) (op : BusOp) (o : Word) : State := { s with agenda := [.access ⟨op, o, 4⟩] }

/-- The state after one step. -/
def stepped (s : State) : State :=
  match step s with
  | .next t => t
  | .fault _ | .refused _ => s

/-- What a host read returns. -/
def readAt (s : State) (o : Word) : Word := (stepped (host s .read o)).reply.readData

/-- The state after a host write. -/
def wrote (s : State) (o v : Word) : State := stepped (host s (.write v) o)

/-- The first `n` words of a buffer. -/
def words (s : State) (b : Buf) (n : Nat) : List Word := (List.range n).map (s.bufRead b)

-- The pixel words of 95_test_vectors.md section 0.
abbrev pR : Word := 0xFF0000FF
abbrev pG : Word := 0xFF00FF00
abbrev pBl : Word := 0xFFFF0000
abbrev pW : Word := 0xFFFFFFFF
abbrev pK : Word := 0xFF000000
abbrev pA : Word := 0x00000001
abbrev pB : Word := 0x00000002
abbrev pC : Word := 0x00000003

/-! ## Well-formedness: the smoke tests -/

theorem test_caps_wf : testCaps.wf := by decide
theorem test_caps_smallest : (⟨1, 1, 1, 32⟩ : Caps).wf := by decide
theorem test_caps_largest : (⟨2 ^ 26, 2 ^ 25, 2 ^ 23, 2 ^ 31⟩ : Caps).wf := by decide
theorem test_caps_no_pixel : ¬(⟨0, 1, 1, 32⟩ : Caps).wf := by decide
theorem test_caps_too_many_pixels : ¬(⟨2 ^ 26 + 1, 1, 1, 32⟩ : Caps).wf := by decide
theorem test_caps_no_run : ¬(⟨1, 0, 1, 32⟩ : Caps).wf := by decide
theorem test_caps_too_many_runs : ¬(⟨1, 2 ^ 25 + 1, 1, 32⟩ : Caps).wf := by decide
theorem test_caps_no_symbol : ¬(⟨1, 1, 0, 32⟩ : Caps).wf := by decide
theorem test_caps_too_many_symbols : ¬(⟨1, 1, 2 ^ 23 + 1, 32⟩ : Caps).wf := by decide
theorem test_caps_too_few_bits : ¬(⟨1, 1, 1, 31⟩ : Caps).wf := by decide
theorem test_caps_too_many_bits : ¬(⟨1, 1, 1, 2 ^ 31 + 1⟩ : Caps).wf := by decide
theorem test_access_wf : (⟨.read, 0x08, 4⟩ : BusAccess).wf := by decide
theorem test_access_misaligned : ¬(⟨.read, 0x06, 4⟩ : BusAccess).wf := by decide
theorem test_access_halfword : ¬(⟨.write 1, 0x10, 2⟩ : BusAccess).wf := by decide
theorem test_access_doubleword : ¬(⟨.read, 0x10, 8⟩ : BusAccess).wf := by decide

/-! ## Decoding: words written out from R101 and R102, bits 31 down to 0 -/

theorem test_word_freqScan : decode 0b00000000000000000000000000000001 = .ok .freqScan := by decide
theorem test_word_rleEnc : decode 0b00000000000000000000000000000010 = .ok .rleEnc := by decide
theorem test_word_qrleEnc : decode 0b00000000000000000000000100000010 = .ok .qrleEnc := by decide
theorem test_word_rleDec : decode 0b00000000000000000000000000000011 = .ok .rleDec := by decide
theorem test_word_hufEnc : decode 0b00000000000000000000000000000100 = .ok .hufEnc := by decide
theorem test_word_hufDec : decode 0b00000000000000000000000000000101 = .ok .hufDec := by decide
theorem test_word_ariEnc : decode 0b00000000000000000000000000000110 = .ok .ariEnc := by decide
theorem test_word_ariDec : decode 0b00000000000000000000000000000111 = .ok .ariDec := by decide
/-- 95_test_vectors.md 2.1: OP 0, 8 and 15; Q with OP 1 and 4; reserved bits 4, 9 and 31. -/
theorem test_words_unsupported :
    [0x00000000, 0x00000008, 0x0000000F, 0x00000101, 0x00000104, 0x00000012, 0x00000202, 0x80000002].map
      (fun v : Word => (decode v).toOption) = List.replicate 8 none := by decide
theorem test_table_word : decodeTableWord 32 0x102 = some .qrleEnc := by decide
theorem test_table_word_too_long : decodeTableWord 40 0x100000001 = none := by decide

/-! ## The bus: V-B1 to V-B13 -/

theorem test_id : readAt fresh 0x00 = 0x48430100 := by decide
theorem test_caps_read_back : [0x40, 0x44, 0x48, 0x4C, 0x50].map (readAt fresh) = [1024, 512, 256, 511, 8192] := by
  decide
theorem test_reserved_reads_zero :
    [0x3C, 0x54, 0xFFC, 0x1000, 0x70000000, 0x10001000].map (readAt fresh) = [0, 0, 0, 0, 0, 0] := by decide
theorem test_origSize_is_read_only : readAt (wrote fresh 0x30 5) 0x30 = 0 := by decide
theorem test_ctrl_keeps_bit_0 : readAt (wrote fresh 0x0C 0xFFFFFFFF) 0x0C = 1 := by decide
theorem test_width_keeps_all_bits : readAt (wrote fresh 0x10 0xFFFFFFFF) 0x10 = 0xFFFFFFFF := by decide
theorem test_refused_access :
    stepped { fresh with agenda := [.access ⟨.write 5, 0x12, 4⟩] } = { fresh with reply := .busError } := by
  decide
theorem test_beyond_capacity : (wrote fresh 0x10001000 7).mem = [] := by decide
/-- R71: byte offset 0 holds bits 7:0. -/
theorem test_buffer_is_little_endian :
    (wrote fresh 0x10000004 0x04030201).mem =
      [(0x10000004, 1), (0x10000005, 2), (0x10000006, 3), (0x10000007, 4)] := by decide
/-- V-B10. -/
theorem test_w1c_keeps_the_error :
    readAt (wrote { fresh with done := true, err := true, errcode := .unsupported } 0x08 0xFFFFFFFF) 0x08 =
      0x00000104 := by decide
theorem test_cmd_write_starts : (wrote fresh 0x04 0x104).seq = .busy ∧ (wrote fresh 0x04 0x104).cmd = 0x104 := by
  decide
/-- The unsupported word completes (R104), STATUS 0x00000106. -/
theorem test_unsupported_completes : (stepped (wrote fresh 0x04 0x104)).statusWord = 0x00000106 := by decide
theorem test_busy_write_dropped :
    wrote { fresh with seq := .busy } 0x10 9 = { fresh with seq := .busy, reply := .acknowledged } := by decide
theorem test_busy_read_draws :
    (stepped (host { fresh with seq := .busy } .read 0x10)).reply = .data (Config.draw 1) := rfl
theorem test_reset_abandons_the_command :
    let t := stepped { fresh with seq := .busy, cmd := 4, agenda := [.reset] }
    t.seq = .idle ∧ t.done = false ∧ t.cmd = 0 ∧ t.memEpoch = 1 := by decide

/-! ## The commands -/

/-- R131's example, V-F1. -/
theorem test_freqScan_first_seen : (ran .freqScan (image testCaps 2 2 [pR, pG, pR, pR])).freqList =
    [⟨pR, 3⟩, ⟨pG, 1⟩] := by decide
/-- V-F8: N = 2^32 does not wrap. -/
theorem test_freqScan_product_exact :
    (ran .freqScan ((fresh.setRegNat .width 0x10000).setRegNat .height 0x10000)).statusWord = 0x00000206 := by
  decide

/-- V-R2: a run across a row's end. -/
theorem test_rleEnc_run_across_rows : words (ran .rleEnc (image testCaps 2 2 [pR, pG, pG, pR])) .runs 6 =
    [pR, 1, pG, 2, pR, 1] := by decide
/-- V-R1: RUN_COUNT, ORIG_SIZE, COMP_SIZE. -/
theorem test_rleEnc_sizes :
    ([.runCount, .origSize, .compSize].map (ran .rleEnc (image testCaps 3 1 [pR, pR, pG])).reg) = [2, 96, 64] := by
  decide

/-- V-Q1 to V-Q3. -/
theorem test_qpix : [0xC8EF0F10, 0x002F30F0, 0x097080FF].map qpix = [0xC8E00020, 0x002040FF, 0x098080FF] := by
  decide
/-- V-Q5. -/
theorem test_qrleEnc_joins : words (ran .qrleEnc (image testCaps 3 1 [0xFF1E140A, 0xFF281F00, 0xFF000010])) .runs 4 =
    [0xFF202000, 2, 0xFF000020, 1] := by decide

/-- V-D3: a zero count is skipped, the shortfall is zero. -/
theorem test_rleDec_zero_count :
    let t := ran .rleDec (((row 4).setRegNat .runCount 3).bufFill .runs [pR, 1, pG, 0, pBl, 1])
    words t .pixOut 4 = [pR, pBl, 0, 0] ∧ t.reg .outCount = 2 := by decide
/-- V-D2: the excess of the last run is dropped. -/
theorem test_rleDec_excess :
    let t := ran .rleDec (((row 4).setRegNat .runCount 2).bufFill .runs [pR, 2, pG, 5])
    words t .pixOut 4 = [pR, pR, pG, pG] ∧ t.reg .outCount = 4 := by decide

/-- V-H3: a new node sorts after an old one of equal frequency. -/
theorem test_hufEnc_tie :
    let t := ran .hufEnc (image testCaps 5 1 [pR, pG, pG, pBl, pBl])
    words t .tree 20 =
      [0, 1, pR, 0, 0, 2, pG, 0, 0, 2, pBl, 0, 1, 3, 0, 1, 1, 5, 2, 3] ∧
    t.reg .root = 4 ∧ t.bufRead .bits 0 = 0x0000003D ∧ t.reg .bitLen = 8 := by decide
/-- V-H1. -/
theorem test_hufEnc_bits :
    let t := ran .hufEnc (image testCaps 8 1 [pR, pR, pG, pBl, pR, pR, pW, pR])
    t.bufRead .bits 0 = 0x000013CB ∧ [.bitLen, .origSize, .compSize, .nodeCount].map t.reg = [13, 256, 13, 7] := by
  decide

/-- The tree of R166's example, with `n` pixels asked for and the bits of one word. -/
def twoLeafTree (n bits bitLen : Nat) : State :=
  (((((row n).setRegNat .nodeCount 3).setRegNat .root 2).setRegNat .bitLen bitLen).bufFill .tree
    [0, 1, pR, 0, 0, 1, pG, 0, 1, 2, 0, 1]).bufFill .bits [BitVec.ofNat 32 bits]

/-- R175's example, V-HD6: '0' goes left, '1' right. -/
theorem test_hufDec_edges : words (ran .hufDec (twoLeafTree 2 1 2)) .pixOut 2 = [pG, pR] := by decide
/-- V-HD15, V-HD16: a cyclic tree. -/
theorem test_hufDec_cycle :
    let t := ran .hufDec (((((row 1).setRegNat .nodeCount 2).setRegNat .bitLen 3).bufFill .tree
      [1, 0, 0, 1, 0, 1, 0x09090909, 0]).bufFill .bits [4])
    t.pixOut 0 = 0x09090909 ∧ t.reg .outCount = 1 ∧ t.statusWord = 2 := by decide

/-- R195's example, V-A1. -/
theorem test_ariEnc_example :
    let t := ran .ariEnc (image testCaps 2 1 [pR, pG])
    t.bufRead .bits 0 = 1 ∧ [.bitLen, .compSize, .symCount].map t.reg = [3, 3, 2] := by decide +kernel
/-- V-A7: inexact intervals and both kinds of renormalization. -/
theorem test_ariEnc_bits :
    let t := ran .ariEnc (image testCaps 8 1 [pR, pR, pG, pBl, pR, pR, pW, pR])
    t.bufRead .bits 0 = 0x00000DAE ∧ t.reg .bitLen = 13 := by decide +kernel

/-- A FREQ table, a stream in one word, and `n` pixels asked for. -/
def ariInput (n : Nat) (freq : List Word) (bits bitLen : Nat) : State :=
  ((((row n).setRegNat .symCount (freq.length / 2)).setRegNat .bitLen bitLen).bufFill .freq freq).bufFill .bits
    [BitVec.ofNat 32 bits, BitVec.ofNat 32 (bits / 2 ^ 32)]

/-- V-AD10: the canonical order, not the FREQ order. -/
theorem test_ariDec_canonical_order : words (ran .ariDec (ariInput 2 [pB, 1, pA, 1] 1 1)) .pixOut 2 = [pB, pA] := by
  decide +kernel
/-- V-AD9: an entry of count 0 never matches. -/
theorem test_ariDec_zero_count : words (ran .ariDec (ariInput 2 [pA, 0, pB, 1] 0 0)) .pixOut 2 = [pB, pB] := by
  decide +kernel

/-! ## Binary64, against values of R201 and 95_test_vectors.md -/

theorem test_rn_third : rn 1 3 = .fin false (0x15555555555555 * 2 ^ 1020) := by decide +kernel
theorem test_smallest_subnormal : rn 1 (2 ^ 1074) = .fin false 1 ∧ rn 1 (2 ^ 1075) = .fin false 0 := by
  decide +kernel
theorem test_zero_over_zero : fdiv .zero .zero = .nan ∧ F64.nan.le .nan = false := by decide

/-! ## Witnesses: every statement with hypotheses has states and operands that meet them -/

theorem witness_DecodeAndEncodeAgree : Instr.wf .qrleEnc = true ∧ decode (encode .qrleEnc) = .ok .qrleEnc := by
  decide

/-- The least and the greatest OP of each range, each reserved field, and Q. -/
theorem witness_UnsupportedWords :
    decode 0x0 = .error .unsupportedOp ∧ decode 0x8 = .error .unsupportedOp ∧ decode 0xF = .error .unsupportedOp ∧
    decode 0x12 = .error .reservedBits ∧ decode 0x82 = .error .reservedBits ∧
    decode 0x202 = .error .reservedBits ∧ decode 0x80000002 = .error .reservedBits ∧
    decode 0x101 = .error .illegalQuantize ∧ fresh.seq = .idle := by decide

/-- A busy block with the given events waiting. -/
def running (v : Word) (agenda : List Event) : State := { fresh with seq := .busy, cmd := v, agenda := agenda }

theorem witness_StepRunsTheDecodedCommand :
    (running 3 []).seq = .busy ∧ decode (running 3 []).cmd = .ok .rleDec ∧ (running 3 []).agenda = [] ∧
    (running 3 [.sequencer, .reset]).agenda.head? = some .sequencer := by decide

theorem witness_InvariantHoldsAtReset : testCaps.wf ∧ Config.caps.wf := by
  refine ⟨by decide, ?_⟩
  have h1 := Nat.mod_lt Config.rawPixCap (show 2 ^ 26 > 0 by decide)
  have h2 := Nat.mod_lt Config.rawRunCap (show 2 ^ 25 > 0 by decide)
  have h3 := Nat.mod_lt Config.rawSymCap (show 2 ^ 23 > 0 by decide)
  have h4 := Nat.mod_lt Config.rawBitsCap (show 2 ^ 31 - 31 > 0 by decide)
  unfold Config.caps Caps.wf
  simp only; omega

/-- A state with a written word, about to take a command. -/
theorem witness_InvariantIsKept :
    ∃ s t : State, s.Inv ∧ step s = .next t ∧ s.mem ≠ [] ∧ t ≠ s :=
  ⟨{ wrote fresh 0x10000000 7 with agenda := [.access ⟨.write 4, 4, 4⟩] }, _,
    ⟨by decide, by decide, by decide, by decide, by decide, by decide⟩, rfl, by decide, by decide⟩

theorem witness_CapacitiesNeverChange : ∃ s t : State, step s = .next t ∧ t ≠ s :=
  ⟨running 3 [], _, rfl, by decide⟩

theorem witness_EveryCommandCompletes :
    (running 3 [.access ⟨.read, 8, 4⟩]).seq = .busy ∧ .reset ∉ (running 3 [.access ⟨.read, 8, 4⟩]).agenda := by
  decide

theorem witness_IdleBlockWaits :
    fresh.seq = .idle ∧ fresh.agenda = [] ∧
    ({ fresh with agenda := [.sequencer] } : State).agenda = .sequencer :: [] := by decide

/-- Reset comes in either sequencer state. -/
theorem witness_ResetInput :
    (running 3 [.reset]).agenda = .reset :: [] ∧ (running 3 [.reset]).seq = .busy ∧
    ({ fresh with agenda := [.reset] } : State).agenda = .reset :: [] := by decide

theorem witness_EmptyImageSucceedsAfterReset :
    (⟨1, 1, 1, 32⟩ : Caps).wf ∧ (⟨2 ^ 26, 2 ^ 25, 2 ^ 23, 2 ^ 31⟩ : Caps).wf := by decide

/-- Every register, the reserved offsets at both ends of their ranges, and the last register offset. -/
theorem witness_RegisterReadsWhileIdle :
    ∀ n ∈ ([0x00, 0x04, 0x08, 0x0C, 0x10, 0x38, 0x3C, 0x40, 0x50, 0x54, 0xFFC] : List Nat), let o : Word := BitVec.ofNat 32 n;
      (host fresh .read o).seq = .idle ∧ o.toNat < 0x1000 ∧ o.toNat % 4 = 0 ∧
      (host fresh .read o).agenda = .access ⟨.read, o, 4⟩ :: [] := by decide +kernel

theorem witness_RegisterWritesWhileIdle :
    ∀ n ∈ ([0x00, 0x04, 0x08, 0x0C, 0x10, 0x14, 0x18, 0x1C, 0x20, 0x24, 0x28, 0x2C, 0x30, 0xFFC] : List Nat), let o : Word := BitVec.ofNat 32 n;
      (host fresh (.write 2) o).seq = .idle ∧ o.toNat < 0x1000 ∧ o.toNat % 4 = 0 ∧
      (host fresh (.write 2) o).agenda = .access ⟨.write 2, o, 4⟩ :: [] := by decide +kernel

/-- The first and the last word of each buffer. -/
theorem witness_BufferWindows :
    fresh.seq = .idle ∧ fresh.caps.wf ∧
    (∀ p ∈ [(0, fresh.caps.pixCap), (1023, fresh.caps.pixCap), (0, 2 * fresh.caps.runCap),
      (1023, 2 * fresh.caps.runCap), (0, (fresh.caps.bitsCap + 31) / 32),
      (255, (fresh.caps.bitsCap + 31) / 32), (0, 2 * fresh.caps.symCap), (511, 2 * fresh.caps.symCap),
      (0, 4 * (2 * fresh.caps.symCap - 1)), (2043, 4 * (2 * fresh.caps.symCap - 1))], p.1 < p.2) ∧
    (host fresh .read 0x6000000C).agenda = .access ⟨.read, BitVec.ofNat 32 (0x60000000 + 4 * 3), 4⟩ :: [] ∧
    (host fresh (.write 7) 0x10000FFC).agenda =
      .access ⟨.write 7, BitVec.ofNat 32 (0x10000000 + 4 * 1023), 4⟩ :: [] := by decide

/-- Both ends of each reserved range. -/
theorem witness_ReservedOffsets :
    ∀ n ∈ ([0x3C, 0x54, 0xFFC, 0x1000, 0x0FFFFFFC, 0x10001000, 0x1FFFFFFC, 0x20001000, 0x2FFFFFFC,
      0x30001000, 0x3FFFFFFC, 0x40000400, 0x4FFFFFFC, 0x50000800, 0x5FFFFFFC, 0x60001FF0, 0x6FFFFFFC,
      0x70000000, 0xFFFFFFFC] : List Nat), let o : Word := BitVec.ofNat 32 n;
      o.toNat % 4 = 0 ∧
      (o.toNat = 0x3C ∨ (0x54 ≤ o.toNat ∧ o.toNat < 0x1000) ∨
        (0x1000 ≤ o.toNat ∧ o.toNat < 0x10000000) ∨
        (0x10000000 + 4 * fresh.caps.pixCap ≤ o.toNat ∧ o.toNat < 0x20000000) ∨
        (0x20000000 + 4 * fresh.caps.pixCap ≤ o.toNat ∧ o.toNat < 0x30000000) ∨
        (0x30000000 + 4 * (2 * fresh.caps.runCap) ≤ o.toNat ∧ o.toNat < 0x40000000) ∨
        (0x40000000 + 4 * ((fresh.caps.bitsCap + 31) / 32) ≤ o.toNat ∧ o.toNat < 0x50000000) ∨
        (0x50000000 + 4 * (2 * fresh.caps.symCap) ≤ o.toNat ∧ o.toNat < 0x60000000) ∨
        (0x60000000 + 4 * (4 * (2 * fresh.caps.symCap - 1)) ≤ o.toNat ∧ o.toNat < 0x70000000) ∨
        0x70000000 ≤ o.toNat) ∧
      (host fresh .read o).agenda = .access ⟨.read, o, 4⟩ :: [] ∧
      (host fresh (.write 1) o).agenda = .access ⟨.write 1, o, 4⟩ :: [] := by decide +kernel

/-- Misaligned, too narrow, too wide, and both at once. -/
theorem witness_RefusedAccesses :
    ∀ x ∈ ([⟨.read, 6, 4⟩, ⟨.read, 0xFFFFFFFF, 4⟩, ⟨.write 1, 0x10, 2⟩, ⟨.read, 0x10, 8⟩, ⟨.read, 1, 1⟩] :
      List BusAccess), x.addr.toNat % 4 ≠ 0 ∨ x.size ≠ 4 := by decide

/-- One offset for each case, the first and the last register and word among them. -/
theorem witness_ReadsWhileBusy :
    (running 3 [.access ⟨.read, 0x10, 4⟩]).seq = .busy ∧
    [0x10, 0x38, 0x10000000, 0x60001FEC, 0x00, 0x04, 0x08, 0x0C, 0x40, 0x44, 0x48, 0x4C, 0x50, 0x3C].map
        (lookupLocation testCaps) =
      [.data .width, .data .outCount, .word .pixIn 0, .word .tree 2043, .id, .cmd, .status, .ctrl, .capPix,
        .capRun, .capSym, .capNode, .capBits, .reserved] := by decide +kernel

theorem witness_WritesWhileBusyAreDropped :
    ∀ n ∈ ([0x04, 0x08, 0x0C, 0x10, 0x10000000, 0x70000000] : List Nat), let o : Word := BitVec.ofNat 32 n;
      (running 3 [.access ⟨.write 1, o, 4⟩]).seq = .busy ∧ o.toNat % 4 = 0 := by decide

theorem witness_ReadsHaveNoSideEffect :
    ∃ t, step (running 3 [.access ⟨.read, 0x10, 4⟩]) = .next t ∧
      (running 3 [.access ⟨.read, 0x10, 4⟩]).agenda = .access ⟨.read, 0x10, 4⟩ :: [] := ⟨_, rfl, rfl⟩

theorem witness_AcceptedCommandRunsOnItsSnapshot :
    ∃ s : State, s.seq = .idle ∧ s.agenda = .access ⟨.write 3, 4, 4⟩ ::
      ([⟨.write 9, 0x10, 4⟩, ⟨.read, 0x10, 4⟩].map Event.access ++ [.sequencer]) :=
  ⟨{ fresh with agenda := [.access ⟨.write 3, 4, 4⟩, .access ⟨.write 9, 0x10, 4⟩,
      .access ⟨.read, 0x10, 4⟩, .sequencer] }, rfl, rfl⟩

theorem witness_CtrlHoldsIrqEnable :
    (host fresh (.write 3) 0x0C).agenda = .access ⟨.write 3, 0x0C, 4⟩ :: [] ∧
    (host fresh (.write 3) 0x0C).seq = .idle ∧ (running 3 [.access ⟨.write 3, 0x0C, 4⟩]).seq = .busy := by decide

/-- A completion that raises the interrupt, and each way it falls. -/
theorem witness_InterruptLevel :
    (running 3 []).done = false ∧ (stepped (running 3 [])).done = true ∧
    step (running 3 []) = .next (stepped (running 3 [])) ∧
    fresh.seq = .idle ∧ (2 : Word).getLsbD 1 = true ∧ (0 : Word).getLsbD 0 = false := by
  refine ⟨by decide, by decide, rfl, by decide, by decide, by decide⟩

/-- Small capacities, so that every overflow is near. -/
def smallCaps : Caps := ⟨1024, 1, 2, 32⟩

theorem witness_EveryCompletion : ∀ i : Instr, ∃ s t : State, s.caps.wf ∧ exec i s = .next t :=
  fun i => ⟨fresh, _, by decide, exec_ran i _⟩

theorem witness_CommandsWriteOnlyTheirRow :
    (image testCaps 2 1 [pR, pG]).caps.wf ∧
    exec .rleEnc (image testCaps 2 1 [pR, pG]) = .next (ran .rleEnc (image testCaps 2 1 [pR, pG])) ∧
    (ran .rleEnc (image testCaps 2 1 [pR, pG])).mem ≠ (image testCaps 2 1 [pR, pG]).mem := by
  refine ⟨by decide, rfl, by decide⟩

/-- Two different states that agree on RLE_ENC's row. -/
theorem witness_CommandsReadOnlyTheirRow :
    let s := image testCaps 2 1 [pR, pG]
    let s' := (s.setRegNat .runCount 9).bufFill .runs [5, 6, 7, 8, 9]
    s.caps.wf ∧ s'.caps = s.caps ∧ (∀ d ∈ rowReadRegs .rleEnc, s'.reg d = s.reg d) ∧
    (∀ p ∈ rowReadBufs .rleEnc s, ∀ w < p.2, s'.bufRead p.1 w = s.bufRead p.1 w) ∧
    (∀ k < rowReadBits .rleEnc s, s'.bit k = s.bit k) ∧ s' ≠ s ∧ (ran .rleEnc s).errcode = .noError := by decide +kernel

/-- An input for each check of each command. -/
theorem witness_InputChecksInOrder :
    ((row 1).reg .pixLen).toNat ≠ 4 * (row 1).pixelCount ∧
    (((row 1025).setRegNat .pixLen 4100).reg .pixLen).toNat = 4 * ((row 1025).setRegNat .pixLen 4100).pixelCount ∧
    (row 1025).pixelCount > testCaps.pixCap ∧
    (((row 1).setRegNat .runCount 513).reg .runCount).toNat > testCaps.runCap ∧
    (((row 1).setRegNat .bitLen 8193).reg .bitLen).toNat > testCaps.bitsCap ∧
    (((row 1).setRegNat .nodeCount 512).reg .nodeCount).toNat > 2 * testCaps.symCap - 1 ∧
    (((row 1).setRegNat .symCount 257).reg .symCount).toNat > testCaps.symCap ∧
    -- the tree: no node; the root outside; an unknown kind; a child outside
    ((row 1).reg .nodeCount).toNat = 0 ∧
    (((row 1).setRegNat .nodeCount 1).setRegNat .root 1).regNat .nodeCount ≤
      (((row 1).setRegNat .nodeCount 1).setRegNat .root 1).regNat .root ∧
    (let s := ((row 1).setRegNat .nodeCount 1).bufFill .tree [2, 0, 0, 0];
      0 < (s.reg .nodeCount).toNat ∧ s.treeKind 0 ≠ 0 ∧ s.treeKind 0 ≠ 1) ∧
    (let s := ((row 1).setRegNat .nodeCount 1).bufFill .tree [1, 0, 0, 1];
      s.treeKind 0 = 1 ∧ (s.reg .nodeCount).toNat ≤ (s.treeB 0).toNat) ∧
    -- the table: no entry; one entry of count 0
    ((row 1).reg .symCount).toNat = 0 ∧
    (let s := ((row 1).setRegNat .symCount 1).bufFill .freq [pA, 0];
      ∀ e < (s.reg .symCount).toNat, s.bufRead .freq (2 * e + 1) = 0) := by decide +kernel

theorem witness_ErrorsOfEachCommand :
    (ran .freqScan (row 1)).errcode = .malformed ∧ (ran .rleDec (row 1025)).errcode = .capacity ∧
    (ran .rleDec (row 1)).errcode = .noError ∧ (ran .hufDec (row 1)).errcode = .malformed := by decide +kernel

/-- A stream of 54 ones, whose value rounds to 1.0, which no entry contains (R202). -/
def valueOne : State := ariInput 1 [pA, 1] (2 ^ 54 - 1) 54

/-- Eleven symbols that fit SYM_CAP, in a stream of more than 32 bits. -/
def elevenSymbols : State := image ⟨1024, 1, 16, 32⟩ 11 1 [0, 1, 2, 3, 4, 5, 6, 7, 8, 9, 10]

/-- Every command that can fail in processing, failing there: FREQ_SCAN with three symbols, the RLE encoders with
two runs, HUF_ENC and ARI_ENC with three symbols and with a stream of more than 32 bits, ARI_DEC with no match. -/
theorem witness_RunErrorsLeaveDraws :
    (∀ p ∈ ([(.freqScan, image smallCaps 3 1 [pA, pB, pC]), (.rleEnc, image smallCaps 2 1 [pA, pB]),
        (.qrleEnc, image smallCaps 2 1 [pR, pG]), (.hufEnc, image smallCaps 3 1 [pA, pB, pC]),
        (.ariEnc, image smallCaps 3 1 [pA, pB, pC]), (.hufEnc, elevenSymbols), (.ariEnc, elevenSymbols)] :
        List (Instr × State)), p.2.caps.wf ∧ (ran p.1 p.2).errcode = .capacity) ∧
    valueOne.caps.wf ∧ (ran .ariDec valueOne).errcode = .symbolNotFound := by decide +kernel

/-- The input checks of the states above pass. -/
theorem witness_RunErrorsLeaveDraws_checks :
    inputChecksPass .freqScan (image smallCaps 3 1 [pA, pB, pC]) ∧
    inputChecksPass .rleEnc (image smallCaps 2 1 [pA, pB]) ∧
    inputChecksPass .qrleEnc (image smallCaps 2 1 [pR, pG]) ∧
    inputChecksPass .hufEnc (image smallCaps 3 1 [pA, pB, pC]) ∧
    inputChecksPass .ariEnc (image smallCaps 3 1 [pA, pB, pC]) ∧
    inputChecksPass .hufEnc elevenSymbols ∧ inputChecksPass .ariEnc elevenSymbols ∧
    inputChecksPass .ariDec valueOne := by
  refine ⟨⟨?_, ?_⟩, ⟨?_, ?_⟩, ⟨?_, ?_⟩, ⟨?_, ?_⟩, ⟨?_, ?_⟩, ⟨?_, ?_⟩, ⟨?_, ?_⟩, ?_, ?_, ?_, ?_⟩ <;> decide +kernel

theorem witness_FreqScanResult :
    (let s := image testCaps 2 1 [pR, pG];
      s.caps.wf ∧ s.regNat .pixLen = 4 * s.pixelCount ∧ s.pixelCount ≤ s.caps.pixCap ∧
      (firstSeen s.pixIn).length ≤ s.caps.symCap) ∧
    (let s := image smallCaps 3 1 [pA, pB, pC];
      s.caps.wf ∧ s.regNat .pixLen = 4 * s.pixelCount ∧ s.pixelCount ≤ s.caps.pixCap ∧
      s.caps.symCap < (firstSeen s.pixIn).length) := by decide +kernel

theorem witness_RleEncodersResult :
    (let s := image smallCaps 2 1 [pR, pR];
      s.caps.wf ∧ s.regNat .pixLen = 4 * s.pixelCount ∧ s.pixelCount ≤ s.caps.pixCap ∧
      expandRuns [⟨pR, 2⟩] = encodedPixels .rleEnc s ∧ 1 ≤ s.caps.runCap) ∧
    (let s := image smallCaps 2 1 [pR, pG];
      s.caps.wf ∧ s.regNat .pixLen = 4 * s.pixelCount ∧ s.pixelCount ≤ s.caps.pixCap ∧
      expandRuns [⟨pR, 1⟩, ⟨pG, 1⟩] = encodedPixels .qrleEnc s ∧ s.caps.runCap < 2) := by decide +kernel

/-- At the capacities. -/
theorem witness_RleDecoderResult :
    let s := (row 1024).setRegNat .runCount 512
    s.caps.wf ∧ s.pixelCount ≤ s.caps.pixCap ∧ s.regNat .runCount ≤ s.caps.runCap := by decide +kernel

theorem witness_RleRoundTrip :
    ∀ i ∈ [Instr.rleEnc, .qrleEnc],
      let s := image testCaps 2 1 [pR, pG]
      let t := ran i s
      s.caps.wf ∧ 1 ≤ s.pixelCount ∧ exec i s = .next t ∧ t.errcode = .noError ∧
      exec .rleDec t = .next (ran .rleDec t) :=
  fun i hi => ⟨by decide, by decide, exec_ran _ _, by revert i; decide +kernel, exec_ran _ _⟩

theorem witness_QuantRoundsToNearest : (0 : Nat) < 256 ∧ (255 : Nat) < 256 := by decide +kernel

theorem witness_BitsArePacked : ([true, false] : List Bool).length < 2 ^ 32 := by decide +kernel

theorem witness_HuffmanTreeShape : ([⟨pR, 1⟩] : List FreqEntry) ≠ [] := by decide +kernel

theorem witness_HuffmanMergesTheTwoLowest :
    2 ≤ [0, 1].length ∧ ([⟨pR, 1⟩, ⟨pG, 2⟩] : List FreqEntry) ≠ [] := by decide +kernel

/-- One symbol, and several. -/
theorem witness_CodesArePrefixFree :
    (([⟨pR, 1⟩] : List FreqEntry).map FreqEntry.pix).Nodup ∧ ([⟨pR, 1⟩] : List FreqEntry).length = 1 ∧
    (([⟨pR, 1⟩, ⟨pG, 2⟩, ⟨pBl, 2⟩] : List FreqEntry).map FreqEntry.pix).Nodup ∧
    2 ≤ ([⟨pR, 1⟩, ⟨pG, 2⟩, ⟨pBl, 2⟩] : List FreqEntry).length := by decide +kernel

/-- HUF_ENC with room, with too many symbols, and with too many bits. -/
theorem witness_HufEncoderResult :
    (∀ s ∈ [image smallCaps 32 1 (List.replicate 32 pA), image smallCaps 3 1 [pA, pB, pC],
        image smallCaps 33 1 (List.replicate 33 pA)],
      s.caps.wf ∧ s.regNat .pixLen = 4 * s.pixelCount ∧ s.pixelCount ≤ s.caps.pixCap) ∧
    (let T := countTable (List.replicate 32 pA);
      T.length ≤ smallCaps.symCap ∧
      (codeBits (codeTable (huffmanBuild T).1 (huffmanBuild T).2) (List.replicate 32 pA)).length ≤ smallCaps.bitsCap) ∧
    smallCaps.symCap < (countTable [pA, pB, pC]).length ∧
    (let T := countTable (List.replicate 33 pA);
      smallCaps.bitsCap <
        (codeBits (codeTable (huffmanBuild T).1 (huffmanBuild T).2) (List.replicate 33 pA)).length) := by decide +kernel

/-- A valid tree with a leaf at the root, one with an internal root, and the empty image with no tree. -/
theorem witness_HufDecoderResult :
    (let s := ((row 2).setRegNat .nodeCount 1).bufFill .tree [0, 3, pK, 0];
      s.caps.wf ∧ s.pixelCount ≤ s.caps.pixCap ∧ s.regNat .bitLen ≤ s.caps.bitsCap ∧
      s.regNat .nodeCount ≤ 2 * s.caps.symCap - 1 ∧ s.treeValid = true ∧ s.treeKind (s.regNat .root) = 0) ∧
    (let s := twoLeafTree 2 1 2;
      s.caps.wf ∧ s.pixelCount ≤ s.caps.pixCap ∧ s.regNat .bitLen ≤ s.caps.bitsCap ∧
      s.regNat .nodeCount ≤ 2 * s.caps.symCap - 1 ∧ s.treeValid = true ∧ s.treeKind (s.regNat .root) ≠ 0) ∧
    fresh.pixelCount = 0 := by decide +kernel

/-- The right edge to a leaf, and the left edge to an internal node. -/
theorem witness_HufDecodingWalksTheTree :
    (twoLeafTree 2 1 2).treeKind ((twoLeafTree 2 1 2).treeB 2).toNat = 0 ∧
    (let s := (((row 1).setRegNat .nodeCount 2).bufFill .tree [1, 0, 0, 1, 0, 1, pK, 0]);
      s.treeKind (s.treeA 0).toNat ≠ 0) := by decide +kernel

theorem witness_HuffmanRoundTrip :
    let s := image testCaps 3 1 [pR, pG, pG]
    let t := ran .hufEnc s
    s.caps.wf ∧ 1 ≤ s.pixelCount ∧ exec .hufEnc s = .next t ∧ t.errcode = .noError ∧
    exec .hufDec t = .next (ran .hufDec t) := ⟨by decide, by decide, rfl, by decide +kernel, rfl⟩

/-- A fraction up to 1 and one above it; a tie for each parity of the significand; an exact zero and a signed one;
a subnormal result; an overflow; a quotient and both divisions by zero. -/
theorem witness_RoundingIsToNearestEven :
    (0 : Nat) < 3 ∧ (1 : Nat) ≤ 3 ∧ ¬(4 : Nat) ≤ 3 ∧
    F64.round false (2 ^ 53 + 1) 1 = .fin false (2 ^ 53) ∧ F64.round true (2 ^ 53 + 3) 1 = .fin true (2 ^ 53 + 4) ∧
    fsub .half .half = .fin false 0 ∧ fadd (.fin true 0) (.fin true 0) = .fin true 0 ∧
    fmul (.fin true 3) .half = .fin true 2 ∧ fmul (.fin true (2 ^ 2097)) .two = .inf true ∧
    fdiv .one (.fin true (2 ^ 1075)) = .fin true (2 ^ 1073) ∧ fdiv .one (.fin true 0) = .inf true ∧
    fdiv .zero .zero = .nan := by decide +kernel

/-- The last exact weight and the first that is 0. -/
theorem witness_BitWeights : (1 : Nat) ≤ 1074 ∧ (1 : Nat) ≤ 1075 := by decide +kernel

theorem witness_CumulativeTableIsContiguous : 0 < totalCount [⟨pR, 1⟩, ⟨pG, 2⟩, ⟨pR, 0⟩] := by decide +kernel

/-- Room, and none. -/
theorem witness_RenormalizationLoop :
    Stream.empty.len ≤ 32 ∧ (⟨List.replicate 32 true, 32⟩ : Stream).len ≤ 32 ∧
    renormalize 32 .start .empty = .ok (.start, .empty) := by decide +kernel

theorem witness_RunawayRenormalization :
    Stream.empty.len ≤ 32 ∧ F64.half ≠ .nan ∧ F64.zero ≠ .nan ∧ F64.one ≠ .nan := by decide +kernel

/-- ARI_ENC with room, with too many symbols, and with too many bits. -/
theorem witness_AriEncoderResult :
    (∀ s ∈ [image smallCaps 2 1 [pA, pB], image smallCaps 3 1 [pA, pB, pC],
        image smallCaps 32 1 (List.replicate 16 [pA, pB]).flatten],
      s.caps.wf ∧ s.regNat .pixLen = 4 * s.pixelCount ∧ s.pixelCount ≤ s.caps.pixCap) ∧
    (let T := countTable [pA, pB];
      T.length ≤ smallCaps.symCap ∧
      ariEncode smallCaps.bitsCap T [pA, pB] = .ok ⟨[false, true, false], 3⟩) ∧
    smallCaps.symCap < (countTable [pA, pB, pC]).length ∧
    (let P := (List.replicate 16 [pA, pB]).flatten;
      ariEncode smallCaps.bitsCap (countTable P) P = .error .capacity) ∧
    pB ∈ [pA, pB] := by decide +kernel

/-- The empty image, and five pixels of one colour (V-A3). -/
theorem witness_AriEncoderOneColour :
    (fresh.caps.wf ∧ fresh.regNat .pixLen = 4 * fresh.pixelCount ∧ fresh.pixelCount ≤ fresh.caps.pixCap ∧
      ∀ x ∈ fresh.pixIn, x = pK) ∧
    (let s := image testCaps 5 1 (List.replicate 5 pK);
      s.caps.wf ∧ s.regNat .pixLen = 4 * s.pixelCount ∧ s.pixelCount ≤ s.caps.pixCap ∧ ∀ x ∈ s.pixIn, x = pK) := by
  have h0 : fresh.pixIn = [] := by decide
  have h5 : (image testCaps 5 1 (List.replicate 5 pK)).pixIn = List.replicate 5 pK := by decide +kernel
  refine ⟨⟨by decide, by decide, by decide, by simp [h0]⟩, by decide, by decide +kernel, by decide +kernel, ?_⟩
  rw [h5]
  exact fun x hx => List.eq_of_mem_replicate hx

theorem witness_FinalBitIsZero :
    let s := image testCaps 2 1 [pR, pG]
    s.caps.wf ∧ exec .ariEnc s = .next (ran .ariEnc s) ∧ (ran .ariEnc s).errcode = .noError :=
  ⟨by decide, rfl, by decide +kernel⟩

/-- ARI_DEC that finds every symbol, one that finds none, and the empty image without a table; a pass that finds
a symbol and one that finds none. -/
theorem witness_AriDecoderResult :
    (let s := ariInput 2 [pR, 1, pG, 1] 1 3;
      s.caps.wf ∧ s.pixelCount ≤ s.caps.pixCap ∧ s.regNat .symCount ≤ s.caps.symCap ∧
      s.regNat .bitLen ≤ s.caps.bitsCap ∧ 0 < totalCount s.freqList ∧
      ariDecodeFrom (cumTable s.freqList) (encodedValue s.bitList) s.pixelCount .start = .ok [pR, pG]) ∧
    (valueOne.caps.wf ∧ valueOne.pixelCount ≤ valueOne.caps.pixCap ∧
      valueOne.regNat .symCount ≤ valueOne.caps.symCap ∧ valueOne.regNat .bitLen ≤ valueOne.caps.bitsCap ∧
      0 < totalCount valueOne.freqList ∧
      ariDecodeFrom (cumTable valueOne.freqList) (encodedValue valueOne.bitList) valueOne.pixelCount .start =
        .error .symbolNotFound) ∧
    fresh.pixelCount = 0 ∧
    findSymbol (cumTable [⟨pA, 1⟩]) .start .half = some ⟨pA, .zero, .one⟩ ∧
    findSymbol (cumTable [⟨pA, 1⟩]) .start .one = none := by decide +kernel

/-- The second entry, where it alone holds the value; the first, where both do; and none; an empty interval, a value
of 1.0, and a negative value. -/
theorem witness_FindMatchesNothing :
    findSymbol (cumTable [⟨pA, 1⟩, ⟨pB, 1⟩]) .start .half = some ⟨pB, .half, .one⟩ ∧
    findSymbol [⟨pA, .zero, .one⟩, ⟨pB, .zero, .one⟩] .start .half = some ⟨pA, .zero, .one⟩ ∧
    findSymbol [] .start .half = none ∧
    0 < totalCount [⟨pR, 1⟩] ∧ fsub F64.half F64.half = .fin false 0 ∧
    F64.one.le (fdiv (fsub .one .zero) (fsub .one .zero)) = true ∧
    (fdiv (fsub .zero .half) (fsub .one .half)).lt .zero = true := by decide +kernel

/-- One pixel, and two of different colours. -/
theorem witness_ArithmeticRoundTripUpToTwo :
    ∀ s ∈ [image testCaps 1 1 [pR], image testCaps 2 1 [pR, pG]],
      s.caps.wf ∧ 1 ≤ s.pixelCount ∧ s.pixelCount ≤ 2 ∧ (ran .ariEnc s).errcode = .noError ∧
      (ran .ariDec (ran .ariEnc s)).errcode = .noError := by decide +kernel

theorem witness_ArithmeticDecodesWrongPixels :
    (symbolKey pA).toNat < (symbolKey pB).toNat ∧ (symbolKey pB).toNat < (symbolKey pC).toNat := by decide +kernel

end Sys2Proof.Tests
end

section
/-! The invariant: it holds at reset, and every event keeps it (R9, R35, R77, R100, R236). Each part of a step
has a lemma of its own; `step_eq` puts them together. -/

namespace Sys2Proof.Machine

/-! ## Reset -/

/-- The capacities of `State.reset` are in the ranges of R9. -/
theorem configCaps_wf : Config.caps.wf := by
  unfold Caps.wf Config.caps
  simp only
  omega

theorem inv_resetWith {c : Caps} (h : c.wf) : (State.resetWith c).Inv where
  legal := h
  canonical := .nil
  inside := fun _ hx => absurd hx List.not_mem_nil
  errAgrees := rfl
  busyClear := fun _ => ⟨rfl, rfl⟩
  epochTaken := Nat.zero_lt_one

/-- A reset keeps the build and takes the draw of the new contents (R260). -/
theorem State.Inv.applyReset {s : State} (h : s.Inv) : s.applyReset.Inv :=
  { inv_resetWith h.legal with epochTaken := Nat.lt_succ_self s.draws }

/-! ## Parts of an access -/

theorem State.Inv.memoryOk {s : State} (h : s.Inv) : memoryOk s.caps s.mem := ⟨h.canonical, h.inside⟩

theorem State.Inv.popEvent {s : State} (h : s.Inv) : s.popEvent.Inv := { h with }

theorem State.Inv.answer {s : State} (h : s.Inv) (r : BusReply) : (s.answer r).Inv := { h with }

theorem State.Inv.advanceDraws {s : State} (h : s.Inv) : s.advanceDraws.Inv :=
  { h with epochTaken := Nat.lt_succ_of_lt h.epochTaken }

theorem State.Inv.setReg {s : State} (h : s.Inv) (d : DataReg) (v : Word) : (s.setReg d v).Inv := { h with }

theorem State.Inv.writeCtrl {s : State} (h : s.Inv) (v : Word) : (s.writeCtrl v).Inv := { h with }

theorem State.Inv.acceptCommand {s : State} (h : s.Inv) (v : Word) : (s.acceptCommand v).Inv :=
  { h with errAgrees := rfl, busyClear := fun _ => ⟨rfl, rfl⟩ }

/-- The acknowledge only clears DONE (R239). -/
theorem State.Inv.writeStatus {s : State} (h : s.Inv) (v : Word) : (s.writeStatus v).Inv := by
  unfold State.writeStatus
  split
  · exact { h with busyClear := fun hb => ⟨rfl, (h.busyClear hb).2⟩ }
  · exact h

theorem State.Inv.bufWrite {s : State} (h : s.Inv) {b : Buf} {w : Nat} (hw : w < b.words s.caps) (v : Word) :
    (s.bufWrite b w v).Inv :=
  have hm := h.memoryOk.putWord hw v
  { h with canonical := hm.1, inside := hm.2 }

theorem State.storeAt_data (s : State) (v : Word) (d : DataReg) :
    s.storeAt v (.data d) = if d.writable then s.setReg d v else s := rfl

/-- A store at a location that the address map names keeps the invariant. -/
theorem State.Inv.storeAt {s : State} (h : s.Inv) (v : Word) {l : Location}
    (hl : ∀ b w, l = .word b w → w < b.words s.caps) : (s.storeAt v l).Inv := by
  cases l with
  | cmd => exact h.acceptCommand v
  | status => exact h.writeStatus v
  | ctrl => exact h.writeCtrl v
  | data d =>
    rw [State.storeAt_data]
    split
    · exact h.setReg d v
    · exact h
  | word b w => exact h.bufWrite (hl b w rfl) v
  | id | capPix | capRun | capSym | capNode | capBits | reserved => exact h

theorem State.Inv.memRead {s : State} (h : s.Inv) (a : Nat) : (s.memRead a).Inv := by
  unfold State.memRead
  simp only
  split
  · exact (h.answer _).advanceDraws
  · exact h.answer _

theorem State.Inv.memWrite {s : State} (h : s.Inv) (a : Nat) (v : Word) : (s.memWrite a v).Inv := by
  unfold State.memWrite
  split
  · exact h.answer _
  · exact (h.storeAt v fun _ _ => lookup_eq_word).answer _

/-- Every host access, refused or not, keeps the invariant (R72, R76). -/
theorem State.Inv.busAccess {s : State} (h : s.Inv) (x : BusAccess) : (s.busAccess x).Inv := by
  unfold State.busAccess
  split
  · split
    · exact h.memRead _
    · exact h.memWrite _ _
  · exact h.answer _

/-! ## Completions and steps -/

/-- A completion keeps the invariant if its memory is well-formed and it gives back no draw (R236). -/
theorem State.Inv.of_completed {s t : State} {code : ErrCode} (h : s.Inv) (hc : Completed s t code)
    (hm : Machine.memoryOk s.caps t.mem) (hd : s.draws ≤ t.draws) : t.Inv where
  legal := hc.caps ▸ h.legal
  canonical := hm.1
  inside := hc.caps ▸ hm.2
  errAgrees := by rw [hc.err, hc.errcode]
  busyClear := fun hb => by rw [hc.seq] at hb; cases hb
  epochTaken := hc.memEpoch ▸ lt_of_lt_of_le h.epochTaken hd

/-- A running command's completion keeps the invariant, supported or not. -/
theorem State.Inv.complete {s : State} (h : s.Inv) : (s.complete (runningEnding s)).Inv := by
  have hc := running_completed s
  unfold runningEnding at hc ⊢
  cases hd : decode s.cmd with
  | ok i =>
    rw [hd] at hc
    exact h.of_completed hc (complete_memoryOk i h.memoryOk) (complete_draws_le i s)
  | error e =>
    rw [hd] at hc
    exact h.of_completed hc h.memoryOk (le_refl _)

theorem State.Inv.turn {s : State} (h : s.Inv) : s.turn.Inv := by
  cases hs : s.seq with
  | idle => rw [turn_idle hs]; exact h
  | busy => rw [turn_busy hs]; exact h.complete

theorem State.Inv.afterEvent {s : State} (h : s.Inv) : s.afterEvent.Inv := by
  unfold State.afterEvent
  split
  · exact h.turn
  · exact h.popEvent.turn
  · exact h.popEvent.busAccess _
  · exact h.popEvent.applyReset

/-- Settles O8: the state after an event is `afterEvent`, and each kind of event keeps the invariant. -/
theorem invariantIsKept : Obligations.InvariantIsKept := by
  intro s t h hst
  rw [step_eq] at hst
  cases hst
  exact h.afterEvent

/-- Settles O7: the reset state of a legal build has the invariant, and `Config.caps` is one. -/
theorem invariantHoldsAtReset : Obligations.InvariantHoldsAtReset :=
  ⟨inv_resetWith configCaps_wf, fun _ => inv_resetWith⟩

end Sys2Proof.Machine
end

section
/-! No event changes the capacities (R9, R30, R47). -/

namespace Sys2Proof.Machine

@[simp] theorem State.storeAt_caps (s : State) (v : Word) (l : Location) : (s.storeAt v l).caps = s.caps := by
  cases l with
  | status => exact State.writeStatus_caps s v
  | data d => rw [State.storeAt_data]; split <;> rfl
  | _ => rfl

@[simp] theorem State.memRead_caps (s : State) (a : Nat) : (s.memRead a).caps = s.caps := by
  obtain ⟨r, d, h, -⟩ := memRead_frame s a
  rw [h]

@[simp] theorem State.memWrite_caps (s : State) (a : Nat) (v : Word) : (s.memWrite a v).caps = s.caps := by
  unfold State.memWrite
  split <;> simp

@[simp] theorem State.busAccess_caps (s : State) (x : BusAccess) : (s.busAccess x).caps = s.caps := by
  unfold State.busAccess
  split
  · split <;> simp
  · rfl

@[simp] theorem State.applyReset_caps (s : State) : s.applyReset.caps = s.caps := rfl

@[simp] theorem State.turn_caps (s : State) : s.turn.caps = s.caps := by
  cases hs : s.seq with
  | idle => rw [turn_idle hs]
  | busy => rw [turn_busy hs]; exact (running_completed s).caps

@[simp] theorem State.afterEvent_caps (s : State) : s.afterEvent.caps = s.caps := by
  unfold State.afterEvent
  split <;> simp

/-- Settles O9: no kind of event changes the capacities. -/
theorem capacitiesNeverChange : Obligations.CapacitiesNeverChange := by
  intro s t hst
  rw [step_eq] at hst
  cases hst
  exact State.afterEvent_caps s

end Sys2Proof.Machine
end

section
/-! The frame of every command (R15, R108). -/

namespace Sys2Proof.Machine

/-- Settles O28: every meaning is a completion, and a completion keeps what is outside the row. -/
theorem commandsWriteOnlyTheirRow : Obligations.CommandsWriteOnlyTheirRow := by
  intro i s t _ hst
  rw [exec_eq] at hst
  cases hst
  exact complete_keptOutside i s

end Sys2Proof.Machine
end

section
/-! A command's outcome depends only on its row of reads (R15, R108): on two states that agree on it the endings
are the same, and the same values are written to the same places. -/

namespace Sys2Proof.Machine

/-! ## Writing the same to two states -/

/-- The windows begin at whole words (R74). -/
theorem Buf.base_mod_four (b : Buf) : b.base % 4 = 0 := by cases b <;> rfl

/-- A fill gives a word of the buffers a value of its own, or leaves it, whatever the state: words are aligned. -/
theorem bufRead_bufFill_uniform (b c : Buf) (vs : List Word) (w : Nat) :
    (∃ v, ∀ s : State, (s.bufFill b vs).bufRead c w = v) ∨
      ∀ s : State, (s.bufFill b vs).bufRead c w = s.bufRead c w := by
  have hb := b.base_mod_four
  have hc := c.base_mod_four
  by_cases hin : b.addr 0 ≤ c.addr w ∧ c.addr w < b.addr 0 + 4 * vs.length
  · obtain ⟨i, hi⟩ : ∃ i, c.addr w = b.addr i := ⟨(c.addr w - b.base) / 4, by unfold Buf.addr at *; omega⟩
    have hlt : i < vs.length := by rw [hi] at hin; unfold Buf.addr at hin; omega
    refine .inl ⟨vs[i], fun s => ?_⟩
    rw [← State.bufRead_bufFill_inside s b vs i hlt]
    unfold State.bufRead
    rw [hi]
  · refine .inr fun s => State.bufRead_congr fun j hj => State.readByte_bufFill_outside _ _ _ _ ?_
    unfold Buf.addr at *
    omega

/-- `t` and `t'` come from `s` and `s'` by the same fills and the same register writes; `regs` are the registers
written. -/
inductive SameWrites (s s' : State) : List DataReg → State → State → Prop where
  | refl : SameWrites s s' [] s s'
  | bufFill {regs : List DataReg} {t t' : State} (h : SameWrites s s' regs t t') (b : Buf) (vs : List Word) :
      SameWrites s s' regs (t.bufFill b vs) (t'.bufFill b vs)
  | setRegNat {regs : List DataReg} {t t' : State} (h : SameWrites s s' regs t t') (d : DataReg) (n : Nat) :
      SameWrites s s' (d :: regs) (t.setRegNat d n) (t'.setRegNat d n)

theorem State.reg_setRegNat (s : State) (d e : DataReg) (n : Nat) :
    (s.setRegNat d n).reg e = if e = d then BitVec.ofNat 32 n else s.reg e := Regs.get_set _ _ _ _

theorem SameWrites.reg {s s' t t' : State} {regs : List DataReg} (h : SameWrites s s' regs t t') {d : DataReg}
    (hd : d ∈ regs ∨ s'.reg d = s.reg d) : t'.reg d = t.reg d := by
  induction h with
  | refl => exact hd.resolve_left List.not_mem_nil
  | bufFill _ b vs ih => exact ih hd
  | setRegNat _ e n ih =>
    rw [State.reg_setRegNat, State.reg_setRegNat]
    split
    · rfl
    · exact ih (hd.imp_left fun hm => (List.mem_cons.1 hm).resolve_left ‹_›)

theorem SameWrites.bufRead {s s' t t' : State} {regs : List DataReg} (h : SameWrites s s' regs t t') (c : Buf)
    (w : Nat) : t'.bufRead c w = t.bufRead c w ∨
      (t.bufRead c w = s.bufRead c w ∧ t'.bufRead c w = s'.bufRead c w) := by
  induction h with
  | refl => exact .inr ⟨rfl, rfl⟩
  | bufFill _ b vs ih =>
    rcases bufRead_bufFill_uniform b c vs w with ⟨v, hv⟩ | hkept
    · exact .inl (by rw [hv, hv])
    · rw [hkept, hkept]
      exact ih
  | setRegNat _ d n ih => exact ih

/-! ## The write operations of the commands -/

theorem SameWrites.writeFreq {s s' t t' : State} {regs : List DataReg} (h : SameWrites s s' regs t t')
    (T : List FreqEntry) : SameWrites s s' (.symCount :: regs) (t.writeFreq T) (t'.writeFreq T) :=
  (h.bufFill _ _).setRegNat _ _

theorem SameWrites.writeRuns {s s' t t' : State} {regs : List DataReg} (h : SameWrites s s' regs t t')
    (U : List Run) : SameWrites s s' (.runCount :: regs) (t.writeRuns U) (t'.writeRuns U) :=
  (h.bufFill _ _).setRegNat _ _

theorem SameWrites.writeBits {s s' t t' : State} {regs : List DataReg} (h : SameWrites s s' regs t t')
    (S : List Bool) : SameWrites s s' (.bitLen :: regs) (t.writeBits S) (t'.writeBits S) :=
  (h.bufFill _ _).setRegNat _ _

theorem SameWrites.writeTree {s s' t t' : State} {regs : List DataReg} (h : SameWrites s s' regs t t')
    (nodes : List HuffNode) (root : Nat) :
    SameWrites s s' (.root :: .nodeCount :: regs) (t.writeTree nodes root) (t'.writeTree nodes root) :=
  ((h.bufFill _ _).setRegNat _ _).setRegNat _ _

/-- The size report also reads PIX_LEN. -/
theorem SameWrites.writeSizes {s s' t t' : State} {regs : List DataReg} (h : SameWrites s s' regs t t')
    (hlen : s'.reg .pixLen = s.reg .pixLen) (n : Nat) :
    SameWrites s s' (.compSize :: .origSize :: regs) (t.writeSizes n) (t'.writeSizes n) := by
  have hp : t'.regNat .pixLen = t.regNat .pixLen := congrArg BitVec.toNat (h.reg (.inr hlen))
  unfold State.writeSizes
  rw [hp]
  exact (h.setRegNat _ _).setRegNat _ _

theorem sameWrites_writeOut {s s' : State} (hN : s'.pixelCount = s.pixelCount) (l : List Word) :
    SameWrites s s' [.outCount] (s.writeOut l) (s'.writeOut l) := by
  unfold State.writeOut
  rw [hN]
  exact (SameWrites.refl.bufFill _ _).setRegNat _ _

/-! ## Endings -/

/-- Two endings of one code, which on success have written the same values, to all of `regs` at least. -/
inductive SameEnding (s s' : State) (regs : List DataReg) : Ending → Ending → Prop where
  | success {t t' : State} {written : List DataReg} (h : SameWrites s s' written t t') (hr : regs ⊆ written) :
      SameEnding s s' regs (.success t) (.success t')
  | checkError {c : ErrCode} (hc : c ≠ .noError) : SameEnding s s' regs (.checkError c) (.checkError c)
  | runError {c : ErrCode} {w w' : WriteSet} (hc : c ≠ .noError) :
      SameEnding s s' regs (.runError c w) (.runError c w')

theorem SameEnding.errcode {s s' : State} {regs : List DataReg} {e e' : Ending} (h : SameEnding s s' regs e e') :
    (s'.complete e').errcode = (s.complete e).errcode := by
  cases h <;> rfl

/-- A success writes the same to the registers, and to each word the same or nothing. -/
theorem SameEnding.written {s s' : State} {regs : List DataReg} {e e' : Ending} (h : SameEnding s s' regs e e')
    (he : (s.complete e).errcode = .noError) :
    (∀ d ∈ regs, (s'.complete e').reg d = (s.complete e).reg d) ∧
      ∀ b w, (s'.complete e').bufRead b w = (s.complete e).bufRead b w ∨
        ((s.complete e).bufRead b w = s.bufRead b w ∧ (s'.complete e').bufRead b w = s'.bufRead b w) := by
  cases h with
  | success h hr => exact ⟨fun d hd => h.reg (.inl (hr hd)), h.bufRead⟩
  | checkError hc => exact absurd he hc
  | runError hc => exact absurd he hc

/-- The errors of the checks of R233. -/
theorem checkInputPixels_some {s : State} {c : ErrCode} (h : s.checkInputPixels = some c) :
    c = .malformed ∨ c = .capacity := by
  unfold State.checkInputPixels at h
  split_ifs at h <;> cases h <;> simp

theorem checkRleDec_some {s : State} {c : ErrCode} (h : s.checkRleDec = some c) : c = .capacity := by
  unfold State.checkRleDec at h
  split_ifs at h <;> cases h <;> rfl

theorem checkHufDec_some {s : State} {c : ErrCode} (h : s.checkHufDec = some c) :
    c = .malformed ∨ c = .capacity := by
  unfold State.checkHufDec at h
  split_ifs at h <;> cases h <;> simp

theorem checkAriDec_some {s : State} {c : ErrCode} (h : s.checkAriDec = some c) :
    c = .malformed ∨ c = .capacity := by
  unfold State.checkAriDec at h
  split_ifs at h <;> cases h <;> simp

theorem ne_noError_of_check {c : ErrCode} (h : c = .malformed ∨ c = .capacity) : c ≠ .noError := by
  rcases h with rfl | rfl <;> decide

/-! ## Agreement on the row of reads -/

/-- `s'` agrees with `s` on what the row of R108 of `i` lists as read, and has the same capacities. -/
structure ReadsAgree (i : Instr) (s s' : State) : Prop where
  caps  : s'.caps = s.caps
  regs  : ∀ d ∈ rowReadRegs i, s'.reg d = s.reg d
  words : ∀ p ∈ rowReadBufs i s, ∀ w < p.2, s'.bufRead p.1 w = s.bufRead p.1 w
  bits  : ∀ k < rowReadBits i s, s'.bit k = s.bit k

theorem ReadsAgree.regNat {i : Instr} {s s' : State} (h : ReadsAgree i s s') {d : DataReg}
    (hd : d ∈ rowReadRegs i) : s'.regNat d = s.regNat d := congrArg BitVec.toNat (h.regs d hd)

/-- Every command reads WIDTH and HEIGHT. -/
theorem ReadsAgree.pixelCount {i : Instr} {s s' : State} (h : ReadsAgree i s s') :
    s'.pixelCount = s.pixelCount := by
  unfold State.pixelCount
  rw [h.regNat (d := .width) (by cases i <;> decide), h.regNat (d := .height) (by cases i <;> decide)]

/-- The commands that read PIX_IN see the same image, and check it alike. -/
theorem ReadsAgree.image {i : Instr} {s s' : State} (h : ReadsAgree i s s') (hlen : .pixLen ∈ rowReadRegs i)
    (hpix : (.pixIn, s.pixelCount) ∈ rowReadBufs i s) :
    s'.pixIn = s.pixIn ∧ s'.checkInputPixels = s.checkInputPixels := by
  constructor
  · unfold State.pixIn
    rw [h.pixelCount]
    exact List.map_congr_left fun w hw => h.words _ hpix w (List.mem_range.1 hw)
  · unfold State.checkInputPixels
    rw [h.pixelCount, h.regNat hlen, h.caps]

theorem ReadsAgree.bitList {i : Instr} {s s' : State} (h : ReadsAgree i s s') (hlen : .bitLen ∈ rowReadRegs i)
    (hbits : rowReadBits i s = s.regNat .bitLen) : s'.bitList = s.bitList := by
  unfold State.bitList
  rw [h.regNat hlen]
  exact List.map_congr_left fun k hk => h.bits k (by rw [hbits]; exact List.mem_range.1 hk)

theorem ReadsAgree.runList {s s' : State} (h : ReadsAgree .rleDec s s') : s'.runList = s.runList := by
  have hw : ∀ w < 2 * s.regNat .runCount, s'.bufRead .runs w = s.bufRead .runs w :=
    h.words _ (List.mem_singleton.2 rfl)
  unfold State.runList
  rw [h.regNat (by decide)]
  refine List.map_congr_left fun r hr => ?_
  have := List.mem_range.1 hr
  unfold State.run
  rw [hw _ (by omega), hw _ (by omega)]

theorem ReadsAgree.freqList {s s' : State} (h : ReadsAgree .ariDec s s') : s'.freqList = s.freqList := by
  have hw : ∀ w < 2 * s.regNat .symCount, s'.bufRead .freq w = s.bufRead .freq w :=
    h.words _ (List.mem_singleton.2 rfl)
  unfold State.freqList
  rw [h.regNat (by decide)]
  refine List.map_congr_left fun e he => ?_
  have := List.mem_range.1 he
  unfold State.freqEntry
  rw [hw _ (by omega), hw _ (by omega)]

/-! ## The tree of HUF_DEC -/

/-- HUF_DEC sees the same nodes. -/
theorem ReadsAgree.treeNode {s s' : State} (h : ReadsAgree .hufDec s s') {k : Nat}
    (hk : k < s.regNat .nodeCount) :
    s'.treeKind k = s.treeKind k ∧ s'.treeA k = s.treeA k ∧ s'.treeB k = s.treeB k := by
  have hw : ∀ w < 4 * s.regNat .nodeCount, s'.bufRead .tree w = s.bufRead .tree w :=
    h.words _ (List.mem_singleton.2 rfl)
  exact ⟨hw _ (by omega), hw _ (by omega), hw _ (by omega)⟩

theorem ReadsAgree.treeValid {s s' : State} (h : ReadsAgree .hufDec s s') : s'.treeValid = s.treeValid := by
  have hnode : ∀ k ∈ List.range (s.regNat .nodeCount), s'.treeNodeValid k = s.treeNodeValid k := fun k hk => by
    obtain ⟨hkind, ha, hb⟩ := h.treeNode (List.mem_range.1 hk)
    unfold State.treeNodeValid
    rw [hkind, ha, hb, h.regNat (by decide)]
  unfold State.treeValid
  rw [h.regNat (d := .nodeCount) (by decide), h.regNat (d := .root) (by decide)]
  congr 1
  rw [Bool.eq_iff_iff, List.all_eq_true, List.all_eq_true]
  exact forall₂_congr fun k hk => by rw [hnode k hk]

/-- What a valid tree has (R172): the root is a node, and so are the children of every internal node. -/
theorem treeValid_spec {s : State} (h : s.treeValid = true) :
    s.regNat .root < s.regNat .nodeCount ∧ ∀ k < s.regNat .nodeCount, s.treeKind k ≠ 0 →
      ∀ b, s.treeChild k b < s.regNat .nodeCount := by
  simp only [State.treeValid, State.treeNodeValid, Bool.and_eq_true, Bool.or_eq_true, decide_eq_true_eq,
    List.all_eq_true, List.mem_range, beq_iff_eq] at h
  obtain ⟨⟨-, hroot⟩, hnodes⟩ := h
  refine ⟨hroot, fun k hk hkind b => ?_⟩
  obtain ⟨⟨-, ha⟩, hb⟩ := (hnodes k hk).resolve_left hkind
  cases b
  · exact ha
  · exact hb

/-- The decoding loop stays on internal nodes of the tree, so it reads no more than the tree. -/
theorem ReadsAgree.hufDecodeFrom {s s' : State} (h : ReadsAgree .hufDec s s') (hv : s.treeValid = true)
    (hroot : s.treeKind (s.regNat .root) ≠ 0) (bits : List Bool) (room cur : Nat)
    (hcur : cur < s.regNat .nodeCount) (hkind : s.treeKind cur ≠ 0) :
    hufDecodeFrom s' room cur bits = hufDecodeFrom s room cur bits := by
  obtain ⟨hrootlt, hchild⟩ := treeValid_spec hv
  induction bits generalizing room cur with
  | nil => rfl
  | cons b bits ih =>
    have hlt := hchild cur hcur hkind b
    have hstep : s'.treeChild cur b = s.treeChild cur b := by
      obtain ⟨-, ha, hb⟩ := h.treeNode hcur
      unfold State.treeChild
      rw [ha, hb]
    obtain ⟨hk, ha, -⟩ := h.treeNode hlt
    rw [Machine.hufDecodeFrom, Machine.hufDecodeFrom, hstep, hk, ha, h.regNat (by decide)]
    by_cases hleaf : s.treeKind (s.treeChild cur b) = 0
    · rw [if_pos hleaf, if_pos hleaf, ih _ _ hrootlt hroot]
    · rw [if_neg hleaf, if_neg hleaf, ih _ _ hlt hleaf]

theorem ReadsAgree.hufDecoded {s s' : State} (h : ReadsAgree .hufDec s s')
    (hv : s.pixelCount = 0 ∨ s.treeValid = true) : hufDecoded s' = hufDecoded s := by
  unfold Machine.hufDecoded
  rw [h.pixelCount]
  by_cases h0 : s.pixelCount = 0
  · rw [if_pos h0, if_pos h0]
  · have hvalid := hv.resolve_left h0
    have hrootlt := (treeValid_spec hvalid).1
    obtain ⟨hk, ha, -⟩ := h.treeNode hrootlt
    rw [if_neg h0, if_neg h0, h.regNat (d := .root) (by decide), h.regNat (d := .bitLen) (by decide), hk, ha,
      h.bitList (by decide) rfl]
    by_cases hleaf : s.treeKind (s.regNat .root) = 0
    · rw [if_pos hleaf, if_pos hleaf]
    · rw [if_neg hleaf, if_neg hleaf, h.hufDecodeFrom hvalid hleaf _ _ _ hrootlt hleaf]

/-! ## The commands -/

theorem sameEnding_freqScan {s s' : State} (h : ReadsAgree .freqScan s s') :
    SameEnding s s' (rowWriteRegs .freqScan) (freqScanEnding s) (freqScanEnding s') := by
  obtain ⟨hpix, hcheck⟩ := h.image (by decide) (List.mem_singleton.2 rfl)
  unfold freqScanEnding
  rw [hcheck, hpix, h.caps]
  cases hc : s.checkInputPixels with
  | some c => exact .checkError (ne_noError_of_check (checkInputPixels_some hc))
  | none =>
    cases hm : freqModel s.caps.symCap s.pixIn with
    | error c => exact .runError (by simp [freqModel_error hm])
    | ok T => exact .success (SameWrites.refl.writeFreq T) (by decide)

/-- Both RLE encoders, each for the pixels that it encodes. -/
theorem sameEnding_rleEnc {i : Instr} (hi : i = .rleEnc ∨ i = .qrleEnc) {s s' : State} (h : ReadsAgree i s s') :
    SameEnding s s' (rowWriteRegs i) (rleEncEnding s (encodedPixels i s)) (rleEncEnding s' (encodedPixels i s')) := by
  have hlen : .pixLen ∈ rowReadRegs i := by rcases hi with rfl | rfl <;> decide
  have hrow : rowWriteRegs i ⊆ [.compSize, .origSize, .runCount] := by rcases hi with rfl | rfl <;> decide
  obtain ⟨hpix, hcheck⟩ := h.image hlen (by rcases hi with rfl | rfl <;> exact List.mem_singleton.2 rfl)
  have hP : encodedPixels i s' = encodedPixels i s := by unfold encodedPixels; rw [hpix]
  unfold rleEncEnding
  rw [hcheck, hP, h.caps]
  cases hc : s.checkInputPixels with
  | some c => exact .checkError (ne_noError_of_check (checkInputPixels_some hc))
  | none =>
    cases hm : rleRuns s.caps.runCap (encodedPixels i s) with
    | error c => exact .runError (by simp [rleRuns_error hm])
    | ok U => exact .success ((SameWrites.refl.writeRuns U).writeSizes (h.regs _ hlen) _) hrow

theorem sameEnding_rleDec {s s' : State} (h : ReadsAgree .rleDec s s') :
    SameEnding s s' (rowWriteRegs .rleDec) (rleDecEnding s) (rleDecEnding s') := by
  have hcheck : s'.checkRleDec = s.checkRleDec := by
    unfold State.checkRleDec
    rw [h.pixelCount, h.caps, h.regNat (by decide)]
  unfold rleDecEnding
  rw [hcheck, h.pixelCount, h.runList]
  cases hc : s.checkRleDec with
  | some c => exact .checkError (by simp [checkRleDec_some hc])
  | none => exact .success (sameWrites_writeOut h.pixelCount _) (by decide)

theorem sameEnding_hufEnc {s s' : State} (h : ReadsAgree .hufEnc s s') :
    SameEnding s s' (rowWriteRegs .hufEnc) (hufEncEnding s) (hufEncEnding s') := by
  obtain ⟨hpix, hcheck⟩ := h.image (by decide) (List.mem_singleton.2 rfl)
  unfold hufEncEnding
  rw [hcheck, hpix, h.caps]
  cases hc : s.checkInputPixels with
  | some c => exact .checkError (ne_noError_of_check (checkInputPixels_some hc))
  | none =>
    cases hm : freqModel s.caps.symCap s.pixIn with
    | error c => exact .runError (by simp [freqModel_error hm])
    | ok T =>
      simp only
      cases he : emitCodes s.caps.bitsCap (codeTable (huffmanBuild T).1 (huffmanBuild T).2) .empty s.pixIn with
      | error c => exact .runError (by simp [(emitCodes_error he).1])
      | ok S =>
        exact .success ((((SameWrites.refl.writeFreq T).writeTree _ _).writeBits _).writeSizes
          (h.regs _ (by decide)) _) (by decide)

theorem sameEnding_hufDec {s s' : State} (h : ReadsAgree .hufDec s s') :
    SameEnding s s' (rowWriteRegs .hufDec) (hufDecEnding s) (hufDecEnding s') := by
  have hcheck : s'.checkHufDec = s.checkHufDec := by
    unfold State.checkHufDec
    rw [h.pixelCount, h.caps, h.regNat (d := .bitLen) (by decide), h.regNat (d := .nodeCount) (by decide),
      h.treeValid]
  unfold hufDecEnding
  rw [hcheck]
  cases hc : s.checkHufDec with
  | some c => exact .checkError (ne_noError_of_check (checkHufDec_some hc))
  | none =>
    obtain ⟨-, -, -, hv⟩ := checkHufDec_eq_none hc
    rw [h.hufDecoded hv]
    exact .success (sameWrites_writeOut h.pixelCount _) (by decide)

theorem sameEnding_ariEnc {s s' : State} (h : ReadsAgree .ariEnc s s') :
    SameEnding s s' (rowWriteRegs .ariEnc) (ariEncEnding s) (ariEncEnding s') := by
  obtain ⟨hpix, hcheck⟩ := h.image (by decide) (List.mem_singleton.2 rfl)
  unfold ariEncEnding
  rw [hcheck, hpix, h.caps]
  cases hc : s.checkInputPixels with
  | some c => exact .checkError (ne_noError_of_check (checkInputPixels_some hc))
  | none =>
    cases hm : freqModel s.caps.symCap s.pixIn with
    | error c => exact .runError (by simp [freqModel_error hm])
    | ok T =>
      simp only
      cases he : ariEncode s.caps.bitsCap T s.pixIn with
      | error c => exact .runError (by simp [ariEncode_error he])
      | ok S =>
        exact .success (((SameWrites.refl.writeFreq T).writeBits _).writeSizes (h.regs _ (by decide)) _)
          (by decide)

theorem sameEnding_ariDec {s s' : State} (h : ReadsAgree .ariDec s s') :
    SameEnding s s' (rowWriteRegs .ariDec) (ariDecEnding s) (ariDecEnding s') := by
  have hcheck : s'.checkAriDec = s.checkAriDec := by
    unfold State.checkAriDec
    rw [h.pixelCount, h.caps, h.regNat (d := .symCount) (by decide), h.regNat (d := .bitLen) (by decide),
      h.freqList]
  unfold ariDecEnding
  rw [hcheck, h.pixelCount, h.freqList, h.bitList (by decide) rfl]
  cases hc : s.checkAriDec with
  | some c => exact .checkError (ne_noError_of_check (checkAriDec_some hc))
  | none =>
    simp only
    split
    · exact .success (sameWrites_writeOut h.pixelCount _) (by decide)
    · cases hd : ariDecodeFrom (cumTable s.freqList) (encodedValue s.bitList) s.pixelCount .start with
      | error c => exact .runError (by simp [ariDecodeFrom_error hd])
      | ok out => exact .success (sameWrites_writeOut h.pixelCount _) (by decide)

theorem ReadsAgree.sameEnding {i : Instr} {s s' : State} (h : ReadsAgree i s s') :
    SameEnding s s' (rowWriteRegs i) (endingOf i s) (endingOf i s') := by
  cases i with
  | freqScan => exact sameEnding_freqScan h
  | rleEnc => exact sameEnding_rleEnc (.inl rfl) h
  | qrleEnc => exact sameEnding_rleEnc (.inr rfl) h
  | rleDec => exact sameEnding_rleDec h
  | hufEnc => exact sameEnding_hufEnc h
  | hufDec => exact sameEnding_hufDec h
  | ariEnc => exact sameEnding_ariEnc h
  | ariDec => exact sameEnding_ariDec h

/-- Settles O29: on states that agree on the row of reads the endings are the same. -/
theorem commandsReadOnlyTheirRow : Obligations.CommandsReadOnlyTheirRow := by
  intro i s s' t t' _ hcaps hregs hwords hbits ht ht'
  rw [exec_eq] at ht ht'
  cases ht
  cases ht'
  have hsame := (ReadsAgree.mk hcaps hregs hwords hbits).sameEnding
  refine ⟨hsame.errcode, fun he => ?_⟩
  obtain ⟨hreg, hword⟩ := hsame.written he
  exact ⟨hreg, fun p _ w _ => hword p.1 w⟩

end Sys2Proof.Machine
end

section
/-! The four operations and the comparisons of binary64 on finite values (R12, R52). -/

namespace Sys2Proof.Machine

/-! ## `rn` -/

theorem representable_two_pow (e : Nat) : representable (2 ^ e) := ⟨1, e, by norm_num, (one_mul _).symm⟩

/-- Rounding does not pass the representable `2 ^ 1074`, which is 1.0. -/
theorem nearestEven_le_one {m num den : Nat} (h : NearestEven m (num * 2 ^ 1074) den) (hd : 0 < den)
    (hle : num ≤ den) : m ≤ 2 ^ 1074 := by
  have hnear := h.nearest _ (representable_two_pow 1074)
  generalize 2 ^ 1074 = u at *
  have hmul : num * u ≤ u * den := by rw [mul_comm u]; exact Nat.mul_le_mul_right u hle
  rw [← Nat.cast_mul, ← Nat.cast_mul, abs_of_nonneg (a := ((u * den : Nat) : Int) - _) (by omega)] at hnear
  have := (abs_le.1 hnear).2
  exact Nat.le_of_mul_le_mul_right (by omega) hd

theorem rn_roundsTo (num : Nat) {den : Nat} (hd : 0 < den) :
    RoundsTo (rn num den) false (num * 2 ^ 1074) den := F64.round_roundsTo false _ hd

/-- `rn` of a fraction from 0 to 1 is finite. -/
theorem rn_finite {num den : Nat} (hd : 0 < den) (hle : num ≤ den) :
    ∃ m, rn num den = .fin false m ∧ NearestEven m (num * 2 ^ 1074) den := by
  obtain ⟨m, hm, hrn⟩ := rn_roundsTo num hd
  have hlt : m < 2 ^ 2098 :=
    (nearestEven_le_one hm hd hle).trans_lt (pow_lt_pow_right₀ one_lt_two (by norm_num))
  exact ⟨m, by rw [hrn, if_pos hlt], hm⟩

/-! ## Signed values -/

@[simp] theorem signedUnits_false (m : Nat) : signedUnits false m = m := rfl

@[simp] theorem signedUnits_true (m : Nat) : signedUnits true m = -(m : Int) := rfl

theorem signedUnits_not (b : Bool) (n : Nat) : signedUnits (!b) n = -signedUnits b n := by cases b <;> simp

theorem signedUnits_eq_zero {b : Bool} {n : Nat} : signedUnits b n = 0 ↔ n = 0 := by cases b <;> simp

/-- A signed magnitude, rounded, is the rounded sum of its value; a zero has to have the right sign. -/
theorem roundsToSum_round {neg zeroNeg : Bool} {mag : Nat} (h : mag = 0 → neg = zeroNeg) :
    RoundsToSum (F64.round neg mag 1) zeroNeg (signedUnits neg mag) := by
  unfold RoundsToSum
  split
  · rename_i hz
    obtain rfl := signedUnits_eq_zero.1 hz
    rw [F64.round_zero, h rfl]
  · rename_i hz
    have hpos : 0 < mag := Nat.pos_of_ne_zero fun h0 => hz (signedUnits_eq_zero.2 h0)
    have hneg : decide (signedUnits neg mag < 0) = neg := by
      cases neg
      · exact decide_eq_false (by simp)
      · exact decide_eq_true (by simpa using hpos)
    have habs : (signedUnits neg mag).natAbs = mag := by cases neg <;> simp
    rw [hneg, habs]
    exact F64.round_roundsTo neg mag one_pos

/-! ## The operations -/

/-- `fadd` of finite values: the magnitudes add up for equal signs, and the greater one has the sign of the sum
otherwise. -/
theorem fadd_roundsToSum (a b : Bool) (m n : Nat) :
    RoundsToSum (fadd (.fin a m) (.fin b n)) (a && b) (signedUnits a m + signedUnits b n) := by
  rw [fadd_fin]
  by_cases hab : a = b
  · subst hab
    have hsum : signedUnits a m + signedUnits a n = signedUnits a (m + n) := by cases a <;> simp; omega
    rw [if_pos rfl, hsum, Bool.and_self]
    exact roundsToSum_round fun _ => rfl
  · obtain rfl : b = !a := by cases a <;> cases b <;> simp_all
    rw [if_neg hab, signedUnits_not, Bool.and_not_self]
    rcases lt_trichotomy n m with hlt | rfl | hgt
    · have hsum : signedUnits a m + -signedUnits a n = signedUnits a (m - n) := by
        cases a <;> simp <;> omega
      rw [if_neg (by omega), if_pos hlt, hsum]
      exact roundsToSum_round fun h => by omega
    · rw [if_pos rfl, add_neg_cancel]
      rfl
    · have hsum : signedUnits a m + -signedUnits a n = signedUnits (!a) (n - m) := by
        cases a <;> simp <;> omega
      rw [if_neg (by omega), if_neg (by omega), hsum]
      exact roundsToSum_round fun h => by omega

theorem fsub_roundsToSum (a b : Bool) (m n : Nat) :
    RoundsToSum (fsub (.fin a m) (.fin b n)) (a && !b) (signedUnits a m - signedUnits b n) := by
  rw [fsub_fin, sub_eq_add_neg, ← signedUnits_not]
  exact fadd_roundsToSum a (!b) m n

theorem fmul_roundsTo (a b : Bool) (m n : Nat) :
    RoundsTo (fmul (.fin a m) (.fin b n)) (a ^^ b) (m * n) (2 ^ 1074) := by
  rw [fmul_fin]
  exact F64.round_roundsTo _ _ unitsOne_pos

theorem fdiv_roundsTo (a b : Bool) (m : Nat) {n : Nat} (hn : 0 < n) :
    RoundsTo (fdiv (.fin a m) (.fin b n)) (a ^^ b) (m * 2 ^ 1074) n := by
  rw [fdiv_fin a b m hn]
  exact F64.round_roundsTo _ _ hn

/-- Division by zero (log entry 10). -/
theorem fdiv_by_zero (a b : Bool) (m : Nat) :
    fdiv (.fin a m) (.fin b 0) = if m = 0 then .nan else .inf (a ^^ b) := by
  unfold fdiv
  simp only [if_pos]

/-! ## The comparisons -/

theorem F64.le_fin {a b : Bool} {m n : Nat} :
    (F64.fin a m).le (.fin b n) = true ↔ signedUnits a m ≤ signedUnits b n := by
  unfold F64.le
  simp only [decide_eq_true_eq]

theorem F64.lt_fin {a b : Bool} {m n : Nat} :
    (F64.fin a m).lt (.fin b n) = true ↔ signedUnits a m < signedUnits b n := by
  unfold F64.lt
  rw [Bool.and_eq_true, Bool.not_eq_true', ← Bool.not_eq_true, F64.le_fin, F64.le_fin, not_le]
  exact ⟨And.right, fun h => ⟨h.le, h⟩⟩

theorem F64.nan_le (x : F64) : F64.nan.le x = false := rfl

theorem F64.le_nan (x : F64) : x.le .nan = false := by cases x <;> rfl

/-- Settles O49: every operation is `F64.round` of its exact result, which `F64.round_roundsTo` describes. -/
theorem roundingIsToNearestEven : Obligations.RoundingIsToNearestEven := by
  refine ⟨fun num den hd => ⟨rn_roundsTo num hd, rn_finite hd⟩, fun a b m n => ?_, fun x => ?_⟩
  · exact ⟨fadd_roundsToSum a b m n, fsub_roundsToSum a b m n, fmul_roundsTo a b m n, fdiv_roundsTo a b m,
      fun hm => by rw [fdiv_by_zero, if_neg hm.ne'], fdiv_by_zero a b 0, F64.le_fin, F64.lt_fin⟩
  · simp [F64.lt, F64.nan_le, F64.le_nan]

end Sys2Proof.Machine
end

section
/-! What the register map says (R32, R48, R74): the locations below 0x1000, those that ignore a write, and the offsets
that name nothing. -/

namespace Sys2Proof.Machine

/-! ## The register map -/

/-- Looking up in a table whose values go through `f` is looking up first. -/
theorem lookup_map_snd {α β : Type} (f : α → β) (l : List (Nat × α)) (a : Nat) :
    (l.map (Prod.map id f)).lookup a = (l.lookup a).map f := by
  induction l with
  | nil => rfl
  | cons p l ih =>
    obtain ⟨k, x⟩ := p
    rw [List.map_cons, Prod.map_apply, List.lookup_cons, List.lookup_cons]
    rw [show id k = k from rfl, ih]
    cases a == k <;> rfl

theorem lookupLocation_register (c : Caps) {a : Nat} (h : a < 0x1000) :
    lookupLocation c a = (registerMap.lookup a).getD .reserved := if_pos h

/-- Below 0x1000 an offset names its entry of the register map, or nothing. -/
theorem mem_registerMap_or_reserved (c : Caps) {a : Nat} (h : a < 0x1000) :
    (a, lookupLocation c a) ∈ registerMap ∨ lookupLocation c a = .reserved := by
  rw [lookupLocation_register c h]
  cases hl : registerMap.lookup a with
  | none => exact .inr rfl
  | some l =>
    obtain ⟨l₁, l₂, hmap, -⟩ := List.lookup_eq_some_iff.1 hl
    rw [hmap]
    exact .inl List.mem_append_cons_self

/-! ## Locations that ignore a write -/

/-- The locations that a write leaves alone (R32, R33, R47, R48). -/
def Location.readOnly : Location → Bool
  | .data d => !d.writable
  | .id | .capPix | .capRun | .capSym | .capNode | .capBits | .reserved => true
  | .cmd | .status | .ctrl | .word _ _ => false

theorem storeAt_readOnly {l : Location} (h : l.readOnly = true) (s : State) (v : Word) : s.storeAt v l = s := by
  cases l with
  | data d =>
    have hd : d.writable = false := by simpa [Location.readOnly] using h
    rw [State.storeAt_data, hd]; rfl
  | cmd | status | ctrl | word => cases h
  | _ => rfl

/-- CMD, STATUS, CTRL and the eight RW registers (R32). -/
def writableOffsets : List Word := [0x04, 0x08, 0x0C, 0x10, 0x14, 0x18, 0x1C, 0x20, 0x24, 0x28, 0x2C]

/-- Below 0x1000 every other offset names a location that ignores a write. -/
theorem lookupLocation_readOnly (c : Caps) {o : Word} (h : o.toNat < 0x1000) (ho : o ∉ writableOffsets) :
    (lookupLocation c o.toNat).readOnly = true := by
  have hmap : ∀ p ∈ registerMap, BitVec.ofNat 32 p.1 ∈ writableOffsets ∨ p.2.readOnly = true := by decide
  rcases mem_registerMap_or_reserved c h with hm | hr
  · exact (hmap _ hm).resolve_left (by simpa using ho)
  · rw [hr]; rfl

/-! ## Offsets that name nothing -/

theorem lookup_reserved_register (c : Caps) {a : Nat} (h : a < 0x1000) (ha : a = 0x3C ∨ 0x54 ≤ a) :
    lookupLocation c a = .reserved := by
  have hmap : ∀ p ∈ registerMap, p.1 ≠ 0x3C ∧ p.1 < 0x54 := by decide
  refine (mem_registerMap_or_reserved c h).resolve_left fun hm => ?_
  have := hmap _ hm
  omega

/-- Above the registers and outside the six windows there is nothing (R74). -/
theorem lookup_reserved_range (c : Caps) {a : Nat} (h : 0x1000 ≤ a)
    (ha : a < 0x10000000 ∨ (0x70000000 ≤ a ∧ a < 2 ^ 32)) : lookupLocation c a = .reserved := by
  have hw : ∀ n < 16, (n < 1 ∨ 7 ≤ n) → windowBuf n = none := by decide
  unfold lookupLocation
  rw [if_neg (by omega), hw (a / 0x10000000) (by omega) (by omega)]

/-- In a buffer's window there is nothing at or beyond its word count (R74). -/
theorem lookup_reserved_beyond (c : Caps) (b : Buf) {a : Nat} (h : b.base + 4 * b.words c ≤ a)
    (ha : a < b.base + 0x10000000) : lookupLocation c a = .reserved := by
  obtain ⟨n, hn, hb⟩ : ∃ n, b.base = (n + 1) * 0x10000000 ∧ windowBuf (n + 1) = some b := by
    cases b
    exacts [⟨0, rfl, rfl⟩, ⟨1, rfl, rfl⟩, ⟨2, rfl, rfl⟩, ⟨3, rfl, rfl⟩, ⟨4, rfl, rfl⟩, ⟨5, rfl, rfl⟩]
  unfold lookupLocation
  rw [if_neg (by omega), show a / 0x10000000 = n + 1 by omega, hb]
  exact if_neg (by omega)

end Sys2Proof.Machine
end

section
/-! Aligned host accesses as steps (R72, R76, R271, R272). -/

namespace Sys2Proof.Machine

/-- The acknowledge as one update of DONE (R35). -/
theorem writeStatus_eq (s : State) (v : Word) : s.writeStatus v = { s with done := s.done && !v.getLsbD 1 } := by
  unfold State.writeStatus
  cases v.getLsbD 1 <;> simp

/-- A store does not look at the events to come, nor change them. -/
theorem storeAt_agenda (s : State) (es : List Event) (v : Word) (l : Location) :
    State.storeAt { s with agenda := es } v l = { s.storeAt v l with agenda := es } := by
  cases l with
  | status =>
    show State.writeStatus _ v = { s.writeStatus v with agenda := es }
    rw [writeStatus_eq, writeStatus_eq]
  | data d => rw [State.storeAt_data, State.storeAt_data]; split <;> rfl
  | _ => rfl

section
variable {s : State} {o : Word} {rest : List Event}

/-- A read while IDLE answers the location's value and changes nothing else. -/
theorem step_read_idle (hs : s.seq = .idle) (ho : o.toNat % 4 = 0)
    (h : s.agenda = .access ⟨.read, o, 4⟩ :: rest) :
    step s = .next { s with agenda := rest, reply := .data (s.valueAt (lookupLocation s.caps o.toNat)) } := by
  rw [step_access h, busAccess_read _ ho, memRead_idle (s := { s with agenda := rest }) hs]
  rfl

/-- So does a read of a location that shows while BUSY, in either sequencer state. -/
theorem step_read_visible (hl : (lookupLocation s.caps o.toNat).hiddenWhileBusy = false) (ho : o.toNat % 4 = 0)
    (h : s.agenda = .access ⟨.read, o, 4⟩ :: rest) :
    step s = .next { s with agenda := rest, reply := .data (s.valueAt (lookupLocation s.caps o.toNat)) } := by
  rw [step_access h, busAccess_read _ ho, memRead_visible (s := { s with agenda := rest }) hl]
  rfl

/-- A write while IDLE stores at the location and is acknowledged. -/
theorem step_write_idle {v : Word} (hs : s.seq = .idle) (ho : o.toNat % 4 = 0)
    (h : s.agenda = .access ⟨.write v, o, 4⟩ :: rest) :
    step s = .next { s.storeAt v (lookupLocation s.caps o.toNat) with agenda := rest, reply := .acknowledged } := by
  rw [step_access h, busAccess_write _ _ ho, memWrite_idle (s := { s with agenda := rest }) hs, storeAt_agenda]
  rfl

/-- A write while BUSY is dropped (R272). -/
theorem step_write_busy {v : Word} (hs : s.seq = .busy) (ho : o.toNat % 4 = 0)
    (h : s.agenda = .access ⟨.write v, o, 4⟩ :: rest) :
    step s = .next { s with agenda := rest, reply := .acknowledged } := by
  rw [step_access h, busAccess_write _ _ ho, memWrite_busy (s := { s with agenda := rest }) hs]
  rfl

/-- A location that ignores writes ignores them in either sequencer state. -/
theorem step_write_readOnly {v : Word} (hl : (lookupLocation s.caps o.toNat).readOnly = true) (ho : o.toNat % 4 = 0)
    (h : s.agenda = .access ⟨.write v, o, 4⟩ :: rest) :
    step s = .next { s with agenda := rest, reply := .acknowledged } := by
  cases hs : s.seq with
  | idle => rw [step_write_idle hs ho h, storeAt_readOnly hl, ← hs]
  | busy => rw [step_write_busy hs ho h, ← hs]

end

/-- While BUSY no access changes anything but the reply and the draws. -/
theorem busAccess_busy {s : State} (h : s.seq = .busy) (x : BusAccess) :
    ∃ r d, s.busAccess x = { s with reply := r, draws := d } := by
  unfold State.busAccess
  split
  · split
    · obtain ⟨r, d, hr, -⟩ := memRead_frame s x.addr.toNat
      exact ⟨r, d, hr⟩
    · exact ⟨.acknowledged, s.draws, memWrite_busy h _ _⟩
  · exact ⟨.busError, s.draws, rfl⟩

/-- Nor does any sequence of accesses while BUSY (R55, R90). -/
theorem run_accesses_busy (xs : List BusAccess) {s : State} {rest : List Event} (h : s.seq = .busy)
    (ha : s.agenda = xs.map Event.access ++ rest) :
    ∃ r d, core.run xs.length s = .next { s with agenda := rest, reply := r, draws := d } := by
  induction xs generalizing s with
  | nil =>
    have ha : s.agenda = rest := ha
    exact ⟨s.reply, s.draws, by rw [← ha]; rfl⟩
  | cons x xs ih =>
    obtain ⟨r, d, hx⟩ := busAccess_busy (s := { s with agenda := xs.map Event.access ++ rest }) h x
    obtain ⟨r', d', hrun⟩ := ih (s := { s with agenda := xs.map Event.access ++ rest, reply := r, draws := d }) h rfl
    exact ⟨r', d', by rw [List.length_cons, run_next core ((step_access ha).trans (congrArg _ hx)), hrun]⟩

end Sys2Proof.Machine
end

section
/-! The register file and the reserved offsets on the bus, and the snapshot of an accepted command (R32, R48, R74,
R100). -/

namespace Sys2Proof.Machine

/-- Settles O15: the table of the statement is the register map with each location's value. -/
theorem registerReadsWhileIdle : Obligations.RegisterReadsWhileIdle := by
  intro s o rest hs hlt ho hag
  have hvalue : s.valueAt (lookupLocation s.caps o.toNat) =
      ((registerMap.map (Prod.map id s.valueAt)).lookup o.toNat).getD 0 := by
    rw [lookupLocation_register s.caps hlt, lookup_map_snd]
    exact (Option.getD_map s.valueAt .reserved _).symm
  rw [step_read_idle hs ho hag, hvalue]
  rfl

/-- Settles O16: at each writable offset the location is known; every other one ignores the write. -/
theorem registerWritesWhileIdle : Obligations.RegisterWritesWhileIdle := by
  intro s o v rest hs hlt ho hag
  refine ⟨_, step_write_idle hs ho hag, ?_⟩
  by_cases hw : o ∈ writableOffsets
  · simp only [writableOffsets, List.mem_cons, List.not_mem_nil, or_false] at hw
    rcases hw with rfl | rfl | rfl | rfl | rfl | rfl | rfl | rfl | rfl | rfl | rfl
    case inr.inl => exact writeStatus_eq s v
    all_goals rfl
  · rw [storeAt_readOnly (lookupLocation_readOnly s.caps hlt hw)]
    simp only [writableOffsets, List.mem_cons, List.not_mem_nil, or_false, not_or] at hw
    simp only [hw, if_false]

/-- Settles O18: the offset names nothing, so a read is 0 and a write is ignored. -/
theorem reservedOffsets : Obligations.ReservedOffsets := by
  intro s o rest ho hrange
  have hres : lookupLocation s.caps o.toNat = .reserved := by
    rcases hrange with h | h | h | h | h | h | h | h | h | h
    · exact lookup_reserved_register _ (by omega) (.inl h)
    · exact lookup_reserved_register _ h.2 (.inr h.1)
    · exact lookup_reserved_range _ h.1 (.inl h.2)
    · exact lookup_reserved_beyond _ .pixIn h.1 h.2
    · exact lookup_reserved_beyond _ .pixOut h.1 h.2
    · exact lookup_reserved_beyond _ .runs h.1 h.2
    · exact lookup_reserved_beyond _ .bits h.1 h.2
    · exact lookup_reserved_beyond _ .freq h.1 h.2
    · exact lookup_reserved_beyond _ .tree h.1 h.2
    · exact lookup_reserved_range _ (by omega) (.inr ⟨h, o.isLt⟩)
  refine ⟨fun hag => ?_, fun v hag => step_write_readOnly (by rw [hres]; rfl) ho hag⟩
  rw [step_read_visible (by rw [hres]; rfl) ho hag, hres]
  rfl

/-- Settles O23: the CMD write is accepted, and the accesses after it find the block BUSY. -/
theorem acceptedCommandRunsOnItsSnapshot : Obligations.AcceptedCommandRunsOnItsSnapshot := by
  intro s v xs rest hs hag
  have haccept : step s = .next
      { s.acceptCommand v with agenda := xs.map Event.access ++ rest, reply := .acknowledged } :=
    step_write_idle hs (by decide) hag
  obtain ⟨r, d, hrun⟩ := run_accesses_busy xs (rest := rest)
    (s := { s.acceptCommand v with agenda := xs.map Event.access ++ rest, reply := .acknowledged }) rfl rfl
  exact ⟨_, (run_next core haccept).trans hrun, rfl⟩

end Sys2Proof.Machine
end

section
/-! Completions (R236), and the command that a step runs (R100). -/

namespace Sys2Proof.Machine

/-- Settles O27: a completion keeps what is outside the command's row, and no row writes WIDTH, HEIGHT, PIX_LEN or the
PIX_IN window. -/
theorem everyCompletion : Obligations.EveryCompletion := by
  intro i s t _ hst
  rw [exec_eq] at hst
  cases hst
  have hc := exec_completed i s
  have hkept := complete_keptOutside i s
  obtain ⟨hwidth, hheight, hlen⟩ :
      .width ∉ rowWriteRegs i ∧ .height ∉ rowWriteRegs i ∧ .pixLen ∉ rowWriteRegs i := by
    cases i <;> decide
  have hbufs : ∀ p ∈ rowWriteBufs i s, 0x20000000 ≤ p.1.base := by
    cases i <;> simp [rowWriteBufs, Buf.base]
  rw [hc.errcode]
  exact ⟨hc, hkept.regs _ hwidth, hkept.regs _ hheight, hkept.regs _ hlen,
    fun a _ ha => hkept.bytes a fun p hp => .inl (lt_of_lt_of_le ha (hbufs p hp))⟩

/-- The sequencer's turn while BUSY is the meaning of the command in CMD. -/
theorem turn_eq_exec {s : State} {i : Instr} (hs : s.seq = .busy) (hd : decode s.cmd = .ok i) :
    .next s.turn = exec i s := by
  rw [turn_busy hs, exec_eq]
  unfold runningEnding
  rw [hd]

/-- A placed command's word is latched in CMD as it is (R106). -/
theorem withFetchWord_eq (s : State) (v : Word) :
    s.withFetchWord 32 v.toNat = { s.acceptCommand v with agenda := .sequencer :: s.agenda } := by
  unfold State.withFetchWord placeCommand
  rw [Nat.mod_eq_of_lt v.isLt, BitVec.ofNat_toNat, BitVec.setWidth_eq]

/-- Settles O5: the sequencer's turn comes on an empty agenda or as its first event. -/
theorem stepRunsTheDecodedCommand : Obligations.StepRunsTheDecodedCommand := by
  refine ⟨fun s i hs hd hag => ?_, fun s i => ?_⟩
  · rcases hag with hnil | hseq
    · rw [step_noEvent hnil, turn_eq_exec hs hd, hnil, List.tail_nil, ← hnil]
    · obtain ⟨rest, hrest⟩ := List.head?_eq_some_iff.1 hseq
      rw [step_sequencer hrest, turn_eq_exec (s := { s with agenda := rest }) hs hd, hrest, List.tail_cons]
  · rw [withFetchWord_eq, step_sequencer rfl, turn_eq_exec rfl (decode_encode i)]
    rfl

end Sys2Proof.Machine
end

section
/-! STATUS, CTRL and the state after power-on reset (R35, R36, R54, R230). -/

namespace Sys2Proof.Machine

/-- CTRL is its one bit, extended with zeros (R36). -/
theorem ctrlWord_eq_setWidth (s : State) : s.ctrlWord = (BitVec.ofBool s.irqEn).setWidth 32 := by
  unfold State.ctrlWord
  cases s.irqEn <;> rfl

/-- Nothing is set in STATUS right after reset (R32, R54). -/
theorem statusWord_resetWith (c : Caps) : (State.resetWith c).statusWord = 0 := by
  show 0#20 ++ 0#4 ++ 0#5 ++ 0#1 ++ 0#1 ++ 0#1 = 0#32
  decide

/-- Settles O13: no byte is listed right after reset, and every register is 0. -/
theorem powerOnReset : Obligations.PowerOnReset :=
  fun c => ⟨rfl, rfl, rfl, fun d => by cases d <;> rfl, rfl, statusWord_resetWith c, ctrlWord_eq_setWidth _, fun _ => rfl⟩

/-- Settles O24: each field is read off by dropping the fields below it. -/
theorem statusFields : Obligations.StatusFields := by
  refine ⟨fun s => ?_, rfl, rfl, rfl, rfl, rfl⟩
  have hbusy : s.busy = true ↔ s.seq = .busy := beq_iff_eq
  rw [← hbusy]
  unfold State.statusWord
  simp only [BitVec.getLsbD_append, BitVec.extractLsb'_append_eq_of_le, BitVec.extractLsb'_append_eq_right,
    Nat.reduceLeDiff, Nat.reduceSub]
  simp

/-- Settles O25: while IDLE the write stores bit 0, which `v &&& 1` extends with zeros; while BUSY it is dropped. -/
theorem ctrlHoldsIrqEnable : Obligations.CtrlHoldsIrqEnable := by
  refine ⟨fun c => ctrlWord_eq_setWidth _, fun s v rest hag => ?_⟩
  cases hs : s.seq with
  | idle =>
    refine ⟨_, step_write_idle hs (by decide) hag, fun _ => ⟨?_, rfl, ?_⟩, nofun⟩
    · rw [ctrlWord_eq_setWidth, BitVec.and_one_eq_setWidth_ofBool_getLsbD]; rfl
    · rw [← hs]; rfl
  | busy => exact ⟨_, step_write_busy hs (by decide) hag, nofun, fun _ => by rw [← hs]⟩

end Sys2Proof.Machine
end

section
/-! The buffer windows on the bus (R71, R74, R76). -/

namespace Sys2Proof.Machine

/-- Byte `j` of a stored word (R71). -/
theorem State.readByte_bufWrite_inside (s : State) (b : Buf) (w : Nat) (v : Word) {j : Nat} (hj : j < 4) :
    (s.bufWrite b w v).readByte (b.addr w + j) = byteOfWord v j := by
  unfold State.readByte
  rw [State.bufWrite_mem, Memory.get?_putWord, if_pos (by omega), Nat.add_sub_cancel_left]

/-- The offset of a buffer word fits the bus (R70, R74). -/
theorem Buf.toNat_ofNat_addr (b : Buf) {w : Nat} (hw : w < 2 ^ 26) : (BitVec.ofNat 32 (b.addr w)).toNat = b.addr w := by
  have hb : b.base + 2 ^ 28 ≤ 2 ^ 32 := by cases b <;> decide
  rw [BitVec.toNat_ofNat]
  exact Nat.mod_eq_of_lt (by unfold Buf.addr; omega)

section
variable {s : State} {b : Buf} {w : Nat} {rest : List Event}

/-- On a legal build the offset of a buffer word is aligned and names that word (R72, R74). -/
theorem lookup_bufWord_offset (hwf : s.caps.wf) (hw : w < b.words s.caps) :
    (BitVec.ofNat 32 (b.addr w)).toNat % 4 = 0 ∧
      lookupLocation s.caps (BitVec.ofNat 32 (b.addr w)).toNat = .word b w := by
  have h26 : w < 2 ^ 26 := lt_of_lt_of_le hw (Buf.words_le hwf b)
  rw [b.toNat_ofNat_addr h26]
  have hb := b.base_mod_four
  exact ⟨by unfold Buf.addr; omega, lookup_bufWord s.caps b w hw h26⟩

theorem step_read_bufWord (hs : s.seq = .idle) (hwf : s.caps.wf) (hw : w < b.words s.caps)
    (h : s.agenda = .access ⟨.read, BitVec.ofNat 32 (b.addr w), 4⟩ :: rest) :
    step s = .next { s with agenda := rest, reply := .data (s.bufRead b w) } := by
  obtain ⟨haligned, hlookup⟩ := lookup_bufWord_offset hwf hw
  rw [step_read_idle hs haligned h, hlookup]
  rfl

theorem step_write_bufWord {v : Word} (hs : s.seq = .idle) (hwf : s.caps.wf) (hw : w < b.words s.caps)
    (h : s.agenda = .access ⟨.write v, BitVec.ofNat 32 (b.addr w), 4⟩ :: rest) :
    step s = .next { s.bufWrite b w v with agenda := rest, reply := .acknowledged } := by
  obtain ⟨haligned, hlookup⟩ := lookup_bufWord_offset hwf hw
  rw [step_write_idle hs haligned h, hlookup]
  rfl

end

/-- Settles O17: the statement's table gives each buffer's base and word count, and one word write through the bus
is one `bufWrite`. -/
theorem bufferWindows : Obligations.BufferWindows := by
  intro s w rest hs hwf p hp hw
  obtain ⟨hbase, hwords⟩ : p.2.1 = p.1.base ∧ p.2.2 = p.1.words s.caps := by
    simp only [List.mem_cons, List.not_mem_nil, or_false] at hp
    rcases hp with rfl | rfl | rfl | rfl | rfl | rfl <;> exact ⟨rfl, rfl⟩
  rw [hwords] at hw
  rw [hbase]
  exact ⟨step_read_bufWord hs hwf hw, fun v hag => ⟨_, step_write_bufWord hs hwf hw hag, rfl,
    State.bufRead_bufWrite s p.1 w v, fun j hj => State.readByte_bufWrite_inside s p.1 w v hj,
    fun a ha => State.readByte_bufWrite_outside s p.1 w v a ha⟩⟩

end Sys2Proof.Machine
end

section
/-! The packing of a bit stream into BITS (R82, R165). -/

namespace Sys2Proof.Machine

/-- A natural number below 2^32 reads back from its register (R11). -/
theorem State.regNat_setRegNat_same (s : State) (d : DataReg) {n : Nat} (h : n < 2 ^ 32) :
    (s.setRegNat d n).regNat d = n := by
  unfold State.regNat
  rw [State.reg_setRegNat, if_pos rfl, BitVec.toNat_ofNat, Nat.mod_eq_of_lt h]

/-- Settles O41: BIT_LEN holds the length, the packed words hold the stream and zeros above it, and a fill leaves the
words above alone. -/
theorem bitsArePacked : Obligations.BitsArePacked := by
  intro s S hlen
  refine ⟨State.regNat_setRegNat_same _ _ hlen, fun i hi => ?_, fun i hi hlast => ?_, fun w hw => ?_⟩
  · rw [State.bit_writeBits s S i (by omega), List.getD_eq_getElem _ _ hi]
  · rw [State.bit_writeBits s S i hlast, List.getD_eq_default _ _ hi]
  · unfold State.writeBits
    rw [State.bufRead_setRegNat]
    exact State.bufRead_bufFill_above s .bits _ w (by rwa [packBits_length])

end Sys2Proof.Machine
end

section
/-! Every step goes on, refused accesses change nothing, and reads have no side effect (R72, R73, R236, R238). -/

namespace Sys2Proof.Machine

/-- Settles O6: the next state is `afterEvent`. -/
theorem everyStepGoesOn : Obligations.EveryStepGoesOn := fun s => ⟨s.afterEvent, step_eq s⟩

/-- Settles O19: a refused access is answered with a bus error and nothing else. -/
theorem refusedAccesses : Obligations.RefusedAccesses := by
  intro s x rest hx hag
  refine ⟨?_, rfl⟩
  rw [step_access hag, busAccess_refused _ x hx]
  rfl

/-- A read of any size at any offset, accepted or refused, changes the reply and the draws at most (R73). -/
theorem busAccess_read_frame (s : State) (o : Word) (n : Nat) :
    ∃ r d, s.busAccess ⟨.read, o, n⟩ = { s with reply := r, draws := d } := by
  unfold State.busAccess
  split
  · obtain ⟨r, d, h, -⟩ := memRead_frame s o.toNat
    exact ⟨r, d, h⟩
  · exact ⟨.busError, s.draws, rfl⟩

/-- Settles O22: the step of a read is its bus access, past the event. -/
theorem readsHaveNoSideEffect : Obligations.ReadsHaveNoSideEffect := by
  intro s t o n rest hag hst
  obtain ⟨r, d, hframe⟩ := busAccess_read_frame { s with agenda := rest } o n
  rw [step_access hag, hframe] at hst
  cases hst
  rfl

end Sys2Proof.Machine
end

section
/-! The Huffman decoding loop, bit by bit (R84, R175). -/

namespace Sys2Proof.Machine

theorem hufDecodeFrom_nil (s : State) (room cur : Nat) : hufDecodeFrom s room cur [] = [] := by
  unfold hufDecodeFrom; rfl

theorem hufDecodeFrom_noRoom (s : State) (cur : Nat) (b : Bool) (bits : List Bool) :
    hufDecodeFrom s 0 cur (b :: bits) = [] := by
  rw [hufDecodeFrom, if_pos rfl]

/-- An edge to a leaf emits its symbol, and the cursor goes back to the root. -/
theorem hufDecodeFrom_leaf {s : State} {cur : Nat} {b : Bool} (h : s.treeKind (s.treeChild cur b) = 0) (room : Nat)
    (bits : List Bool) : hufDecodeFrom s (room + 1) cur (b :: bits) =
      s.treeA (s.treeChild cur b) :: hufDecodeFrom s room (s.regNat .root) bits := by
  rw [hufDecodeFrom, if_neg (Nat.succ_ne_zero room), if_pos h, Nat.add_sub_cancel]

/-- An edge to an internal node moves the cursor there. -/
theorem hufDecodeFrom_internal {s : State} {cur : Nat} {b : Bool} (h : s.treeKind (s.treeChild cur b) ≠ 0)
    (room : Nat) (bits : List Bool) : hufDecodeFrom s (room + 1) cur (b :: bits) =
      hufDecodeFrom s (room + 1) (s.treeChild cur b) bits := by
  rw [hufDecodeFrom, if_neg (Nat.succ_ne_zero room), if_neg h]

/-- The child is `Tree[cur].b` for '1' and `Tree[cur].a` for '0' (R175). -/
theorem treeChild_eq (s : State) (cur : Nat) (b : Bool) :
    s.treeChild cur b = (if b then s.treeB cur else s.treeA cur).toNat := by
  cases b <;> rfl

/-- Settles O47: one equation of the loop for each case, with the child written out. -/
theorem hufDecodingWalksTheTree : Obligations.HufDecodingWalksTheTree := by
  intro s room cur b bits
  simp only [← treeChild_eq]
  exact ⟨hufDecodeFrom_noRoom s cur b bits, hufDecodeFrom_nil s room cur,
    fun hleaf => hufDecodeFrom_leaf hleaf room bits, fun hinternal => hufDecodeFrom_internal hinternal room bits,
    hufDecodeFrom_length_le s bits room cur, rfl, rfl, rfl, rfl⟩

end Sys2Proof.Machine
end

section
/-! The command words: the decode table, both directions of the encoding, and what is unsupported (R101 to R107). -/

namespace Sys2Proof.Machine

/-! ## The decode table -/

/-- A word decodes to a command exactly when it is the command's word. -/
theorem decode_eq_ok_iff (i : Instr) (v : Word) : decode v = .ok i ↔ v = encode i :=
  ⟨eq_encode_of_decode, fun h => h ▸ decode_encode i⟩

/-- Settles O3: a command's word decodes to it, and no other word does. -/
theorem decodeAndEncodeAgree : Obligations.DecodeAndEncodeAgree := fun i v _ => decode_eq_ok_iff i v

/-- The table of R107: the word of every command, with the command. -/
def commandWords : List (Word × Instr) :=
  [.freqScan, .rleEnc, .qrleEnc, .rleDec, .hufEnc, .hufDec, .ariEnc, .ariDec].map (fun i => (encode i, i))

/-- Looking a word up in the table is decoding it. -/
theorem lookup_commandWords {v : Word} {i : Instr} : commandWords.lookup v = some i ↔ decode v = .ok i := by
  rw [decode_eq_ok_iff]
  constructor
  · intro h
    obtain ⟨l₁, l₂, htable, -⟩ := List.lookup_eq_some_iff.1 h
    have hmem : (v, i) ∈ commandWords := htable ▸ List.mem_append_cons_self
    obtain ⟨j, -, hj⟩ := List.mem_map.1 hmem
    cases hj
    rfl
  · rintro rfl
    cases i <;> rfl

/-- Settles O2: the statement's table is `commandWords`, and a word outside it decodes to no command. -/
theorem decodeIsTheTable : Obligations.DecodeIsTheTable := by
  intro v
  split
  case h_1 i hi => exact lookup_commandWords.1 hi
  case h_2 hnone =>
    cases hd : decode v with
    | error e => exact ⟨e, rfl⟩
    | ok i => exact absurd (hnone.symm.trans (lookup_commandWords.2 hd)) nofun

/-- Settles O1: the eight words are the encodings of the commands, and the four refused ones are evaluated. -/
theorem specWordsDecode : Obligations.SpecWordsDecode :=
  ⟨decode_encode .freqScan, decode_encode .rleEnc, decode_encode .qrleEnc, decode_encode .rleDec,
    decode_encode .hufEnc, decode_encode .hufDec, decode_encode .ariEnc, decode_encode .ariDec, by decide⟩

/-! ## The fields of R101 as bit ranges -/

theorem opField_eq_extract (v : Word) : opField v = (v.extractLsb' 0 4).toNat := by
  rw [BitVec.extractLsb'_toNat, Nat.shiftRight_zero]
  rfl

theorem reservedLow_eq_extract (v : Word) : reservedLow v = (v.extractLsb' 4 4).toNat := by
  rw [BitVec.extractLsb'_toNat, Nat.shiftRight_eq_div_pow]
  rfl

theorem reservedHigh_eq_extract (v : Word) : reservedHigh v = (v.extractLsb' 9 23).toNat := by
  rw [BitVec.extractLsb'_toNat, Nat.shiftRight_eq_div_pow]
  unfold reservedHigh
  omega

theorem quantizeBit_eq_getLsbD (v : Word) : quantizeBit v = v.getLsbD 8 := by
  rw [BitVec.getLsbD, Nat.testBit_eq_decide_div_mod_eq]
  rfl

/-! ## Unsupported words -/

/-- A running word that is no command ends in UNSUPPORTED (R104). -/
theorem turn_unsupported {s : State} (hs : s.seq = .busy) (hd : ∃ e, decode s.cmd = .error e) :
    s.turn = s.withError .unsupported := by
  obtain ⟨e, he⟩ := hd
  rw [turn_busy hs]
  unfold runningEnding
  rw [he]
  rfl

/-- Settles O4: the decoder's refusals are R104's three cases on the fields of R101; the CMD write is accepted
whatever the word, and the sequencer's turn then records UNSUPPORTED and nothing else. -/
theorem unsupportedWords : Obligations.UnsupportedWords := by
  refine ⟨fun v => ?_, fun s v rest hs hd hag => ?_⟩
  · rw [decode_eq_error_iff, opField_eq_extract, reservedLow_eq_extract, reservedHigh_eq_extract,
      quantizeBit_eq_getLsbD, ← BitVec.toNat_ne_iff_ne, ← BitVec.toNat_ne_iff_ne]
    rfl
  · have haccept : step s = .next
        { s.acceptCommand v with agenda := .sequencer :: rest, reply := .acknowledged } :=
      step_write_idle hs (by decide) hag
    refine ⟨_, haccept, rfl, ?_⟩
    rw [step_sequencer rfl, turn_unsupported rfl hd, hs]
    rfl

end Sys2Proof.Machine
end

section
/-! The draws that an error raised in processing leaves (R108, R234). -/

namespace Sys2Proof.Machine

theorem rowWriteRegs_nodup (i : Instr) : (rowWriteRegs i).Nodup := by cases i <;> decide

/-- With its input checks passed, a command that ends in an error ends in one raised in processing (R233, R234). -/
theorem endingOf_runError_of_checks {i : Instr} {s : State} (hchecks : inputChecksPass i s)
    (herr : (endingOf i s).code ≠ .noError) : ∃ c w, endingOf i s = .runError c w := by
  cases he : endingOf i s with
  | success t => rw [he] at herr; exact absurd rfl herr
  | checkError c => exact absurd hchecks (endingOf_checkError he)
  | runError c w => exact ⟨c, w, rfl⟩

/-- The words that a runtime error draws fit their windows (R9, R74). -/
theorem drawnBufs_fit {i : Instr} {s : State} (hwf : s.caps.wf) (hrow : rowFits s.caps (rowWriteBufs i s)) :
    ∀ p ∈ drawnBufs i s, 4 * p.2 ≤ 2 ^ 28 := by
  intro p hp
  obtain ⟨n, hn, hle⟩ := (drawnBufs_row i s).1 p hp
  have hwords : n ≤ p.1.words s.caps := hrow _ hn
  have hwindow := p.1.words_le hwf
  omega

/-- A location's number is its place among the locations of the row, after the draws already taken (log entry 4). -/
def drawNumber (i : Instr) (s : State) (x : DataLocation) : Nat := s.draws + (drawnLocations i s).idxOf x

theorem drawNumber_inj {i : Instr} {s : State} {x y : DataLocation} (hx : x ∈ drawnLocations i s)
    (h : drawNumber i s x = drawNumber i s y) : x = y :=
  (List.idxOf_inj hx).1 (Nat.add_left_cancel h)

/-- There are as many locations as the write set has draws. -/
theorem drawnLocations_length (i : Instr) (s : State) :
    (drawnLocations i s).length = WriteSet.size ⟨rowWriteRegs i, drawnBufs i s⟩ := by
  simp [drawnLocations, WriteSet.size]

/-- Each location of the row holds the draw of its number. -/
theorem locationWord_drawAll_row {i : Instr} {s : State} {x : DataLocation} (hx : x ∈ drawnLocations i s)
    (hfit : ∀ p ∈ drawnBufs i s, 4 * p.2 ≤ 2 ^ 28) :
    (s.drawAll ⟨rowWriteRegs i, drawnBufs i s⟩).locationWord x = Config.draw (drawNumber i s x) := by
  have hplace := List.idxOf_lt_length_of_mem hx
  have h : (s.drawAll ⟨rowWriteRegs i, drawnBufs i s⟩).locationWord
      (drawnLocations i s)[(drawnLocations i s).idxOf x] = Config.draw (drawNumber i s x) :=
    s.locationWord_drawAll (rowWriteRegs_nodup i) (drawnBufs_row i s).2 hfit _ hplace
  rwa [List.getElem_idxOf] at h

theorem drawNumber_lt {i : Instr} {s : State} {x : DataLocation} (hx : x ∈ drawnLocations i s) :
    drawNumber i s x < (s.drawAll ⟨rowWriteRegs i, drawnBufs i s⟩).draws := by
  have hplace := List.idxOf_lt_length_of_mem hx
  rw [drawnLocations_length] at hplace
  exact Nat.add_lt_add_left hplace s.draws

/-- Settles O32: the error was raised in processing, which draws each location of the row in turn. -/
theorem runErrorsLeaveDraws : Obligations.RunErrorsLeaveDraws := by
  intro i s t hwf hchecks hst herr
  rw [exec_eq] at hst
  cases hst
  rw [(exec_completed i s).errcode] at herr
  obtain ⟨c, w, hend⟩ := endingOf_runError_of_checks hchecks herr
  obtain ⟨-, -, hrow⟩ := endingOf_runError hend
  obtain ⟨hdrawn, hkept⟩ := complete_runError hend
  refine ⟨⟨drawNumber i s, fun x hx => ?_, fun x hx y _ => drawNumber_inj hx⟩, hkept⟩
  rw [hdrawn]
  refine ⟨Nat.le_add_right _ _, drawNumber_lt hx, ?_⟩
  rw [← locationWord_drawAll_row hx (drawnBufs_fit hwf hrow)]
  cases x <;> rfl

end Sys2Proof.Machine
end

section
/-! The frequency model and FREQ_SCAN (R130 to R132). -/

namespace Sys2Proof.Machine

/-- Settles O33: the scan from the empty table gives the table of the whole image, which has one entry for each
distinct pixel. -/
theorem freqModelCountsFirstSeen : Obligations.FreqModelCountsFirstSeen := by
  intro symCap P
  rw [freqModel_table, countTable_length]

/-! ## What `write_freq` stores -/

theorem State.regNat_symCount_writeFreq (s : State) {T : List FreqEntry} (hlen : T.length < 2 ^ 32) :
    (s.writeFreq T).regNat .symCount = T.length :=
  State.regNat_setRegNat_same _ _ hlen

/-- A stored table reads back when its length and its counts fit a word (R132). -/
theorem State.freqList_writeFreq (s : State) {T : List FreqEntry} (hlen : T.length < 2 ^ 32)
    (hcnt : ∀ e ∈ T, e.cnt < 2 ^ 32) : (s.writeFreq T).freqList = T :=
  State.freqList_eq (s.regNat_symCount_writeFreq hlen) (s.bufRead_bufFill_inside .freq (freqWords T)) hcnt

theorem Writes.writeFreq (s : State) (T : List FreqEntry) :
    Writes [.symCount] [(.freq, 2 * T.length)] s (s.writeFreq T) :=
  .setRegNat (.bufFill .refl List.mem_cons_self (freqWords_length T).le) List.mem_cons_self _

/-! ## FREQ_SCAN -/

/-- FREQ_SCAN of an image that passes the checks ends as `freq_model` does (R131). -/
theorem endingOf_freqScan {s : State} (hlen : s.regNat .pixLen = 4 * s.pixelCount)
    (hcap : s.pixelCount ≤ s.caps.pixCap) :
    endingOf .freqScan s =
      if (firstSeen s.pixIn).length ≤ s.caps.symCap then .success (s.writeFreq (countTable s.pixIn))
      else .runError .capacity ⟨[.symCount], [(.freq, Buf.words s.caps .freq)]⟩ := by
  have hmodel := freqModelCountsFirstSeen s.caps.symCap s.pixIn
  by_cases hfit : (firstSeen s.pixIn).length ≤ s.caps.symCap
  · rw [if_pos hfit] at hmodel ⊢
    simp only [endingOf, freqScanEnding, checkInputPixels_of hlen hcap, hmodel]
  · rw [if_neg hfit] at hmodel ⊢
    simp only [endingOf, freqScanEnding, checkInputPixels_of hlen hcap, hmodel]

/-- Settles O34: the completion has the ending of `endingOf_freqScan`; the image's size bounds the table's length and
counts, so that the stored table reads back. -/
theorem freqScanResult : Obligations.FreqScanResult := by
  intro s hwf hlen hcap
  have hend := endingOf_freqScan hlen hcap
  have hdone := exec_completed .freqScan s
  refine ⟨fun hfit => ⟨_, exec_eq .freqScan s, ?_⟩, fun hover => ⟨_, exec_eq .freqScan s, ?_⟩⟩
  · rw [hend, if_pos hfit] at hdone ⊢
    have hpix : s.pixIn.length < 2 ^ 32 := by
      rw [State.pixIn_length]
      omega
    have htable : (countTable s.pixIn).length < 2 ^ 32 := by
      rw [countTable_length]
      exact (firstSeen_length_le _).trans_lt hpix
    have hwrites := Writes.writeFreq s (countTable s.pixIn)
    rw [← countTable_length]
    exact ⟨hdone, s.regNat_symCount_writeFreq htable,
      s.freqList_writeFreq htable fun e he => (countTable_cnt_le he).trans_lt hpix,
      hwrites.draws, hwrites.keptOutside.finish .noError⟩
  · rw [hend, if_neg (Nat.not_le.2 hover)] at hdone ⊢
    exact hdone

end Sys2Proof.Machine
end

section
/-! The quantizer (R143, R144). -/

namespace Sys2Proof.Machine

/-- The multiple of 32 that `quant` clamps lies at most 16 above and less than 16 below its channel value. -/
theorem quant_multiple_bounds (c : Nat) :
    32 * ((c + 16) / 32) ≤ c + 16 ∧ c < 32 * ((c + 16) / 32) + 16 := by
  omega

/-- No multiple of 32 is nearer to `c` than one at most 16 above and less than 16 below it. -/
theorem abs_sub_le_of_multiple {c m m' : Int} (hm : 32 ∣ m) (habove : m ≤ c + 16) (hbelow : c < m + 16)
    (hm' : 32 ∣ m') : |c - m| ≤ |c - m'| := by
  have hnear : |c - m| ≤ 16 := abs_le.2 ⟨by omega, by omega⟩
  rcases lt_trichotomy m' m with hlt | rfl | hgt
  · exact hnear.trans (le_trans (by omega) (le_abs_self (c - m')))
  · rfl
  · exact hnear.trans (le_trans (by omega) (neg_le_abs (c - m')))

/-- A multiple of 32 that is equally near is not the greater one. -/
theorem le_of_abs_sub_eq {c m m' : Int} (hm : 32 ∣ m) (hbelow : c < m + 16) (hm' : 32 ∣ m')
    (heq : |c - m'| = |c - m|) : m' ≤ m := by
  rcases abs_eq_abs.1 heq with h | h <;> omega

/-- Settles O39: the multiple of 32 that `quant` clamps is within 16 of the channel value, and a tie is below it. -/
theorem quantRoundsToNearest : Obligations.QuantRoundsToNearest := by
  intro c hc
  obtain ⟨habove, hbelow⟩ := quant_multiple_bounds c
  have hm : 32 ∣ 32 * ((c + 16) / 32) := Nat.dvd_mul_right _ _
  refine ⟨rfl, ?_, 32 * ((c + 16) / 32), hm, rfl, fun m' hm' => ?_, fun m' hm' heq => ?_⟩
  · simp only [quant, List.mem_cons, List.not_mem_nil, or_false]
    omega
  · exact abs_sub_le_of_multiple (by omega) (by omega) (by omega) hm'
  · exact le_of_abs_sub_eq (by omega) (by omega) hm' heq

/-- Settles O40: each byte of a quantized pixel is known, and quantizing a channel twice is quantizing it once. -/
theorem qpixIsIdempotent : Obligations.QpixIsIdempotent := by
  intro w
  refine ⟨?_, byteOfWord_qpix_alpha w, fun k hk => ?_⟩
  · rw [qpix, byteOfWord_qpix_alpha, byteOfWord_qpix_blue, byteOfWord_qpix_green, byteOfWord_qpix_red]
    simp only [toNat_ofNat_quant, quant_quant]
    rfl
  · have hbyte : byteOfWord (qpix w) k = BitVec.ofNat 8 (quant (byteOfWord w k).toNat) := by
      obtain rfl | rfl | rfl : k = 0 ∨ k = 1 ∨ k = 2 := by omega
      · exact byteOfWord_qpix_red w
      · exact byteOfWord_qpix_green w
      · exact byteOfWord_qpix_blue w
    exact (congrArg BitVec.toNat hbyte).trans (toNat_ofNat_quant _)

end Sys2Proof.Machine
end

section
/-! The run-length codec (R140 to R142, R145, R150, R151). -/

namespace Sys2Proof.Machine

/-- Settles O35: the runs are those of `runsOfPixels`, under their capacity. -/
theorem rleRunsAreMaximal : Obligations.RleRunsAreMaximal := fun runCap P =>
  ⟨runsOfPixels P, expandRuns_runsOfPixels P, maximalRuns_runsOfPixels P, rleRuns_eq runCap P⟩

/-! ## The encoders -/

theorem endingOf_rleEncoder {i : Instr} (hi : i = .rleEnc ∨ i = .qrleEnc) (s : State) :
    endingOf i s = rleEncEnding s (encodedPixels i s) := by
  rcases hi with rfl | rfl <;> rfl

@[simp] theorem encodedPixels_length (i : Instr) (s : State) : (encodedPixels i s).length = s.pixelCount := by
  cases i <;> simp [encodedPixels]

/-- The counts of the maximal runs are bounded by the number of pixels. -/
theorem cnt_le_of_mem_runsOfPixels {P : List Word} {u : Run} (h : u ∈ runsOfPixels P) : u.cnt ≤ P.length :=
  (cnt_le_expandRuns h).trans_eq (by rw [expandRuns_runsOfPixels])

/-- On an image that passes the checks an RLE encoder ends as `rle_runs` does (R141, R145). -/
theorem rleEncEnding_of_checks {s : State} (hlen : s.regNat .pixLen = 4 * s.pixelCount)
    (hcap : s.pixelCount ≤ s.caps.pixCap) (P : List Word) :
    rleEncEnding s P =
      if (runsOfPixels P).length ≤ s.caps.runCap then
        .success ((s.writeRuns (runsOfPixels P)).writeSizes ((runsOfPixels P).length * 32))
      else .runError .capacity ⟨[.runCount, .origSize, .compSize], [(.runs, Buf.words s.caps .runs)]⟩ := by
  rw [rleEncEnding, checkInputPixels_of hlen hcap, rleRuns_eq]
  by_cases hfit : (runsOfPixels P).length ≤ s.caps.runCap
  · rw [if_pos hfit, if_pos hfit]
  · rw [if_neg hfit, if_neg hfit]

/-- An RLE encoder that ends without error has passed the checks of R233. -/
theorem checks_of_rleEncEnding_noError {s : State} {P : List Word} (h : (rleEncEnding s P).code = .noError) :
    s.regNat .pixLen = 4 * s.pixelCount ∧ s.pixelCount ≤ s.caps.pixCap := by
  cases hc : s.checkInputPixels with
  | none => exact checkInputPixels_eq_none hc
  | some c =>
    rw [rleEncEnding, hc] at h
    exact absurd h (ne_noError_of_check (checkInputPixels_some hc))

theorem Writes.writeRunsAndSizes (s : State) (U : List Run) (n : Nat) :
    Writes [.runCount, .origSize, .compSize] [(.runs, 2 * U.length)] s ((s.writeRuns U).writeSizes n) :=
  .setRegNat (.setRegNat (.setRegNat (.bufFill .refl List.mem_cons_self (runWords_length U).le) (by decide) _)
    (by decide) _) (by decide) _

section
variable (s : State) {U : List Run} {n : Nat}

theorem State.regNat_runCount_writeRunsAndSizes (hlen : U.length < 2 ^ 32) :
    ((s.writeRuns U).writeSizes n).regNat .runCount = U.length :=
  State.regNat_setRegNat_same (s.bufFill .runs (runWords U)) .runCount hlen

theorem State.regNat_origSize_writeRunsAndSizes (hsize : s.regNat .pixLen * 8 < 2 ^ 32) :
    ((s.writeRuns U).writeSizes n).regNat .origSize = s.regNat .pixLen * 8 :=
  State.regNat_setRegNat_same (s.writeRuns U) .origSize hsize

theorem State.regNat_compSize_writeRunsAndSizes (hn : n < 2 ^ 32) :
    ((s.writeRuns U).writeSizes n).regNat .compSize = n :=
  State.regNat_setRegNat_same _ _ hn

/-- Stored runs read back when their number and their counts fit a word (R142). -/
theorem State.runList_writeRunsAndSizes (hlen : U.length < 2 ^ 32) (hcnt : ∀ u ∈ U, u.cnt < 2 ^ 32) :
    ((s.writeRuns U).writeSizes n).runList = U :=
  State.runList_eq (s.regNat_runCount_writeRunsAndSizes hlen) (s.bufRead_bufFill_inside .runs (runWords U)) hcnt

end

/-- Settles O36: the completion has the ending of `rleEncEnding_of_checks`; the capacities of a legal build bound every
number that it stores. -/
theorem rleEncodersResult : Obligations.RleEncodersResult := by
  intro s i hi hwf hlen hcap
  obtain ⟨⟨-, hpixCap⟩, ⟨-, hrunCap⟩, -⟩ := hwf
  have hend := (endingOf_rleEncoder hi s).trans (rleEncEnding_of_checks hlen hcap (encodedPixels i s))
  have hdone := exec_completed i s
  refine ⟨runsOfPixels (encodedPixels i s), expandRuns_runsOfPixels _, maximalRuns_runsOfPixels _,
    fun hfit => ⟨_, exec_eq i s, ?_⟩, fun hover => ⟨_, exec_eq i s, ?_⟩⟩
  · rw [hend, if_pos hfit] at hdone ⊢
    have hcnt : ∀ u ∈ runsOfPixels (encodedPixels i s), u.cnt < 2 ^ 32 := fun u hu => by
      have := cnt_le_of_mem_runsOfPixels hu
      rw [encodedPixels_length] at this
      omega
    have hwrites := Writes.writeRunsAndSizes s (runsOfPixels (encodedPixels i s))
      ((runsOfPixels (encodedPixels i s)).length * 32)
    exact ⟨hdone, s.runList_writeRunsAndSizes (by omega) hcnt, s.regNat_runCount_writeRunsAndSizes (by omega),
      s.regNat_origSize_writeRunsAndSizes (by omega), s.regNat_compSize_writeRunsAndSizes (by omega),
      hwrites.draws, hwrites.keptOutside.finish .noError⟩
  · rw [hend, if_neg (Nat.not_le.2 hover)] at hdone ⊢
    exact hdone

/-! ## The decoder -/

/-- Within the capacities RLE_DEC writes out the pixels of the runs, cut off at N (R150). -/
theorem endingOf_rleDec {s : State} (hN : s.pixelCount ≤ s.caps.pixCap) (hR : s.regNat .runCount ≤ s.caps.runCap) :
    endingOf .rleDec s = .success (s.writeOut ((expandRuns s.runList).take s.pixelCount)) := by
  have hcheck : s.checkRleDec = none := by
    rw [State.checkRleDec, if_neg (Nat.not_lt.2 hN), if_neg (Nat.not_lt.2 hR)]
  rw [endingOf, rleDecEnding, hcheck, replayRuns_eq_take]

theorem State.regNat_outCount_writeOut (s : State) {l : List Word} (hlen : l.length < 2 ^ 32) :
    (s.writeOut l).regNat .outCount = l.length :=
  State.regNat_setRegNat_same _ _ hlen

/-- Below N the pixels written out read back, with zeros after them (R46). -/
theorem State.pixOut_writeOut (s : State) (l : List Word) {p : Nat} (hp : p < s.pixelCount) :
    (s.writeOut l).pixOut p = l.getD p 0 := by
  have hin : p < (l ++ List.replicate (s.pixelCount - l.length) (0 : Word)).length := by
    rw [List.length_append, List.length_replicate]
    omega
  have hread := s.bufRead_bufFill_inside .pixOut _ p hin
  rw [State.pixOut, State.writeOut, State.bufRead_setRegNat, hread]
  by_cases hl : p < l.length
  · rw [List.getElem_append_left hl, List.getD_eq_getElem _ _ hl]
  · rw [List.getElem_append_right (Nat.not_lt.1 hl), List.getElem_replicate,
      List.getD_eq_default _ _ (Nat.not_lt.1 hl)]

/-- Settles O37: the completion has the ending of `endingOf_rleDec`, and what is written out reads back. -/
theorem rleDecoderResult : Obligations.RleDecoderResult := by
  intro s hwf hN hR
  obtain ⟨⟨-, hpixCap⟩, -⟩ := hwf
  have hdone := exec_completed .rleDec s
  refine ⟨_, exec_eq .rleDec s, ?_⟩
  rw [endingOf_rleDec hN hR] at hdone ⊢
  have hlen : ((expandRuns s.runList).take s.pixelCount).length = min s.pixelCount ((s.runList.map Run.cnt).sum) := by
    rw [List.length_take, expandRuns_length]
  have hwrites := writes_writeOut (i := .rleDec) (.inl rfl) (List.length_take_le s.pixelCount (expandRuns s.runList))
  refine ⟨hdone, ?_, fun p hp => ?_, hwrites.draws, hwrites.keptOutside.finish .noError⟩
  · exact (s.regNat_outCount_writeOut (by omega)).trans hlen
  · refine (s.pixOut_writeOut _ hp).trans ?_
    rw [List.getD_eq_getElem?_getD, List.getElem?_take_of_lt hp, List.getD_eq_getElem?_getD]

/-! ## The round trip -/

/-- A command that writes neither WIDTH nor HEIGHT keeps the pixel count. -/
theorem KeptOutside.pixelCount {s t : State} {regs : List DataReg} {bufs : List (Buf × Nat)}
    (h : KeptOutside s t regs bufs) (hw : .width ∉ regs) (hh : .height ∉ regs) : t.pixelCount = s.pixelCount := by
  simp only [State.pixelCount, State.regNat, h.regs _ hw, h.regs _ hh]

/-- Settles O38: the encoder leaves the runs of the encoded pixels and the image's size, and the decoder replays the
runs to exactly that size. -/
theorem rleRoundTrip : Obligations.RleRoundTrip := by
  intro s t u i hi hwf _ hst herr htu
  have hcode : (rleEncEnding s (encodedPixels i s)).code = .noError := by
    rw [exec_eq] at hst
    cases hst
    rw [← endingOf_rleEncoder hi, ← (exec_completed i s).errcode, herr]
  obtain ⟨hlen, hcap⟩ := checks_of_rleEncEnding_noError hcode
  obtain ⟨U, hexpand, -, hfits, hover⟩ := rleEncodersResult s i hi hwf hlen hcap
  have hfit : U.length ≤ s.caps.runCap := not_lt.1 fun hlt => by
    obtain ⟨_, ht, hdone⟩ := hover hlt
    cases hst.symm.trans ht
    exact absurd (herr.symm.trans hdone.errcode) (by decide)
  obtain ⟨_, ht, hdone, hruns, hcount, -, -, -, hkept⟩ := hfits hfit
  cases hst.symm.trans ht
  have hN : t.pixelCount = s.pixelCount := hkept.pixelCount (by decide) (by decide)
  obtain ⟨_, hu, hudone, hout, hpix, -⟩ := rleDecoderResult t (by rwa [hdone.caps])
    (by rwa [hN, hdone.caps]) (by rwa [hcount, hdone.caps])
  cases htu.symm.trans hu
  refine ⟨hudone.errcode, ?_, fun p hp => ?_⟩
  · rw [hout, hN, hruns, ← expandRuns_length, hexpand, encodedPixels_length, Nat.min_self]
  · rw [hpix p (by rwa [hN, ← encodedPixels_length i s]), hruns, hexpand, List.getD_eq_getElem _ _ hp]

end Sys2Proof.Machine
end

section
/-! The Huffman tree: its shape and the rounds of its build (R160 to R162). -/

namespace Sys2Proof.Machine

/-! ## One round -/

/-- A round on a sorted working list, written out (R162). -/
theorem mergeLowest_of_sorted {nodes : List HuffNode} {W rest : List Nat} {a b : Nat}
    (h : stableSort (freqOf nodes) W = a :: b :: rest) :
    mergeLowest nodes W =
      (nodes ++ [.internal (freqOf nodes a + freqOf nodes b) a b], rest ++ [nodes.length]) := by
  unfold mergeLowest
  rw [h]

/-- A round takes two entries from the working list and puts one back. -/
theorem mergeLowest_length {nodes : List HuffNode} {W : List Nat} (h : 1 < W.length) :
    (mergeLowest nodes W).2.length = W.length - 1 := by
  obtain ⟨a, b, rest, hsorted⟩ := exists_lowest (nodes := nodes) h
  have hlen := (stableSort_perm (freqOf nodes) W).length_eq
  rw [hsorted] at hlen
  rw [mergeLowest_of_sorted hsorted, ← hlen]
  simp

/-! ## All rounds -/

/-- The loop of `huffman_build` is as many rounds as leave one entry of the working list. -/
theorem buildLoop_eq_iterate (m : Nat) {nodes : List HuffNode} {W : List Nat} (h : W.length ≤ m + 1) :
    buildLoop m nodes W = (fun r => mergeLowest r.1 r.2)^[W.length - 1] (nodes, W) := by
  induction m generalizing nodes W with
  | zero => rw [Nat.sub_eq_zero_of_le h]; rfl
  | succ m ih =>
    unfold buildLoop
    split
    · rw [Nat.sub_eq_zero_of_le ‹_›]; rfl
    · have hmerged : (mergeLowest nodes W).2.length = W.length - 1 := mergeLowest_length (by omega)
      rw [ih (by omega), hmerged, show W.length - 1 = W.length - 1 - 1 + 1 by omega,
        Function.iterate_succ_apply]
      rfl

/-- The build is the loop's result: one entry is left in the working list, the root. -/
theorem buildLoop_eq_huffmanBuild {T : List FreqEntry} (hT : T ≠ []) :
    buildLoop T.length (leavesOf T) (List.range T.length) = ((huffmanBuild T).1, [(huffmanBuild T).2]) := by
  have hpos : 0 < T.length := List.length_pos_iff.2 hT
  obtain ⟨-, hlast⟩ := (buildInv_start T).loop T.length (by simp) (by rwa [List.length_range])
  obtain ⟨r, hr⟩ := List.length_eq_one_iff.1 hlast
  refine Prod.ext rfl ?_
  simp only [huffmanBuild, if_neg hpos.ne', hr, List.headD_cons]

/-- Settles O43: a round's order is the stable sort's, and the build is the loop's n-1 rounds. -/
theorem huffmanMergesTheTwoLowest : Obligations.HuffmanMergesTheTwoLowest := by
  refine ⟨fun nodes W hW => ?_, fun T hT => ?_⟩
  · obtain ⟨a, b, rest, hsorted⟩ := exists_lowest (nodes := nodes) hW
    refine ⟨a, b, rest, mergeLowest_of_sorted hsorted, ?_, ?_, fun f => ?_⟩ <;> rw [← hsorted]
    · exact stableSort_perm (freqOf nodes) W
    · exact stableSort_sorted (freqOf nodes) W
    · exact stableSort_stable (freqOf nodes) W f
  · have hrounds := buildLoop_eq_iterate T.length (nodes := leavesOf T) (W := List.range T.length) (by simp)
    rw [List.length_range] at hrounds
    exact hrounds.symm.trans (buildLoop_eq_huffmanBuild hT)

/-- Settles O42: the clauses are those of the build's invariant with the root as the only entry left. -/
theorem huffmanTreeShape : Obligations.HuffmanTreeShape := by
  refine ⟨huffmanBuild_nil, fun T hT => ?_⟩
  obtain ⟨hroot, hlen, hinv⟩ := huffmanBuild_inv hT
  refine ⟨hlen, hroot, hinv.leaves, fun k hge hlt => hinv.inner k hge (by rwa [hlen]), hinv.ordered, ?_⟩
  simpa using hinv.total

end Sys2Proof.Machine
end

section
/-! The code table of a Huffman tree (R164). -/

namespace Sys2Proof.Machine

/-- The one-symbol tree codes its symbol '0' (R164). -/
theorem codeTable_singleton (e : FreqEntry) :
    codeTable (huffmanBuild [e]).1 (huffmanBuild [e]).2 = [(e.pix, [false])] := rfl

/-- The root of a tree of at least two leaves is internal, and its children are nodes of the tree (R160, R161). -/
theorem huffmanBuild_root_internal {T : List FreqEntry} (hT : 2 ≤ T.length) :
    ∃ f l r, (huffmanBuild T).1[(huffmanBuild T).2]? = some (.internal f l r) := by
  obtain ⟨hroot, hlen, hinv⟩ := huffmanBuild_inv (List.length_pos_iff.1 (Nat.zero_lt_of_lt hT))
  exact hinv.inner _ (by omega) (by omega)

/-- With at least two symbols the table holds the codes under the root. -/
theorem codeTable_eq_codesUnder {T : List FreqEntry} (hT : 2 ≤ T.length) :
    codeTable (huffmanBuild T).1 (huffmanBuild T).2 = codesUnder (huffmanBuild T).1 (huffmanBuild T).2 := by
  obtain ⟨-, -, hinv⟩ := huffmanBuild_inv (List.length_pos_iff.1 (Nat.zero_lt_of_lt hT))
  obtain ⟨f, l, r, hinternal⟩ := huffmanBuild_root_internal hT
  unfold codeTable
  rw [hinternal]
  exact walkCodes_fuel hinv.ordered _ _ _ _ (hinv.inRange _ List.mem_cons_self) (Nat.lt_succ_self _)

/-- The codes under an internal node have at least one bit. -/
theorem one_le_length_of_mem_codesUnder {nodes : List HuffNode} (h : orderedNodes nodes) {k f l r : Nat}
    (hk : nodes[k]? = some (.internal f l r)) {c : Word × List Bool} (hc : c ∈ codesUnder nodes k) :
    1 ≤ c.2.length := by
  rw [codesUnder_internal h hk, List.mem_append, List.mem_map, List.mem_map] at hc
  obtain ⟨p, -, rfl⟩ | ⟨p, -, rfl⟩ := hc <;> exact Nat.succ_pos p.2.length

/-- Of the codes under a node, only the code itself begins with it. -/
theorem eq_of_prefix_of_mem_codesUnder {nodes : List HuffNode} (h : orderedNodes nodes) {k : Nat}
    {c d : Word × List Bool} (hc : c ∈ codesUnder nodes k) (hd : d ∈ codesUnder nodes k) (hcd : c.2 <+: d.2) :
    c = d := by
  by_contra hne
  have : Std.Symm fun p q : Word × List Bool => ¬p.2 <+: q.2 ∧ ¬q.2 <+: p.2 := ⟨fun _ _ => And.symm⟩
  exact ((codesUnder_prefixFree h k).forall hc hd hne).1 hcd

/-- The table has the symbols of the frequency table, one entry each. -/
theorem codeTable_symbols {T : List FreqEntry} (hT : T ≠ []) :
    ((codeTable (huffmanBuild T).1 (huffmanBuild T).2).map Prod.fst).Perm (T.map FreqEntry.pix) := by
  match T, hT with
  | [e], _ => rw [codeTable_singleton]; exact .refl _
  | e₁ :: e₂ :: T, hT =>
    rw [codeTable_eq_codesUnder (by simp)]
    simpa using (huffmanBuild_inv hT).2.2.symbols

/-- Settles O44: the one-symbol table is written out; a longer one holds the codes under the root, one for each leaf. -/
theorem codesArePrefixFree : Obligations.CodesArePrefixFree := by
  intro T hnodup hT C
  have hsymbols : (C.map Prod.fst).Perm (T.map FreqEntry.pix) := codeTable_symbols hT
  have hn : C.length = T.length := by simpa using hsymbols.length_eq
  refine ⟨fun w => hsymbols.mem_iff, hsymbols.nodup_iff.2 hnodup, ?_⟩
  rcases Nat.lt_or_ge T.length 2 with hone | htwo
  · obtain ⟨e, rfl⟩ := List.length_eq_one_iff.1 (by have := List.length_pos_iff.2 hT; omega : T.length = 1)
    have hC : ∀ c ∈ C, c = (e.pix, [false]) := fun c hc => List.mem_singleton.1 hc
    exact ⟨fun _ c hc => by rw [hC c hc], fun h => absurd h (by simp), fun h => absurd h (by simp),
      fun c hc d hd _ => (hC c hc).trans (hC d hd).symm⟩
  · obtain ⟨-, -, hinv⟩ := huffmanBuild_inv hT
    obtain ⟨f, l, r, hroot⟩ := huffmanBuild_root_internal htwo
    have hC : C = codesUnder (huffmanBuild T).1 (huffmanBuild T).2 := codeTable_eq_codesUnder htwo
    rw [hC] at hn ⊢
    have hshort := (codesUnder_length hinv.ordered _ (hinv.inRange _ List.mem_cons_self)).2
    refine ⟨fun h => by omega, fun _ c hc => ⟨one_le_length_of_mem_codesUnder hinv.ordered hroot hc, ?_⟩,
      fun _ c hc => codesUnder_followCode hinv.ordered _ c hc,
      fun c hc d hd => eq_of_prefix_of_mem_codesUnder hinv.ordered hc hd⟩
    have := hshort c hc
    omega

end Sys2Proof.Machine
end

section
/-! The Huffman decoder's result (R175). -/

namespace Sys2Proof.Machine

/-- Within the capacities, and with a valid tree where there are pixels, HUF_DEC writes out what it decodes (R175). -/
theorem endingOf_hufDec {s : State} (hN : s.pixelCount ≤ s.caps.pixCap) (hbits : s.regNat .bitLen ≤ s.caps.bitsCap)
    (hnodes : s.regNat .nodeCount ≤ nodeCap s.caps) (htree : s.pixelCount = 0 ∨ s.treeValid = true) :
    endingOf .hufDec s = .success (s.writeOut (hufDecoded s)) := by
  have htree' : ¬(s.pixelCount > 0 ∧ s.treeValid = false) := by
    rintro ⟨hpos, hinvalid⟩
    rcases htree with h | h
    · omega
    · exact absurd (hinvalid.symm.trans h) Bool.false_ne_true
  have hcheck : s.checkHufDec = none := by
    rw [State.checkHufDec, if_neg (Nat.not_lt.2 hN), if_neg (Nat.not_lt.2 hbits), if_neg (Nat.not_lt.2 hnodes),
      if_neg htree']
  rw [endingOf, hufDecEnding, hcheck]

/-- With a leaf at the root each bit gives the leaf's symbol, up to N times (R175); also where N is 0. -/
theorem hufDecoded_of_leaf {s : State} (h : s.treeKind (s.regNat .root) = 0) :
    hufDecoded s = List.replicate (min s.pixelCount (s.regNat .bitLen)) (s.treeA (s.regNat .root)) := by
  unfold hufDecoded
  by_cases h0 : s.pixelCount = 0
  · rw [if_pos h0, h0, Nat.zero_min, List.replicate_zero]
  · rw [if_neg h0, if_pos h]

/-- With an internal node at the root the decoding loop gives the pixels (R175); also where N is 0. -/
theorem hufDecoded_of_internal {s : State} (h : s.treeKind (s.regNat .root) ≠ 0) :
    hufDecoded s = hufDecodeFrom s s.pixelCount (s.regNat .root) s.bitList := by
  unfold hufDecoded
  by_cases h0 : s.pixelCount = 0
  · have hlen := hufDecodeFrom_length_le s s.bitList 0 (s.regNat .root)
    rw [if_pos h0, h0]
    exact (List.length_eq_zero_iff.1 (by omega)).symm
  · rw [if_neg h0, if_neg h]

/-- Settles O46: the completion has the ending of `endingOf_hufDec`, and what is written out reads back. -/
theorem hufDecoderResult : Obligations.HufDecoderResult := by
  intro s hwf hN hbits hnodes htree
  obtain ⟨⟨-, hpixCap⟩, -⟩ := hwf
  have hdone := exec_completed .hufDec s
  refine ⟨_, exec_eq .hufDec s, ?_⟩
  rw [endingOf_hufDec hN hbits hnodes htree] at hdone ⊢
  have hlen := hufDecoded_length_le s
  have hwrites := writes_writeOut (i := .hufDec) (.inr (.inl rfl)) hlen
  exact ⟨hdone, s.regNat_outCount_writeOut (by omega), hlen, fun p hp => s.pixOut_writeOut _ hp, hwrites.draws,
    hwrites.keptOutside.finish .noError, hufDecoded_of_leaf, hufDecoded_of_internal⟩

end Sys2Proof.Machine
end

section
/-! The Huffman encoder's result (R163, R165, R166). -/

namespace Sys2Proof.Machine

/-! ## What HUF_ENC stores -/

/-- The writes of a successful HUF_ENC (R166): the table, the tree, the stream and the size report. -/
@[irreducible] def State.writeHuffman (s : State) (T : List FreqEntry) (nodes : List HuffNode) (root : Nat) (S : List Bool) :
    State :=
  (((s.writeFreq T).writeTree nodes root).writeBits S).writeSizes S.length

theorem Writes.writeHuffman (s : State) (T : List FreqEntry) (nodes : List HuffNode) (root : Nat) (S : List Bool) :
    Writes [.symCount, .nodeCount, .root, .bitLen, .origSize, .compSize]
      [(.freq, 2 * T.length), (.tree, 4 * nodes.length), (.bits, (S.length + 31) / 32)] s
      (s.writeHuffman T nodes root S) := by
  unfold State.writeHuffman
  have hfreq := Writes.bufFill (regs := [.symCount, .nodeCount, .root, .bitLen, .origSize, .compSize])
    (bufs := [(.freq, 2 * T.length), (.tree, 4 * nodes.length), (.bits, (S.length + 31) / 32)])
    (.refl (s := s)) (b := .freq) (by simp) (freqWords_length T).le
  have htree := (hfreq.setRegNat (d := .symCount) (by simp) T.length).bufFill (b := .tree) (by simp)
    (treeWords_length nodes).le
  have hbits := ((htree.setRegNat (d := .nodeCount) (by simp) nodes.length).setRegNat (d := .root) (by simp)
    root).bufFill (b := .bits) (by simp) (packBits_length S).le
  exact ((hbits.setRegNat (d := .bitLen) (by simp) _).setRegNat (d := .origSize) (by simp) _).setRegNat
    (d := .compSize) (by simp) _

/-- The registers that HUF_ENC leaves. -/
theorem State.writeHuffman_regs (s : State) (T : List FreqEntry) (nodes : List HuffNode) (root : Nat)
    (S : List Bool) :
    (s.writeHuffman T nodes root S).regs = { s.regs with
      symCount := BitVec.ofNat 32 T.length
      nodeCount := BitVec.ofNat 32 nodes.length
      root := BitVec.ofNat 32 root
      bitLen := BitVec.ofNat 32 S.length
      origSize := BitVec.ofNat 32 (s.regNat .pixLen * 8)
      compSize := BitVec.ofNat 32 S.length } := by
  simp only [State.writeHuffman, State.writeSizes, State.writeBits, State.writeTree, State.writeFreq,
    State.setRegNat_regs, State.bufFill_regs, State.regNat, State.reg, Regs.set, Regs.get]

/-- BITS is filled last, so a read of another buffer goes back to the table and the tree. -/
theorem State.bufRead_writeHuffman (s : State) (T : List FreqEntry) (nodes : List HuffNode) (root : Nat)
    (S : List Bool) (b : Buf) (w : Nat) :
    (s.writeHuffman T nodes root S).bufRead b w =
      (((s.writeFreq T).writeTree nodes root).bufFill .bits (packBits S)).bufRead b w := by
  simp only [State.writeHuffman, State.writeSizes, State.writeBits, State.bufRead_setRegNat]

/-- A register that holds a number below 2^32 reads as that number (R11). -/
theorem State.regNat_of_get (s : State) {d : DataReg} {n : Nat} (hd : s.regs.get d = BitVec.ofNat 32 n)
    (hn : n < 2 ^ 32) : s.regNat d = n := by
  rw [State.regNat, State.reg, hd, BitVec.toNat_ofNat, Nat.mod_eq_of_lt hn]

/-! Within the largest legal capacities (R9) the three fills do not meet, and the lengths fit their registers. -/

section
variable (s : State) {T : List FreqEntry} {nodes : List HuffNode} {S : List Bool} {root : Nat}
variable (hT : T.length ≤ 2 ^ 23) (hnodes : nodes.length ≤ 2 ^ 24) (hS : S.length ≤ 2 ^ 31)

include hT hnodes hS

/-- The table reads back (R132): the tree and the stream lie in other buffers. -/
theorem State.freqList_writeHuffman (hcnt : ∀ e ∈ T, e.cnt < 2 ^ 32) :
    (s.writeHuffman T nodes root S).freqList = T := by
  refine State.freqList_eq (State.regNat_of_get _ (congrArg Regs.symCount (s.writeHuffman_regs ..)) (by omega)) (fun i hi => ?_) hcnt
  have htree : (nodes.flatMap nodeWords).length ≤ 2 ^ 26 := by rw [treeWords_length]; omega
  have hbits : (packBits S).length ≤ 2 ^ 26 := by rw [packBits_length]; omega
  have hi' : i < 2 ^ 26 := by rw [freqWords_length] at hi; omega
  rw [State.bufRead_writeHuffman, State.bufRead_bufFill_other _ (by decide) _ _ hbits hi',
    State.writeTree, State.bufRead_setRegNat, State.bufRead_setRegNat,
    State.bufRead_bufFill_other _ (by decide) _ _ htree hi', State.writeFreq, State.bufRead_setRegNat,
    State.bufRead_bufFill_inside _ _ _ _ hi]

omit hT in
/-- The tree reads back (R84, R163): the stream lies in another buffer. -/
theorem State.treeNode_writeHuffman (k : Nat) (hk : k < nodes.length) :
    [(s.writeHuffman T nodes root S).treeKind k, (s.writeHuffman T nodes root S).treeFreq k,
      (s.writeHuffman T nodes root S).treeA k, (s.writeHuffman T nodes root S).treeB k] = nodeWords nodes[k] := by
  refine State.treeNode_eq (fun i hi => ?_) k hk
  have hbits : (packBits S).length ≤ 2 ^ 26 := by rw [packBits_length]; omega
  have hi' : i < 2 ^ 26 := by rw [treeWords_length] at hi; omega
  rw [State.bufRead_writeHuffman, State.bufRead_bufFill_other _ (by decide) _ _ hbits hi',
    State.writeTree, State.bufRead_setRegNat, State.bufRead_setRegNat, State.bufRead_bufFill_inside _ _ _ _ hi]

omit hT hnodes in
/-- The stream reads back (R82, R165). -/
theorem State.bitList_writeHuffman : (s.writeHuffman T nodes root S).bitList = S :=
  State.bitList_eq (State.regNat_of_get _ (congrArg Regs.bitLen (s.writeHuffman_regs ..)) (by omega)) fun i hi => by
    rw [State.bufRead_writeHuffman, State.bufRead_bufFill_inside _ _ _ _ hi]

end

/-! ## HUF_ENC -/

/-- Emission from the empty stream: the codes of the pixels, if they fit (R165, R166). -/
theorem emitCodes_empty (cap : Nat) (C : List (Word × List Bool)) (P : List Word) :
    emitCodes cap C .empty P =
      if (codeBits C P).length ≤ cap then .ok ⟨(codeBits C P).reverse, (codeBits C P).length⟩
      else .error .capacity := by
  simpa [Stream.empty] using emitCodes_eq cap C P .empty (Nat.zero_le _)

/-- The root's number, the empty table's included (R161). -/
theorem huffmanBuild_root (T : List FreqEntry) : (huffmanBuild T).2 = 2 * T.length - 2 := by
  by_cases h : T = []
  · rw [h, huffmanBuild_nil]; rfl
  · exact (huffmanBuild_inv h).1

section
variable {s : State} {T : List FreqEntry} {nodes : List HuffNode} {root : Nat} {S : List Bool}

/-- HUF_ENC of an image that passes the checks ends as the capacities of FREQ and BITS allow (R166). -/
theorem endingOf_hufEnc (hlen : s.regNat .pixLen = 4 * s.pixelCount) (hcap : s.pixelCount ≤ s.caps.pixCap)
    (hT : T = countTable s.pixIn) (hbuilt : (nodes, root) = huffmanBuild T)
    (hS : S = codeBits (codeTable nodes root) s.pixIn) :
    endingOf .hufEnc s =
      if T.length ≤ s.caps.symCap then
        if S.length ≤ s.caps.bitsCap then .success (s.writeHuffman T nodes root S)
        else .runError .capacity ⟨hufEncRegs, [(.freq, 2 * T.length), (.tree, 4 * nodes.length),
          (.bits, Buf.words s.caps .bits)]⟩
      else .runError .capacity ⟨hufEncRegs, [(.freq, Buf.words s.caps .freq), (.tree, Buf.words s.caps .tree),
        (.bits, Buf.words s.caps .bits)]⟩ := by
  rw [endingOf, hufEncEnding, checkInputPixels_of hlen hcap, freqModel_table, ← hT]
  by_cases hsym : T.length ≤ s.caps.symCap
  · simp only [if_pos hsym, ← hbuilt, emitCodes_empty, ← hS]
    by_cases hbits : S.length ≤ s.caps.bitsCap
    · simp only [if_pos hbits, Stream.bits, List.reverse_reverse, State.writeHuffman]
    · simp only [if_neg hbits]
  · simp only [if_neg hsym]

/-- HUF_ENC ends with CAPACITY when the table or the stream does not fit. -/
theorem endingOf_hufEnc_code_of_overflow (hlen : s.regNat .pixLen = 4 * s.pixelCount)
    (hcap : s.pixelCount ≤ s.caps.pixCap) (hT : T = countTable s.pixIn) (hbuilt : (nodes, root) = huffmanBuild T)
    (hS : S = codeBits (codeTable nodes root) s.pixIn)
    (hover : s.caps.symCap < T.length ∨ s.caps.bitsCap < S.length) : (endingOf .hufEnc s).code = .capacity := by
  rw [endingOf_hufEnc hlen hcap hT hbuilt hS]
  split_ifs with hsym hbits
  · omega
  · rfl
  · rfl

end

/-- Settles O45: the completion has the ending of `endingOf_hufEnc`; the capacities of a legal build bound the table,
the tree and the stream, so that all three read back. -/
theorem hufEncoderResult : Obligations.HufEncoderResult := by
  intro s T nodes root S hwf hlen hcap hT hbuilt hS
  have hdone := exec_completed .hufEnc s
  refine ⟨fun hsym hbits => ⟨_, exec_eq .hufEnc s, ?_⟩, fun hover => ⟨_, exec_eq .hufEnc s, ?_⟩⟩
  · obtain ⟨⟨-, hpixCap⟩, -, ⟨-, hsymCap⟩, -, hbitsCap⟩ := hwf
    rw [endingOf_hufEnc hlen hcap hT hbuilt hS, if_pos hsym, if_pos hbits] at hdone ⊢
    have hcnt : ∀ e ∈ T, e.cnt < 2 ^ 32 := fun e he => by
      have := countTable_cnt_le (hT ▸ he)
      rw [State.pixIn_length] at this
      omega
    have hn : nodes.length = 2 * T.length - 1 := by rw [← huffmanBuild_length, ← hbuilt]
    have hroot : root = 2 * T.length - 2 := by rw [← huffmanBuild_root, ← hbuilt]
    have hT' : T.length ≤ 2 ^ 23 := hsym.trans hsymCap
    have hS' : S.length ≤ 2 ^ 31 := hbits.trans hbitsCap
    have hwrites := Writes.writeHuffman s T nodes root S
    have hregs := s.writeHuffman_regs T nodes root S
    refine ⟨hdone, s.freqList_writeHuffman hT' (by omega) hS' hcnt,
      State.regNat_of_get _ (congrArg Regs.symCount hregs) (by omega),
      State.regNat_of_get _ (congrArg Regs.nodeCount hregs) (by omega),
      State.regNat_of_get _ (congrArg Regs.root hregs) (by omega), fun k hk => ?_,
      s.bitList_writeHuffman hS', State.regNat_of_get _ (congrArg Regs.bitLen hregs) (by omega),
      State.regNat_of_get _ (congrArg Regs.origSize hregs) (by omega),
      State.regNat_of_get _ (congrArg Regs.compSize hregs) (by omega), hwrites.draws,
      hwrites.keptOutside.finish .noError⟩
    refine (s.treeNode_writeHuffman (by omega) hS' k hk).trans ?_
    cases nodes[k] <;> rfl
  · rwa [endingOf_hufEnc_code_of_overflow hlen hcap hT hbuilt hS hover] at hdone

end Sys2Proof.Machine
end

section
/-! The Huffman round trip (R176): a state that holds an encoder's tree, and what decoding on it gives. -/

namespace Sys2Proof.Machine

/-! ## A stored tree -/

/-- TREE holds the nodes, record for record (R84, R163). -/
def holdsTree (t : State) (nodes : List HuffNode) : Prop :=
  ∀ k (h : k < nodes.length), [t.treeKind k, t.treeFreq k, t.treeA k, t.treeB k] = nodeWords nodes[k]

theorem holdsTree.leaf {t : State} {nodes : List HuffNode} (h : holdsTree t nodes) {k f : Nat} {pix : Word}
    (hk : nodes[k]? = some (.leaf pix f)) : t.treeKind k = 0 ∧ t.treeA k = pix := by
  obtain ⟨hlt, hnode⟩ := List.getElem?_eq_some_iff.1 hk
  have hwords := h k hlt
  rw [hnode] at hwords
  simp only [nodeWords, List.cons.injEq] at hwords
  obtain ⟨hkind, -, ha, -⟩ := hwords
  exact ⟨hkind, ha⟩

/-- An internal node's record has kind 1, and its children are the node's: their numbers fit a word. -/
theorem holdsTree.internal {t : State} {nodes : List HuffNode} (h : holdsTree t nodes) (hord : orderedNodes nodes)
    (hlen : nodes.length ≤ 2 ^ 32) {k f l r : Nat} (hk : nodes[k]? = some (.internal f l r)) :
    t.treeKind k = 1 ∧ ∀ b, t.treeChild k b = if b then r else l := by
  obtain ⟨hlt, hnode⟩ := List.getElem?_eq_some_iff.1 hk
  obtain ⟨hl, hr, -⟩ := hord.children hk
  have hwords := h k hlt
  rw [hnode] at hwords
  simp only [nodeWords, List.cons.injEq] at hwords
  obtain ⟨hkind, -, ha, hb, -⟩ := hwords
  refine ⟨hkind, fun b => ?_⟩
  rw [treeChild_eq, ha, hb]
  cases b
  · exact Nat.mod_eq_of_lt (by omega)
  · exact Nat.mod_eq_of_lt (by omega)

/-- An encoder's tree is valid (R172). -/
theorem holdsTree.treeValid {t : State} {nodes : List HuffNode} (h : holdsTree t nodes) (hord : orderedNodes nodes)
    (hlen : nodes.length ≤ 2 ^ 32) (hcount : t.regNat .nodeCount = nodes.length)
    (hroot : t.regNat .root < nodes.length) : t.treeValid = true := by
  have hnode : ∀ k < nodes.length, t.treeNodeValid k = true := fun k hk => by
    rw [State.treeNodeValid, hcount, Bool.or_eq_true, Bool.and_eq_true, Bool.and_eq_true]
    cases hn : nodes[k] with
    | leaf pix f =>
      have hkind := (h.leaf (List.getElem?_eq_some_iff.2 ⟨hk, hn⟩)).1
      exact .inl (beq_iff_eq.2 hkind)
    | internal f l r =>
      have hk' := List.getElem?_eq_some_iff.2 ⟨hk, hn⟩
      obtain ⟨hkind, hchild⟩ := h.internal hord hlen hk'
      obtain ⟨hl, hr, -⟩ := hord.children hk'
      have ha : (t.treeA k).toNat = l := hchild false
      have hb : (t.treeB k).toNat = r := hchild true
      exact .inr ⟨⟨beq_iff_eq.2 hkind, decide_eq_true (by omega)⟩, decide_eq_true (by omega)⟩
  rw [State.treeValid, hcount, Bool.and_eq_true, Bool.and_eq_true, List.all_eq_true]
  exact ⟨⟨decide_eq_true (Nat.one_le_of_lt hroot), decide_eq_true hroot⟩, fun k hk => hnode k (List.mem_range.1 hk)⟩

/-! ## Decoding one code, and the codes of an image -/

/-- A code of at least one bit leads through an internal node. -/
theorem followCode_cons {nodes : List HuffNode} {k : Nat} {b : Bool} {code : List Bool} {n : HuffNode}
    (h : followCode nodes k (b :: code) = some n) :
    ∃ f l r, nodes[k]? = some (.internal f l r) ∧ followCode nodes (if b then r else l) code = some n := by
  rw [followCode] at h
  cases hk : nodes[k]? with
  | none => rw [hk] at h; cases h
  | some m =>
    rw [hk] at h
    cases m with
    | leaf => cases h
    | internal f l r => exact ⟨f, l, r, rfl, h⟩

/-- The loop follows a code to its leaf, emits the leaf's symbol and goes on from the root (R175). -/
theorem holdsTree.hufDecodeFrom_code {t : State} {nodes : List HuffNode} (h : holdsTree t nodes)
    (hord : orderedNodes nodes) (hlen : nodes.length ≤ 2 ^ 32) {pix : Word} {f : Nat} (room : Nat)
    (rest : List Bool) {code : List Bool} (hne : code ≠ []) {cur : Nat}
    (hcode : followCode nodes cur code = some (.leaf pix f)) :
    hufDecodeFrom t (room + 1) cur (code ++ rest) = pix :: hufDecodeFrom t room (t.regNat .root) rest := by
  induction code generalizing cur with
  | nil => exact absurd rfl hne
  | cons b code ih =>
    obtain ⟨_, l, r, hcur, hnext⟩ := followCode_cons hcode
    have hchild := (h.internal hord hlen hcur).2 b
    rw [← hchild] at hnext
    rw [List.cons_append]
    cases code with
    | nil =>
      obtain ⟨hkind, ha⟩ := h.leaf hnext
      rw [hufDecodeFrom_leaf hkind, ha, List.nil_append]
    | cons b' code =>
      obtain ⟨_, _, _, hinternal, -⟩ := followCode_cons hnext
      have hkind : t.treeKind (t.treeChild cur b) ≠ 0 := by
        rw [(h.internal hord hlen hinternal).1]
        decide
      rw [hufDecodeFrom_internal hkind, ih (List.cons_ne_nil _ _) hnext]

/-- The loop gives back the pixels whose codes it reads. -/
theorem holdsTree.hufDecodeFrom_codeBits {t : State} {nodes : List HuffNode} (h : holdsTree t nodes)
    (hord : orderedNodes nodes) (hlen : nodes.length ≤ 2 ^ 32) {C : List (Word × List Bool)} {P : List Word}
    (hC : ∀ w ∈ P, codeOf C w ≠ [] ∧ ∃ f, followCode nodes (t.regNat .root) (codeOf C w) = some (.leaf w f)) :
    hufDecodeFrom t P.length (t.regNat .root) (codeBits C P) = P := by
  induction P with
  | nil => exact hufDecodeFrom_nil t 0 _
  | cons w P ih =>
    obtain ⟨hne, f, hcode⟩ := hC w List.mem_cons_self
    rw [codeBits, List.flatMap_cons, List.length_cons, h.hufDecodeFrom_code hord hlen _ _ hne hcode]
    exact congrArg (w :: ·) (ih fun w' hw' => hC w' (List.mem_cons_of_mem w hw'))

/-! ## Decoding an encoded image -/

/-- The code of a symbol of the code table is its entry there. -/
theorem mk_codeOf_mem {C : List (Word × List Bool)} {w : Word} (hw : w ∈ C.map Prod.fst) : (w, codeOf C w) ∈ C := by
  obtain ⟨c, hc, rfl⟩ := List.mem_map.1 hw
  unfold codeOf
  cases hl : C.lookup c.1 with
  | none => exact absurd (List.lookup_eq_none_iff.1 hl c hc) (by simp)
  | some code =>
    obtain ⟨C₁, C₂, rfl, -⟩ := List.lookup_eq_some_iff.1 hl
    exact List.mem_append_right _ List.mem_cons_self

theorem countTable_ne_nil {P : List Word} (h : P ≠ []) : countTable P ≠ [] := by
  obtain ⟨w, P, rfl⟩ := List.exists_cons_of_ne_nil h
  exact List.cons_ne_nil _ _

/-- Every pixel of an image has an entry in the code table of the image's tree. -/
theorem mk_codeOf_mem_codeTable {P : List Word} {w : Word} (hw : w ∈ P) :
    (w, codeOf (codeTable (huffmanBuild (countTable P)).1 (huffmanBuild (countTable P)).2) w) ∈
      codeTable (huffmanBuild (countTable P)).1 (huffmanBuild (countTable P)).2 := by
  have hmem : w ∈ (countTable P).map FreqEntry.pix := by rwa [countTable_pix, mem_firstSeen]
  exact mk_codeOf_mem ((codeTable_symbols (countTable_ne_nil (List.ne_nil_of_mem hw))).mem_iff.2 hmem)

section
variable {t : State} {P : List Word}
variable (htree : holdsTree t (huffmanBuild (countTable P)).1)
variable (hroot : t.regNat .root = (huffmanBuild (countTable P)).2) (hN : t.pixelCount = P.length)
variable (hbits : t.bitList = codeBits (codeTable (huffmanBuild (countTable P)).1 (huffmanBuild (countTable P)).2) P)

include htree hroot hN hbits

/-- One symbol: the encoder wrote one bit for each pixel, and each bit gives the symbol (R176). -/
theorem hufDecoded_of_one_symbol (hone : (countTable P).length = 1) : hufDecoded t = P := by
  obtain ⟨e, he⟩ := List.length_eq_one_iff.1 hone
  have hP : P = List.replicate P.length e.pix := by
    refine List.eq_replicate_iff.2 ⟨rfl, fun w hw => ?_⟩
    rw [← mem_firstSeen, ← countTable_pix, he] at hw
    exact List.mem_singleton.1 hw
  rw [he] at htree hroot hbits
  obtain ⟨hkind, ha⟩ := htree.leaf (k := 0) (pix := e.pix) (f := e.cnt) rfl
  have hroot0 : t.regNat .root = 0 := hroot
  have hlen : t.regNat .bitLen = P.length := by
    rw [← State.bitList_length, hbits, codeTable_singleton, hP]
    simp [codeBits, codeOf]
  rw [hufDecoded_of_leaf (by rwa [hroot0]), hroot0, ha, hlen, hN, Nat.min_self, ← hP]

/-- At least two symbols: the loop follows each pixel's code to its leaf (R176). -/
theorem hufDecoded_of_symbols (htwo : 2 ≤ (countTable P).length)
    (hlen : (huffmanBuild (countTable P)).1.length ≤ 2 ^ 32) : hufDecoded t = P := by
  have hnodup : ((countTable P).map FreqEntry.pix).Nodup := by
    rw [countTable_pix]
    exact firstSeen_nodup P
  have hT : countTable P ≠ [] := List.length_pos_iff.1 (Nat.zero_lt_of_lt htwo)
  obtain ⟨-, -, -, hpos, hfollow, -⟩ := codesArePrefixFree (countTable P) hnodup hT
  obtain ⟨-, -, hinv⟩ := huffmanBuild_inv hT
  obtain ⟨f, l, r, hinternal⟩ := huffmanBuild_root_internal htwo
  have hkind : t.treeKind (t.regNat .root) ≠ 0 := by
    rw [hroot, (htree.internal hinv.ordered hlen hinternal).1]
    decide
  rw [hufDecoded_of_internal hkind, hN, hbits]
  refine htree.hufDecodeFrom_codeBits hinv.ordered hlen fun w hw => ?_
  have hentry := mk_codeOf_mem_codeTable hw
  rw [hroot]
  exact ⟨List.length_pos_iff.1 (hpos htwo _ hentry).1, hfollow htwo _ hentry⟩

/-- Decoding on an encoded image gives back its pixels. -/
theorem hufDecoded_of_encoded (hP : P ≠ []) (hlen : (huffmanBuild (countTable P)).1.length ≤ 2 ^ 32) :
    hufDecoded t = P := by
  have hpos := List.length_pos_iff.2 (countTable_ne_nil hP)
  rcases Nat.lt_or_ge (countTable P).length 2 with hone | htwo
  · exact hufDecoded_of_one_symbol htree hroot hN hbits (by omega)
  · exact hufDecoded_of_symbols htree hroot hN hbits htwo hlen

end

/-! ## The round trip -/

/-- A HUF_ENC that ends without error has passed the checks of R233, and its table and its stream fit. -/
theorem fits_of_hufEnc_noError {s : State} (h : (endingOf .hufEnc s).code = .noError) :
    (s.regNat .pixLen = 4 * s.pixelCount ∧ s.pixelCount ≤ s.caps.pixCap) ∧
      (countTable s.pixIn).length ≤ s.caps.symCap ∧
      (codeBits (codeTable (huffmanBuild (countTable s.pixIn)).1 (huffmanBuild (countTable s.pixIn)).2)
        s.pixIn).length ≤ s.caps.bitsCap := by
  cases hc : s.checkInputPixels with
  | none =>
    obtain ⟨hlen, hcap⟩ := checkInputPixels_eq_none hc
    refine ⟨⟨hlen, hcap⟩, ?_⟩
    by_contra hover
    rw [not_and_or, not_le, not_le] at hover
    rw [endingOf_hufEnc_code_of_overflow hlen hcap rfl rfl rfl hover] at h
    cases h
  | some c =>
    rw [endingOf, hufEncEnding, hc] at h
    exact absurd h (ne_noError_of_check (checkInputPixels_some hc))

/-- Settles O48: the encoder leaves the image's tree, which passes the decoder's checks, and the codes of its pixels,
which decode to the pixels. -/
theorem huffmanRoundTrip : Obligations.HuffmanRoundTrip := by
  intro s t u hwf hpos hst herr htu
  have hcode : (endingOf .hufEnc s).code = .noError := by
    rw [exec_eq] at hst
    cases hst
    rw [← herr, (exec_completed .hufEnc s).errcode]
  obtain ⟨⟨hlen, hcap⟩, hsym, hfit⟩ := fits_of_hufEnc_noError hcode
  obtain ⟨_, ht, hdone, -, -, hcount, hroot, hwords, hbits, hbitLen, -, -, -, hkept⟩ :=
    (hufEncoderResult s (countTable s.pixIn) (huffmanBuild (countTable s.pixIn)).1
      (huffmanBuild (countTable s.pixIn)).2 _ hwf hlen hcap rfl rfl rfl).1 hsym hfit
  cases hst.symm.trans ht
  have htree : holdsTree t (huffmanBuild (countTable s.pixIn)).1 := fun k hk => by
    rw [hwords k hk]
    cases (huffmanBuild (countTable s.pixIn)).1[k] <;> rfl
  have hP : s.pixIn ≠ [] := List.length_pos_iff.1 (by rwa [State.pixIn_length])
  have hn := huffmanBuild_length (countTable s.pixIn)
  have hsymCap : s.caps.symCap ≤ 2 ^ 23 := by
    obtain ⟨-, -, ⟨-, h⟩, -⟩ := hwf
    exact h
  have hN : t.pixelCount = s.pixIn.length := by
    rw [hkept.pixelCount (by decide) (by decide), State.pixIn_length]
  obtain ⟨-, -, hinv⟩ := huffmanBuild_inv (countTable_ne_nil hP)
  have hvalid : t.treeValid = true := htree.treeValid hinv.ordered (by omega) hcount
    (by rw [hroot]; exact hinv.inRange _ List.mem_cons_self)
  have hdecoded : hufDecoded t = s.pixIn := hufDecoded_of_encoded htree hroot hN hbits hP (by omega)
  obtain ⟨_, hu, hudone, hout, -, hpix, -⟩ := hufDecoderResult t (by rwa [hdone.caps])
    (by rwa [hN, hdone.caps, State.pixIn_length]) (by rwa [hbitLen, hdone.caps])
    (by rw [hcount, hdone.caps]; omega) (.inr hvalid)
  cases htu.symm.trans hu
  refine ⟨hudone.errcode, ?_, fun p hp => ?_⟩
  · rw [hout, hdecoded, State.pixIn_length]
  · have hp' : p < s.pixIn.length := by rwa [State.pixIn_length]
    rw [hpix p (by rwa [hN]), hdecoded, List.getD_eq_getElem _ _ hp']
    simp [State.pixIn]

end Sys2Proof.Machine
end

section
/-! Rounding to binary64 as a function (R52): it keeps representable magnitudes and order, so it never passes a
representable magnitude. -/

namespace Sys2Proof.Machine

/-! ## Magnitudes -/

/-- A representable magnitude is its own rounding. -/
theorem roundUnits_exact {m den : Nat} (hm : representable m) (hd : 0 < den) : roundUnits (m * den) den = m := by
  have hnear := (roundUnits_nearestEven (m * den) hd).nearest m hm
  rw [Nat.cast_mul, sub_self, abs_zero] at hnear
  have heq : (roundUnits (m * den) den * den : Int) = m * den := sub_eq_zero.1 (abs_nonpos_iff.1 hnear)
  exact Nat.eq_of_mul_eq_mul_right hd (by exact_mod_cast heq)

/-- Rounding keeps order: were the results in the wrong order, both values would be their midpoint. -/
theorem roundUnits_mono {num num' den : Nat} (hd : 0 < den) (h : num ≤ num') :
    roundUnits num den ≤ roundUnits num' den := by
  by_contra hlt
  have hround := roundUnits_nearestEven num hd
  have hround' := roundUnits_nearestEven num' hd
  have hnear := hround.nearest _ hround'.representable
  have hnear' := hround'.nearest _ hround.representable
  have hmul : (roundUnits num' den * den : Int) < roundUnits num den * den := by
    exact_mod_cast Nat.mul_lt_mul_of_pos_right (Nat.not_le.1 hlt) hd
  have hsame : num = num' := by
    generalize (roundUnits num' den * den : Int) = y at *
    generalize (roundUnits num den * den : Int) = x at *
    have hmid : x + y ≤ 2 * num := by
      by_contra hgt
      have hfar : |y - num| < x - num := abs_lt.2 ⟨by omega, by omega⟩
      exact absurd (le_abs_self (x - num)) (by omega)
    have hmid' : 2 * num' ≤ x + y := by
      by_contra hgt
      have hfar : |x - num'| < -(y - num') := abs_lt.2 ⟨by omega, by omega⟩
      exact absurd (neg_le_abs (y - num')) (by omega)
    omega
  exact hlt (by rw [hsame])

theorem roundUnits_le {num den m : Nat} (hm : representable m) (hd : 0 < den) (h : num ≤ m * den) :
    roundUnits num den ≤ m := (roundUnits_mono hd h).trans (roundUnits_exact hm hd).le

/-- At most half a unit rounds to zero, a tie included. -/
theorem roundUnits_eq_zero {num den : Nat} (hd : 0 < den) (h : 2 * num ≤ den) : roundUnits num den = 0 := by
  have hdiv : num / den = 0 := Nat.div_eq_of_lt (by omega)
  have hmod : num % den = num := Nat.mod_eq_of_lt (by omega)
  have hspacing : spacing num den = 1 := by rw [spacing, hdiv]; rfl
  rw [roundUnits, hspacing, Nat.mul_one, Nat.mul_one, roundDiv, hmod, hdiv]
  split_ifs
  · rfl
  · omega
  · rfl

/-! ## Values -/

theorem two_pow_lt_unitsLimit {e : Nat} (h : e < 2098) : 2 ^ e < unitsLimit := pow_lt_pow_right₀ one_lt_two h

/-- A rounded value is a number. -/
theorem F64.round_ne_nan (neg : Bool) (num den : Nat) : F64.round neg num den ≠ .nan := by
  unfold F64.round
  split_ifs <;> simp

/-- A value of at most a representable magnitude below the overflow limit is finite. -/
theorem F64.round_of_le {neg : Bool} {num den m : Nat} (hm : representable m) (hlt : m < unitsLimit) (hd : 0 < den)
    (h : num ≤ m * den) : F64.round neg num den = .fin neg (roundUnits num den) :=
  if_pos ((roundUnits_le hm hd h).trans_lt hlt)

theorem F64.round_exact {neg : Bool} {m den : Nat} (hm : representable m) (hlt : m < unitsLimit) (hd : 0 < den) :
    F64.round neg (m * den) den = .fin neg m := by
  rw [F64.round_of_le hm hlt hd le_rfl, roundUnits_exact hm hd]

end Sys2Proof.Machine
end

section
/-! The encoded value of a bit stream (R201). -/

namespace Sys2Proof.Machine

theorem two_mul_two_pow_le {e k : Nat} (h : e < k) : 2 * 2 ^ e ≤ 2 ^ k :=
  (pow_succ' 2 e).symm.trans_le (Nat.pow_le_pow_right two_pos h)

/-- `bitWeight` is the rounded weight: exact down to the smallest subnormal, and 0.0 from half of it on. -/
theorem bitWeight_eq_rn (k : Nat) : bitWeight k = rn 1 (2 ^ k) := by
  rw [bitWeight, rn, Nat.one_mul]
  split_ifs with hk
  · have hunits : unitsOne = 2 ^ (1074 - k) * 2 ^ k := by rw [← pow_add, Nat.sub_add_cancel hk]; rfl
    rw [hunits, F64.round_exact (representable_two_pow _) (two_pow_lt_unitsLimit (by omega)) (by positivity)]
  · have hhalf : 2 * unitsOne ≤ 2 ^ k := by
      rw [unitsOne]
      exact two_mul_two_pow_le (Nat.not_le.1 hk)
    have hzero := roundUnits_eq_zero (by positivity) hhalf
    rw [F64.round, hzero, if_pos (by unfold unitsLimit; positivity)]
    rfl

/-- The last bit is added last. -/
theorem encodedFrom_append (i : Nat) (v : F64) (bits : List Bool) (b : Bool) : encodedFrom i v (bits ++ [b]) =
    if b then fadd (encodedFrom i v bits) (bitWeight (i + bits.length + 1)) else encodedFrom i v bits := by
  induction bits generalizing i v with
  | nil => rfl
  | cons c bits ih =>
    rw [List.cons_append, encodedFrom, ih, encodedFrom, List.length_cons, Nat.add_right_comm i 1, Nat.add_assoc i]

/-- Settles O50: the weights are `bitWeight_eq_rn`, and the sum is taken in stream order. -/
theorem bitWeights : Obligations.BitWeights := by
  refine ⟨fun k _ => ⟨bitWeight_eq_rn k, fun h => if_pos h, fun h => if_neg (by omega)⟩, rfl, fun bits b => ?_⟩
  rw [encodedValue, encodedFrom_append, Nat.zero_add, bitWeight_eq_rn]
  rfl

end Sys2Proof.Machine
end

section
/-! The cumulative table (R191, R192): its entries, and its bounds within the unit interval. -/

namespace Sys2Proof.Machine

/-! ## `rn` of the fractions of a total -/

theorem representable_unitsOne : representable unitsOne := representable_two_pow 1074

theorem unitsOne_lt_unitsLimit : unitsOne < unitsLimit := two_pow_lt_unitsLimit (by norm_num)

@[simp] theorem rn_zero (tot : Nat) : rn 0 tot = .fin false 0 := by rw [rn, Nat.zero_mul, F64.round_zero]

@[simp] theorem rn_self {tot : Nat} (h : 0 < tot) : rn tot tot = .fin false unitsOne := by
  rw [rn, Nat.mul_comm, F64.round_exact representable_unitsOne unitsOne_lt_unitsLimit h]

/-- Two bounds in rising order from 0.0 to 1.0, both finite and of positive sign. -/
def unitBounds (low high : F64) : Prop :=
  ∃ l h, low = .fin false l ∧ high = .fin false h ∧ l ≤ h ∧ h ≤ unitsOne

theorem unitBounds_zero_one : unitBounds .zero .one := ⟨0, unitsOne, rfl, rfl, Nat.zero_le _, le_rfl⟩

theorem unitBounds_rn {c d tot : Nat} (htot : 0 < tot) (hcd : c ≤ d) (hd : d ≤ tot) :
    unitBounds (rn c tot) (rn d tot) := by
  have hle {n : Nat} (hn : n ≤ tot) : n * unitsOne ≤ unitsOne * tot := by
    rw [Nat.mul_comm unitsOne]
    exact Nat.mul_le_mul_right _ hn
  have hfin {n : Nat} (hn : n ≤ tot) : rn n tot = .fin false (roundUnits (n * unitsOne) tot) :=
    F64.round_of_le representable_unitsOne unitsOne_lt_unitsLimit htot (hle hn)
  exact ⟨_, _, hfin (hcd.trans hd), hfin hd, roundUnits_mono htot (Nat.mul_le_mul_right _ hcd),
    roundUnits_le representable_unitsOne htot (hle hd)⟩

/-! ## The entries from a running sum on -/

@[simp] theorem cumFrom_length (tot c : Nat) (O : List FreqEntry) : (cumFrom tot c O).length = O.length := by
  simpa using congrArg List.length (cumFrom_pix tot c O)

/-- Entry `j` has the running sums before it and up to it, over the total, as bounds (R191). -/
theorem cumFrom_getElem? (tot c : Nat) (O : List FreqEntry) (j : Nat) (h : j < O.length) :
    (cumFrom tot c O)[j]? = some ⟨O[j].pix, rn (c + ((O.take j).map FreqEntry.cnt).sum) tot,
      rn (c + ((O.take (j + 1)).map FreqEntry.cnt).sum) tot⟩ := by
  induction O generalizing c j with
  | nil => cases h
  | cons e O ih =>
    cases j with
    | zero => simp [cumFrom]
    | succ j =>
      rw [cumFrom, List.getElem?_cons_succ, ih _ j (Nat.lt_of_succ_lt_succ h)]
      simp [Nat.add_assoc]

/-- Each entry begins where the one before it ends. -/
theorem cumFrom_isChain (tot c : Nat) (O : List FreqEntry) :
    (cumFrom tot c O).IsChain (fun e f => e.ch = f.cl) := by
  induction O generalizing c with
  | nil => exact .nil
  | cons e O ih =>
    cases O with
    | nil => exact .singleton _
    | cons f O =>
      have hrest := ih (c + e.cnt)
      rw [cumFrom] at hrest ⊢
      exact List.isChain_cons_cons.2 ⟨rfl, hrest⟩

theorem unitBounds_of_mem_cumFrom {tot c : Nat} {O : List FreqEntry} (htot : 0 < tot)
    (hsum : c + (O.map FreqEntry.cnt).sum ≤ tot) {e : CumEntry} (he : e ∈ cumFrom tot c O) :
    unitBounds e.cl e.ch := by
  induction O generalizing c with
  | nil => cases he
  | cons f O ih =>
    rw [List.map_cons, List.sum_cons] at hsum
    rw [cumFrom, List.mem_cons] at he
    rcases he with rfl | he
    · dsimp only
      exact unitBounds_rn htot (Nat.le_add_right _ _) (by omega)
    · exact ih (by omega) he

/-! ## The table -/

/-- The entries in the canonical order of R192. -/
def canonicalOrder (T : List FreqEntry) : List FreqEntry := stableSort (fun e => (symbolKey e.pix).toNat) T

theorem cumTable_eq (T : List FreqEntry) : cumTable T = cumFrom (totalCount T) 0 (canonicalOrder T) := rfl

theorem canonicalOrder_perm (T : List FreqEntry) : (canonicalOrder T).Perm T := stableSort_perm _ T

theorem totalCount_canonicalOrder (T : List FreqEntry) : totalCount (canonicalOrder T) = totalCount T :=
  ((canonicalOrder_perm T).map _).sum_eq

theorem unitBounds_of_mem_cumTable {T : List FreqEntry} (hT : 0 < totalCount T) {e : CumEntry} (he : e ∈ cumTable T) :
    unitBounds e.cl e.ch :=
  unitBounds_of_mem_cumFrom hT ((Nat.zero_add _).trans (totalCount_canonicalOrder T)).le he

theorem cumTable_getElem? (T : List FreqEntry) (j : Nat) (h : j < (canonicalOrder T).length) :
    (cumTable T)[j]? = some ⟨(canonicalOrder T)[j].pix,
      rn (((canonicalOrder T).take j).map FreqEntry.cnt).sum (totalCount T),
      rn (((canonicalOrder T).take (j + 1)).map FreqEntry.cnt).sum (totalCount T)⟩ := by
  rw [cumTable_eq, cumFrom_getElem? _ _ _ j h, Nat.zero_add, Nat.zero_add]

/-- The first low bound is the empty sum's. -/
theorem cumTable_head?_cl {T : List FreqEntry} {e : CumEntry} (he : (cumTable T).head? = some e) :
    e.cl = .fin false 0 := by
  rw [cumTable_eq] at he
  cases hO : canonicalOrder T with
  | nil => rw [hO] at he; cases he
  | cons f O =>
    rw [hO, cumFrom, List.head?_cons, Option.some.injEq] at he
    rw [← he, rn_zero]

/-- The last high bound is that of the whole sum, which is the total. -/
theorem cumTable_getLast?_ch {T : List FreqEntry} (hT : 0 < totalCount T) {e : CumEntry}
    (he : (cumTable T).getLast? = some e) : e.ch = .fin false unitsOne := by
  have hlen : (cumTable T).length = (canonicalOrder T).length := cumFrom_length _ _ _
  have hpos : 0 < (canonicalOrder T).length := by
    rw [← hlen, List.length_pos_iff]
    rintro hnil
    rw [hnil] at he
    cases he
  rw [List.getLast?_eq_getElem?, hlen, cumTable_getElem? T _ (by omega), Option.some.injEq,
    Nat.sub_add_cancel hpos, List.take_length] at he
  have htotal := totalCount_canonicalOrder T
  rw [totalCount] at htotal
  rw [← he, htotal, rn_self hT]

/-- Settles O51: the order is `canonicalOrder`, and the entries are those of the running sums. -/
theorem cumulativeTableIsContiguous : Obligations.CumulativeTableIsContiguous := by
  intro T hT
  refine ⟨⟨canonicalOrder T, canonicalOrder_perm T, stableSort_sorted _ T, fun k => ?_, cumFrom_length _ _ _,
    fun j h => cumTable_getElem? T j h⟩, fun _ => rfl, fun _ => cumTable_head?_cl, fun _ => cumTable_getLast?_ch hT,
    cumFrom_isChain _ _ _⟩
  exact stableSort_stable _ T k

end Sys2Proof.Machine
end

section
/-! The renormalization loop (R194) and its runaway from `low = high` (R198). -/

namespace Sys2Proof.Machine

/-- Settles O52: the passes are `renormalize_unfold`, and the loop's end is `renormalizeIn_ok`. -/
theorem renormalizationLoop : Obligations.RenormalizationLoop := by
  intro cap iv S hS
  refine ⟨renormalize_unfold cap iv S hS, fun r hr => ?_⟩
  obtain ⟨-, hend⟩ := renormalizeIn_ok (fun _ => True) (fun _ _ _ => trivial) (fun _ _ _ => trivial) _ trivial hS hr
  exact hend

/-! ## Numbers stay numbers -/

theorem F64.le_inf {x : F64} (hx : x ≠ .nan) : x.le (.inf false) = true := by
  cases x with
  | nan => exact absurd rfl hx
  | inf a => cases a <;> rfl
  | fin a m => rfl

theorem F64.neg_inf_le {y : F64} (hy : y ≠ .nan) : (F64.inf true).le y = true := by
  cases y with
  | nan => exact absurd rfl hy
  | inf b => rfl
  | fin b n => rfl

/-- Of two numbers one is at most the other. -/
theorem F64.le_total {x y : F64} (hx : x ≠ .nan) (hy : y ≠ .nan) : x.le y = true ∨ y.le x = true := by
  cases x with
  | nan => exact absurd rfl hx
  | inf a =>
    cases a with
    | false => exact .inr (F64.le_inf hy)
    | true => exact .inl (F64.neg_inf_le hy)
  | fin a m =>
    cases y with
    | nan => exact absurd rfl hy
    | inf b =>
      cases b with
      | false => exact .inl (F64.le_inf hx)
      | true => exact .inr (F64.neg_inf_le hx)
    | fin b n => exact (Int.le_total _ _).imp F64.le_fin.2 F64.le_fin.2

theorem fadd_fin_ne_nan {x : F64} (hx : x ≠ .nan) (b : Bool) (n : Nat) : fadd x (.fin b n) ≠ .nan := by
  cases x with
  | nan => exact absurd rfl hx
  | inf a => exact F64.noConfusion
  | fin a m =>
    rw [fadd_fin]
    split_ifs
    · exact F64.round_ne_nan _ _ _
    · exact F64.noConfusion
    · exact F64.round_ne_nan _ _ _
    · exact F64.round_ne_nan _ _ _

theorem fmul_fin_ne_nan {x : F64} (hx : x ≠ .nan) (b : Bool) {n : Nat} (hn : n ≠ 0) : fmul x (.fin b n) ≠ .nan := by
  cases x with
  | nan => exact absurd rfl hx
  | inf a =>
    unfold fmul
    simp only [if_neg hn]
    exact F64.noConfusion
  | fin a m => exact F64.round_ne_nan _ _ _

theorem fmul_two_ne_nan {x : F64} (hx : x ≠ .nan) : fmul x .two ≠ .nan :=
  fmul_fin_ne_nan hx false (by positivity)

/-- The interval from one number to the same number. -/
def isPoint (iv : Interval) : Prop := iv.low = iv.high ∧ iv.low ≠ .nan

theorem isPoint_scaleLow {iv : Interval} (h : isPoint iv) : isPoint (scaleLow iv) :=
  ⟨congrArg (fmul · .two) h.1, fmul_two_ne_nan h.2⟩

theorem isPoint_scaleHigh {iv : Interval} (h : isPoint iv) : isPoint (scaleHigh iv) :=
  ⟨congrArg (fun x => fmul (fsub x .half) .two) h.1, fmul_two_ne_nan (fadd_fin_ne_nan h.2 _ _)⟩

/-- Settles O53: both rescalings keep low = high, where one of the loop's tests always holds, so the loop cannot end
by itself. -/
theorem runawayRenormalization : Obligations.RunawayRenormalization := by
  intro cap S x hS hx
  cases hr : renormalize cap ⟨x, x⟩ S with
  | error c => rw [renormalizeIn_error hr]
  | ok r =>
    obtain ⟨⟨hsame, hnum⟩, hhigh, hlow, -⟩ := renormalizeIn_ok isPoint (fun _ h _ => isPoint_scaleLow h)
      (fun _ h _ => isPoint_scaleHigh h) _ (⟨rfl, hx⟩ : isPoint ⟨x, x⟩) hS hr
    rw [← hsame] at hhigh
    rcases F64.le_total hnum (y := .half) F64.noConfusion with h | h
    · exact absurd (hhigh.symm.trans h) Bool.false_ne_true
    · exact absurd (hlow.symm.trans h) Bool.false_ne_true

end Sys2Proof.Machine
end

section
/-! The symbol search (R202): the first entry that holds the value, and the values that none holds. -/

namespace Sys2Proof.Machine

/-- The value that `find` looks up: where `v` lies in the interval (R202). -/
def Interval.position (iv : Interval) (v : F64) : F64 := fdiv (fsub v iv.low) (fsub iv.high iv.low)

/-- The entry's half-open interval holds the value. -/
def CumEntry.holds (e : CumEntry) (x : F64) : Prop := e.cl.le x = true ∧ x.lt e.ch = true

theorem CumEntry.holds_iff {e : CumEntry} {x : F64} : e.holds x ↔ (e.cl.le x && x.lt e.ch) = true := by
  rw [Bool.and_eq_true, CumEntry.holds]

theorem findSymbol_eq_some_iff {CT : List CumEntry} {iv : Interval} {v : F64} {x : CumEntry} :
    findSymbol CT iv v = some x ↔ ∃ j : Nat, CT[j]? = some x ∧ x.holds (iv.position v) ∧
      ∀ i < j, ∀ e, CT[i]? = some e → ¬e.holds (iv.position v) := by
  have hfind := List.find?_eq_some_iff_getElem (xs := CT) (b := x)
    (p := fun e => e.cl.le (iv.position v) && (iv.position v).lt e.ch)
  refine hfind.trans ⟨fun ⟨hx, j, hj, hjx, hfirst⟩ => ⟨j, ?_, ?_, fun i hi e he => ?_⟩,
    fun ⟨j, hjx, hx, hfirst⟩ => ?_⟩
  · rw [List.getElem?_eq_getElem hj, hjx]
  · exact CumEntry.holds_iff.2 hx
  · obtain ⟨hlt, rfl⟩ := List.getElem?_eq_some_iff.1 he
    rw [CumEntry.holds_iff, Bool.not_eq_true, ← Bool.not_eq_true']
    exact hfirst i hi
  · obtain ⟨hj, hjx⟩ := List.getElem?_eq_some_iff.1 hjx
    refine ⟨CumEntry.holds_iff.1 hx, j, hj, hjx, fun i hi => ?_⟩
    have hi' := hfirst i hi _ (List.getElem?_eq_getElem (hi.trans hj))
    rwa [CumEntry.holds_iff, Bool.not_eq_true, ← Bool.not_eq_true'] at hi'

theorem findSymbol_eq_none_iff {CT : List CumEntry} {iv : Interval} {v : F64} :
    findSymbol CT iv v = none ↔ ∀ e ∈ CT, ¬e.holds (iv.position v) := by
  have hfind := List.find?_eq_none (l := CT) (p := fun e => e.cl.le (iv.position v) && (iv.position v).lt e.ch)
  refine hfind.trans (forall₂_congr fun e _ => ?_)
  rw [CumEntry.holds_iff]

/-! ## Values that no entry of a table holds -/

/-- A finite value below another is below everything above that one. -/
theorem F64.fin_le_trans {a b : Bool} {m n : Nat} (h : signedUnits a m ≤ signedUnits b n) {x : F64}
    (hx : (F64.fin b n).le x = true) : (F64.fin a m).le x = true := by
  cases x with
  | nan => cases hx
  | inf c =>
    cases c with
    | false => rfl
    | true => cases hx
  | fin c k => exact F64.le_fin.2 (h.trans (F64.le_fin.1 hx))

theorem F64.lt_iff {x y : F64} : x.lt y = true ↔ x.le y = true ∧ y.le x = false := by
  rw [F64.lt, Bool.and_eq_true, Bool.not_eq_true']

/-- Dividing by a zero gives no finite value. -/
theorem fdiv_zero_not_finite (x : F64) (b : Bool) : fdiv x (.fin b 0) = .nan ∨ ∃ a, fdiv x (.fin b 0) = .inf a := by
  cases x with
  | nan => exact .inl rfl
  | inf a => exact .inr ⟨_, rfl⟩
  | fin a m =>
    rw [fdiv_by_zero]
    split_ifs
    · exact .inl rfl
    · exact .inr ⟨_, rfl⟩

theorem CumEntry.not_holds_nan (e : CumEntry) : ¬e.holds .nan := fun ⟨hle, _⟩ => by
  rw [F64.le_nan] at hle
  cases hle

section
variable {e : CumEntry} {x : F64} (he : unitBounds e.cl e.ch)
include he

theorem CumEntry.not_holds_inf (a : Bool) : ¬e.holds (.inf a) := by
  obtain ⟨l, h, hl, hh, -⟩ := he
  rw [CumEntry.holds, hl, hh]
  cases a with
  | false => exact fun hx => Bool.false_ne_true hx.2
  | true => exact fun hx => Bool.false_ne_true hx.1

theorem CumEntry.not_holds_of_one_le (hx : F64.one.le x = true) : ¬e.holds x := by
  obtain ⟨l, h, -, hh, -, hone⟩ := he
  have hunits : signedUnits false h ≤ signedUnits false unitsOne := Int.ofNat_le.2 hone
  rintro ⟨-, hlt⟩
  rw [F64.lt_iff, hh, F64.fin_le_trans hunits hx] at hlt
  exact absurd hlt.2.symm Bool.false_ne_true

theorem CumEntry.not_holds_of_neg (hx : x.lt .zero = true) : ¬e.holds x := by
  obtain ⟨l, h, hl, -⟩ := he
  rintro ⟨hle, -⟩
  rw [hl] at hle
  rw [F64.lt_iff, F64.zero, F64.fin_le_trans (by simp) hle] at hx
  exact absurd hx.2.symm Bool.false_ne_true

end

/-- Settles O58: the search is `find?`, and every entry of a table has finite bounds from 0.0 to 1.0. -/
theorem findMatchesNothing : Obligations.FindMatchesNothing := by
  refine ⟨fun CT iv v => ⟨fun x => findSymbol_eq_some_iff, findSymbol_eq_none_iff⟩, fun T iv v hT => ?_⟩
  have hnone (h : ∀ e : CumEntry, unitBounds e.cl e.ch → ¬e.holds (iv.position v)) :
      findSymbol (cumTable T) iv v = none :=
    findSymbol_eq_none_iff.2 fun e he => h e (unitBounds_of_mem_cumTable hT he)
  refine ⟨fun b hb => hnone fun e he => ?_, fun hone => hnone fun e he => e.not_holds_of_one_le he hone,
    fun hneg => hnone fun e he => e.not_holds_of_neg he hneg⟩
  rw [Interval.position, hb]
  rcases fdiv_zero_not_finite (fsub v iv.low) b with h | ⟨a, h⟩
  · rw [h]
    exact e.not_holds_nan
  · rw [h]
    exact e.not_holds_inf he a

end Sys2Proof.Machine
end

section
/-! The arithmetic encoder's result (R193, R195). -/

namespace Sys2Proof.Machine

/-! ## What ARI_ENC stores -/

/-- The writes of a successful ARI_ENC (R195): the table, the stream and the size report. -/
@[irreducible] def State.writeArithmetic (s : State) (T : List FreqEntry) (S : List Bool) : State :=
  ((s.writeFreq T).writeBits S).writeSizes S.length

theorem Writes.writeArithmetic (s : State) (T : List FreqEntry) (S : List Bool) :
    Writes [.symCount, .bitLen, .origSize, .compSize] [(.freq, 2 * T.length), (.bits, (S.length + 31) / 32)] s
      (s.writeArithmetic T S) := by
  unfold State.writeArithmetic
  have hfreq := Writes.bufFill (regs := [.symCount, .bitLen, .origSize, .compSize])
    (bufs := [(.freq, 2 * T.length), (.bits, (S.length + 31) / 32)]) (.refl (s := s)) (b := .freq) (by simp)
    (freqWords_length T).le
  have hbits := (hfreq.setRegNat (d := .symCount) (by simp) T.length).bufFill (b := .bits) (by simp)
    (packBits_length S).le
  exact ((hbits.setRegNat (d := .bitLen) (by simp) _).setRegNat (d := .origSize) (by simp) _).setRegNat
    (d := .compSize) (by simp) _

/-- The registers that ARI_ENC leaves. -/
theorem State.writeArithmetic_regs (s : State) (T : List FreqEntry) (S : List Bool) :
    (s.writeArithmetic T S).regs = { s.regs with
      symCount := BitVec.ofNat 32 T.length
      bitLen := BitVec.ofNat 32 S.length
      origSize := BitVec.ofNat 32 (s.regNat .pixLen * 8)
      compSize := BitVec.ofNat 32 S.length } := by
  simp only [State.writeArithmetic, State.writeSizes, State.writeBits, State.writeFreq,
    State.setRegNat_regs, State.bufFill_regs, State.regNat, State.reg, Regs.set, Regs.get]

/-- BITS is filled last, so a read of another buffer goes back to the table. -/
theorem State.bufRead_writeArithmetic (s : State) (T : List FreqEntry) (S : List Bool) (b : Buf) (w : Nat) :
    (s.writeArithmetic T S).bufRead b w = ((s.writeFreq T).bufFill .bits (packBits S)).bufRead b w := by
  simp only [State.writeArithmetic, State.writeSizes, State.writeBits, State.bufRead_setRegNat]

section
variable (s : State) {T : List FreqEntry} {S : List Bool} (hS : S.length ≤ 2 ^ 31)
include hS

/-- The table reads back (R132): the stream lies in another buffer. -/
theorem State.freqList_writeArithmetic (hT : T.length ≤ 2 ^ 23) (hcnt : ∀ e ∈ T, e.cnt < 2 ^ 32) :
    (s.writeArithmetic T S).freqList = T := by
  have hregs := s.writeArithmetic_regs T S
  refine State.freqList_eq (State.regNat_of_get _ (congrArg Regs.symCount hregs) (by omega)) (fun i hi => ?_) hcnt
  have hbits : (packBits S).length ≤ 2 ^ 26 := by rw [packBits_length]; omega
  have hi' : i < 2 ^ 26 := by rw [freqWords_length] at hi; omega
  rw [State.bufRead_writeArithmetic, State.bufRead_bufFill_other _ (by decide) _ _ hbits hi', State.writeFreq,
    State.bufRead_setRegNat, State.bufRead_bufFill_inside _ _ _ _ hi]

/-- The stream reads back (R82, R165). -/
theorem State.bitList_writeArithmetic : (s.writeArithmetic T S).bitList = S := by
  have hregs := s.writeArithmetic_regs T S
  refine State.bitList_eq (State.regNat_of_get _ (congrArg Regs.bitLen hregs) (by omega)) fun i hi => ?_
  rw [State.bufRead_writeArithmetic, State.bufRead_bufFill_inside _ _ _ _ hi]

end

/-! ## ARI_ENC -/

section
variable {s : State} (hlen : s.regNat .pixLen = 4 * s.pixelCount) (hcap : s.pixelCount ≤ s.caps.pixCap)
include hlen hcap

/-- ARI_ENC succeeds when the table fits and the loop gives a stream (R195). -/
theorem endingOf_ariEnc {S : Stream} (hsym : (countTable s.pixIn).length ≤ s.caps.symCap)
    (hS : ariEncode s.caps.bitsCap (countTable s.pixIn) s.pixIn = .ok S) :
    endingOf .ariEnc s = .success (s.writeArithmetic (countTable s.pixIn) S.bits) := by
  simp only [endingOf, ariEncEnding, checkInputPixels_of hlen hcap, freqModel_table, if_pos hsym, hS,
    State.writeArithmetic, (ariEncode_ok hS).2]

/-- ARI_ENC ends with CAPACITY when the table does not fit or the loop gives no stream. -/
theorem endingOf_ariEnc_code_of_overflow (hover : s.caps.symCap < (countTable s.pixIn).length ∨
    ∀ S, ariEncode s.caps.bitsCap (countTable s.pixIn) s.pixIn ≠ .ok S) : (endingOf .ariEnc s).code = .capacity := by
  simp only [endingOf, ariEncEnding, checkInputPixels_of hlen hcap, freqModel_table]
  by_cases hsym : (countTable s.pixIn).length ≤ s.caps.symCap
  · cases hS : ariEncode s.caps.bitsCap (countTable s.pixIn) s.pixIn with
    | ok S => exact absurd hS (hover.resolve_left (Nat.not_lt.2 hsym) S)
    | error c =>
      simp only [if_pos hsym, hS]
      exact ariEncode_error hS
  · simp only [if_neg hsym]
    rfl

end

/-- An ARI_ENC that ends without error has passed the checks of R233, its table fits, and its loop gave a stream. -/
theorem fits_of_ariEnc_noError {s : State} (h : (endingOf .ariEnc s).code = .noError) :
    (s.regNat .pixLen = 4 * s.pixelCount ∧ s.pixelCount ≤ s.caps.pixCap) ∧
      (countTable s.pixIn).length ≤ s.caps.symCap ∧
      ∃ S, ariEncode s.caps.bitsCap (countTable s.pixIn) s.pixIn = .ok S := by
  cases hc : s.checkInputPixels with
  | none =>
    obtain ⟨hlen, hcap⟩ := checkInputPixels_eq_none hc
    refine ⟨⟨hlen, hcap⟩, ?_⟩
    by_contra hover
    rw [not_and_or, not_le, not_exists] at hover
    rw [endingOf_ariEnc_code_of_overflow hlen hcap hover] at h
    cases h
  | some c =>
    rw [endingOf, ariEncEnding, hc] at h
    exact absurd h (ne_noError_of_check (checkInputPixels_some hc))

/-! ## The loop -/

/-- Every pixel of an image has exactly one entry in the image's cumulative table (R195). -/
theorem exists_unique_cumEntry {P : List Word} {w : Word} (hw : w ∈ P) :
    ∃ e ∈ cumTable (countTable P), e.pix = w ∧ (∀ f ∈ cumTable (countTable P), f.pix = w → f = e) ∧
      boundsOf (cumTable (countTable P)) w = (e.cl, e.ch) := by
  have hperm := cumTable_pix (countTable P)
  rw [countTable_pix] at hperm
  have hnodup := hperm.nodup_iff.2 (firstSeen_nodup P)
  obtain ⟨e, he, rfl⟩ := List.mem_map.1 (hperm.mem_iff.2 (mem_firstSeen.2 hw))
  exact ⟨e, he, rfl, fun f hf hfe => List.inj_on_of_nodup_map hnodup hf he hfe, boundsOf_eq hnodup he⟩

/-- Settles O54: the completion has the ending of `endingOf_ariEnc`; the capacities of a legal build bound the table
and the stream, so that both read back. -/
theorem ariEncoderResult : Obligations.AriEncoderResult := by
  refine ⟨fun s T hwf hlen hcap hT => ?_, fun cap T P => ?_, fun _ _ _ _ => rfl, fun cap P w hw => ?_⟩
  · subst hT
    have hdone := exec_completed .ariEnc s
    refine ⟨fun S hsym hS => ⟨_, exec_eq .ariEnc s, ?_⟩, fun hover => ⟨_, exec_eq .ariEnc s, ?_⟩⟩
    · obtain ⟨⟨-, hpixCap⟩, -, ⟨-, hsymCap⟩, -, hbitsCap⟩ := hwf
      obtain ⟨hfit, hbits⟩ := ariEncode_ok hS
      rw [endingOf_ariEnc hlen hcap hsym hS] at hdone ⊢
      have hcnt : ∀ e ∈ countTable s.pixIn, e.cnt < 2 ^ 32 := fun e he => by
        have := countTable_cnt_le he
        rw [State.pixIn_length] at this
        omega
      have hT : (countTable s.pixIn).length ≤ 2 ^ 23 := hsym.trans hsymCap
      have hS' : S.bits.length ≤ 2 ^ 31 := by omega
      have hwrites := Writes.writeArithmetic s (countTable s.pixIn) S.bits
      have hregs := s.writeArithmetic_regs (countTable s.pixIn) S.bits
      exact ⟨hdone, s.freqList_writeArithmetic hS' hT hcnt,
        State.regNat_of_get _ (congrArg Regs.symCount hregs) (by omega), s.bitList_writeArithmetic hS',
        State.regNat_of_get _ (congrArg Regs.bitLen hregs) (by omega), by omega,
        State.regNat_of_get _ (congrArg Regs.origSize hregs) (by omega),
        State.regNat_of_get _ (congrArg Regs.compSize hregs) (by omega), hwrites.draws,
        hwrites.keptOutside.finish .noError⟩
    · rwa [endingOf_ariEnc_code_of_overflow hlen hcap hover] at hdone
  · have hbit (b : Bool) : (!b) = if b then false else true := by cases b <;> rfl
    unfold ariEncode
    simp only [hbit]
    rfl
  · obtain ⟨e, he, hpix, hunique, hbounds⟩ := exists_unique_cumEntry hw
    refine ⟨e, he, hpix, hunique, fun iv S Q => ?_⟩
    rw [ariEncodeFrom, hbounds]
    rfl

end Sys2Proof.Machine
end

section
/-! The arithmetic decoder's result (R193, R205). -/

namespace Sys2Proof.Machine

/-- What the decoder's loop gives on the state's table and stream (R205). -/
def State.ariDecoded (s : State) : Except ErrCode (List Word) :=
  ariDecodeFrom (cumTable s.freqList) (encodedValue s.bitList) s.pixelCount .start

section
variable {s : State} (hN : s.pixelCount ≤ s.caps.pixCap) (hsym : s.regNat .symCount ≤ s.caps.symCap)
variable (hbits : s.regNat .bitLen ≤ s.caps.bitsCap) (htotal : s.pixelCount = 0 ∨ 0 < totalCount s.freqList)
include hN hsym hbits htotal

theorem checkAriDec_of : s.checkAriDec = none := by
  rw [State.checkAriDec, if_neg (by omega), if_neg (by omega), if_neg (by omega), if_neg (by omega)]

/-- Within the capacities ARI_DEC writes out the symbols found; the empty image needs none (R205). -/
theorem endingOf_ariDec {out : List Word} (hout : s.ariDecoded = .ok out) :
    endingOf .ariDec s = .success (s.writeOut out) := by
  rw [endingOf, ariDecEnding, checkAriDec_of hN hsym hbits htotal]
  by_cases h0 : s.pixelCount = 0
  · rw [State.ariDecoded, h0] at hout
    cases hout
    simp only [if_pos h0]
  · rw [State.ariDecoded] at hout
    simp only [if_neg h0, hout]

/-- ARI_DEC ends with SYMBOL_NOT_FOUND when a step finds none. -/
theorem endingOf_ariDec_code_of_notFound (hout : ∀ out, s.ariDecoded ≠ .ok out) :
    (endingOf .ariDec s).code = .symbolNotFound := by
  rw [endingOf, ariDecEnding, checkAriDec_of hN hsym hbits htotal]
  have h0 : s.pixelCount ≠ 0 := fun h0 => hout [] (by rw [State.ariDecoded, h0]; rfl)
  cases h : s.ariDecoded with
  | ok out => exact absurd h (hout out)
  | error c =>
    rw [State.ariDecoded] at h
    simp only [if_neg h0, h]
    exact ariDecodeFrom_error h

end

theorem ariDecodeFrom_notFound {CT : List CumEntry} {iv : Interval} {v : F64} (h : findSymbol CT iv v = none) (n : Nat) :
    ariDecodeFrom CT v (n + 1) iv = .error .symbolNotFound := by
  rw [ariDecodeFrom, h]

theorem ariDecodeFrom_found {CT : List CumEntry} {iv : Interval} {v : F64} {x : CumEntry}
    (h : findSymbol CT iv v = some x) (n : Nat) :
    ariDecodeFrom CT v (n + 1) iv = (ariDecodeFrom CT v n (narrow iv x.cl x.ch)).map (x.pix :: ·) := by
  simp only [ariDecodeFrom, h]
  cases ariDecodeFrom CT v n (narrow iv x.cl x.ch) with
  | error c => rfl
  | ok out => rfl

/-- Settles O57: the completion has the ending of `endingOf_ariDec`, and what is written out reads back. -/
theorem ariDecoderResult : Obligations.AriDecoderResult := by
  have hmap (w : Word) (r : Except ErrCode (List Word)) : r.map (w :: ·) =
      match r with
      | .error c => .error c
      | .ok out => .ok (w :: out) := by cases r <;> rfl
  refine ⟨fun s hwf hN hsym hbits htotal => ?_, fun CT v n iv =>
    ⟨rfl, fun h => ariDecodeFrom_notFound h n, fun x h => (ariDecodeFrom_found h n).trans (hmap _ _)⟩⟩
  obtain ⟨⟨-, hpixCap⟩, -⟩ := hwf
  have hdone := exec_completed .ariDec s
  refine ⟨fun out hout => ⟨_, exec_eq .ariDec s, ?_⟩, fun hout => ⟨_, exec_eq .ariDec s, ?_⟩⟩
  · rw [endingOf_ariDec hN hsym hbits htotal hout] at hdone ⊢
    have hlen : out.length = s.pixelCount := ariDecodeFrom_length hout
    have hwrites := writes_writeOut (i := .ariDec) (.inr (.inr rfl)) hlen.le
    refine ⟨hdone, hlen, (s.regNat_outCount_writeOut (by omega)).trans hlen, fun p hp => ?_, hwrites.draws,
      hwrites.keptOutside.finish .noError⟩
    exact (s.pixOut_writeOut out (by omega)).trans (List.getD_eq_getElem _ _ hp)
  · rwa [endingOf_ariDec_code_of_notFound hN hsym hbits htotal hout] at hdone

end Sys2Proof.Machine
end

section
/-! The encoder's interval stays within the unit interval, its bounds finite and in order (R193, R194); so the final
bit is 0 (R196). -/

namespace Sys2Proof.Machine

/-! ## The narrowed interval does not leave the unit interval by rounding -/

/-- Rounding moves a value by less than the spacing. -/
theorem roundUnits_lt_add {x e : Nat} (h : x ≤ 2 ^ (e + 53)) : roundUnits x 1 < x + 2 ^ e := by
  have hpos : 0 < 2 ^ e := by positivity
  obtain ⟨k, hk⟩ : ∃ k, k = (x + (2 ^ e - 1)) / 2 ^ e := ⟨_, rfl⟩
  have hbelow : k * 2 ^ e ≤ x + (2 ^ e - 1) := hk ▸ Nat.div_mul_le_self _ _
  have habove : x ≤ k * 2 ^ e := by
    have := Nat.lt_div_mul_add (a := x + (2 ^ e - 1)) hpos
    rw [← hk] at this
    omega
  have hsmall : k ≤ 2 ^ 53 := by
    rw [hk, Nat.div_le_iff_le_mul hpos, ← pow_add, Nat.add_comm 53]
    omega
  have hround : roundUnits x 1 ≤ k * 2 ^ e := roundUnits_le (representable_of_le hsmall) one_pos (by omega)
  omega

/-- A representable magnitude above 2^(e+53) is at least one spacing above it. -/
theorem two_pow_add_le_of_representable {m e : Nat} (hm : representable m) (h : 2 ^ (e + 53) < m) :
    2 ^ (e + 53) + 2 * 2 ^ e ≤ m := by
  obtain ⟨k, f, hk, rfl⟩ := hm
  have hf : e + 1 ≤ f := by
    by_contra hlt
    have hmul : k * 2 ^ f < 2 ^ 53 * 2 ^ e :=
      (Nat.mul_lt_mul_of_pos_right hk (by positivity)).trans_le
        (Nat.mul_le_mul_left _ (Nat.pow_le_pow_right two_pos (by omega)))
    rw [← pow_add, Nat.add_comm 53] at hmul
    omega
  obtain ⟨g, rfl⟩ := Nat.exists_eq_add_of_le hf
  have heq : k * 2 ^ (e + 1 + g) = k * 2 ^ g * (2 * 2 ^ e) := by ring
  have heq' : 2 ^ (e + 53) = 2 ^ 52 * (2 * 2 ^ e) := by ring
  rw [heq, heq'] at h ⊢
  have hlt := Nat.lt_of_mul_lt_mul_right h
  calc 2 ^ 52 * (2 * 2 ^ e) + 2 * 2 ^ e = (2 ^ 52 + 1) * (2 * 2 ^ e) := by ring
    _ ≤ k * 2 ^ g * (2 * 2 ^ e) := Nat.mul_le_mul_right _ hlt

/-- Less than half a spacing above a power of two rounds down to it. -/
theorem roundUnits_le_two_pow {y e : Nat} (h : y < 2 ^ (e + 53) + 2 ^ e) : roundUnits y 1 ≤ 2 ^ (e + 53) := by
  by_contra hgt
  have hround := roundUnits_nearestEven y one_pos
  have hfar := two_pow_add_le_of_representable hround.representable (Nat.not_le.1 hgt)
  have hy : 2 ^ (e + 53) < y := by
    by_contra hle
    exact hgt (roundUnits_le (representable_two_pow _) one_pos (by omega))
  have hnear := hround.nearest _ (representable_two_pow (e + 53))
  generalize 2 ^ (e + 53) = u at *
  rw [Nat.cast_one, mul_one, mul_one, abs_sub_comm (u : Int), abs_of_nonneg (a := (y : Int) - u) (by omega)] at hnear
  have := (abs_le.1 hnear).2
  omega

/-- Adding the rounded range to the low bound gives at most 1.0 (R193). -/
theorem roundUnits_add_le {l h : Nat} (hlh : l ≤ h) (hh : h ≤ unitsOne) :
    roundUnits (l + roundUnits (h - l) 1) 1 ≤ unitsOne := by
  have hunits : unitsOne = 2 ^ (1021 + 53) := by rw [unitsOne]
  rw [hunits] at hh ⊢
  have hrange : roundUnits (h - l) 1 < h - l + 2 ^ 1021 := roundUnits_lt_add (by omega)
  exact roundUnits_le_two_pow (by omega)

/-! ## The operations on magnitudes up to 2.0 -/

theorem fsub_units {m n : Nat} (hnm : n ≤ m) (hm : m ≤ unitsOne) :
    fsub (.fin false m) (.fin false n) = .fin false (roundUnits (m - n) 1) := by
  have hround : F64.round false (m - n) 1 = .fin false (roundUnits (m - n) 1) :=
    F64.round_of_le representable_unitsOne unitsOne_lt_unitsLimit one_pos (by omega)
  rw [fsub_fin, fadd_fin, if_neg (by decide)]
  rcases hnm.eq_or_lt with rfl | hlt
  · rw [if_pos rfl, ← hround, Nat.sub_self, F64.round_zero, F64.zero]
  · rw [if_neg hlt.ne', if_pos hlt, hround]

/-- 2.0 in units. -/
theorem F64.two_eq : F64.two = .fin false (2 * unitsOne) := by rw [F64.two, unitsOne, ← pow_succ']

theorem representable_two_mul_unitsOne : representable (2 * unitsOne) := by
  rw [unitsOne, ← pow_succ']
  exact representable_two_pow _

theorem two_mul_unitsOne_lt_unitsLimit : 2 * unitsOne < unitsLimit := by
  rw [unitsOne, ← pow_succ']
  exact two_pow_lt_unitsLimit (by norm_num)

theorem fadd_units {m n : Nat} (h : m + n ≤ 2 * unitsOne) :
    fadd (.fin false m) (.fin false n) = .fin false (roundUnits (m + n) 1) := by
  rw [fadd_fin, if_pos rfl,
    F64.round_of_le representable_two_mul_unitsOne two_mul_unitsOne_lt_unitsLimit one_pos (by omega)]

theorem fmul_units {m n : Nat} (h : m * n ≤ unitsOne * unitsOne) :
    fmul (.fin false m) (.fin false n) = .fin false (roundUnits (m * n) unitsOne) := by
  rw [fmul_fin, F64.round_of_le representable_unitsOne unitsOne_lt_unitsLimit unitsOne_pos h, Bool.xor_self]

/-! ## What the encoder does to the interval -/

theorem unitBounds_narrow {iv : Interval} {cl ch : F64} (hiv : unitBounds iv.low iv.high) (hc : unitBounds cl ch) :
    unitBounds (narrow iv cl ch).low (narrow iv cl ch).high := by
  obtain ⟨l, h, hl, hh, hlh, hone⟩ := hiv
  obtain ⟨c, d, rfl, rfl, hcd, hd⟩ := hc
  have hrange := roundUnits_add_le hlh hone
  have hr : representable (roundUnits (h - l) 1) := (roundUnits_nearestEven _ one_pos).representable
  have hrle : roundUnits (h - l) 1 ≤ unitsOne := roundUnits_le representable_unitsOne one_pos (by omega)
  rw [narrow, hl, hh, fsub_units hlh hone]
  generalize roundUnits (h - l) 1 = r at *
  have hrd : r * d ≤ r * unitsOne := Nat.mul_le_mul_left r hd
  have hrc : r * c ≤ r * d := Nat.mul_le_mul_left r hcd
  have hru : r * unitsOne ≤ unitsOne * unitsOne := Nat.mul_le_mul_right _ hrle
  have hx : roundUnits (r * c) unitsOne ≤ roundUnits (r * d) unitsOne := roundUnits_mono unitsOne_pos hrc
  have hy : roundUnits (r * d) unitsOne ≤ r := roundUnits_le hr unitsOne_pos hrd
  refine ⟨_, _, ?_, ?_, roundUnits_mono one_pos (Nat.add_le_add_left hx l),
    (roundUnits_mono one_pos (Nat.add_le_add_left hy l)).trans hrange⟩
  · rw [fmul_units (hrc.trans (hrd.trans hru)), fadd_units (by omega)]
  · rw [fmul_units (hrd.trans hru), fadd_units (by omega)]

/-- Doubling two bounds up to 0.5. -/
theorem unitBounds_double {l h : Nat} (hlh : l ≤ h) (hh : 2 * h ≤ unitsOne) :
    unitBounds (fmul (.fin false l) .two) (fmul (.fin false h) .two) := by
  have hle {m : Nat} (hm : m ≤ h) : m * (2 * unitsOne) ≤ unitsOne * unitsOne := by
    rw [← Nat.mul_assoc]
    exact Nat.mul_le_mul_right _ (by omega)
  rw [F64.two_eq, fmul_units (hle hlh), fmul_units (hle le_rfl)]
  exact ⟨_, _, rfl, rfl, roundUnits_mono unitsOne_pos (Nat.mul_le_mul_right _ hlh),
    roundUnits_le representable_unitsOne unitsOne_pos (hle le_rfl)⟩

/-- 0.5 in units. -/
theorem F64.half_eq : ∃ k, F64.half = .fin false k ∧ representable k ∧ 2 * k = unitsOne :=
  ⟨2 ^ 1073, rfl, representable_two_pow _, by rw [unitsOne, ← pow_succ']⟩

theorem unitBounds_scaleLow {iv : Interval} (hiv : unitBounds iv.low iv.high) (hhalf : iv.high.le .half = true) :
    unitBounds (scaleLow iv).low (scaleLow iv).high := by
  obtain ⟨l, h, hl, hh, hlh, -⟩ := hiv
  obtain ⟨k, hk, -, hk2⟩ := F64.half_eq
  rw [hh, hk, F64.le_fin, signedUnits_false, signedUnits_false] at hhalf
  rw [scaleLow, hl, hh]
  dsimp only
  exact unitBounds_double hlh (by omega)

theorem unitBounds_scaleHigh {iv : Interval} (hiv : unitBounds iv.low iv.high) (hhalf : F64.half.le iv.low = true) :
    unitBounds (scaleHigh iv).low (scaleHigh iv).high := by
  obtain ⟨l, h, hl, hh, hlh, hone⟩ := hiv
  obtain ⟨k, hk, hrep, hk2⟩ := F64.half_eq
  rw [hl, hk, F64.le_fin, signedUnits_false, signedUnits_false] at hhalf
  have hkl : k ≤ l := by omega
  have hle : roundUnits (h - k) 1 ≤ k := roundUnits_le hrep one_pos (by omega)
  rw [scaleHigh, hl, hh, hk, fsub_units hkl (hlh.trans hone), fsub_units (hkl.trans hlh) hone]
  dsimp only
  exact unitBounds_double (roundUnits_mono one_pos (Nat.sub_le_sub_right hlh k)) (by omega)

theorem unitBounds_boundsOf {CT : List CumEntry} (h : ∀ e ∈ CT, unitBounds e.cl e.ch) (w : Word) :
    unitBounds (boundsOf CT w).1 (boundsOf CT w).2 := by
  unfold boundsOf
  split
  · exact h _ (List.mem_of_find?_eq_some ‹_›)
  · exact unitBounds_zero_one

/-- The bounds of an image's table; the empty image's has none. -/
theorem unitBounds_of_mem_countTable {P : List Word} {e : CumEntry} (he : e ∈ cumTable (countTable P)) :
    unitBounds e.cl e.ch := by
  cases P with
  | nil => cases he
  | cons w P =>
    refine unitBounds_of_mem_cumTable ?_ he
    rw [totalCount, totalCount_countTable]
    exact Nat.succ_pos _

/-! ## The final bit -/

/-- The loop ends with its bounds in the unit interval and low < 0.5 (R196). -/
theorem low_lt_half_of_ariEncodeFrom {cap : Nat} {P : List Word} {r : Interval × Stream}
    (h : ariEncodeFrom cap (cumTable (countTable P)) .start .empty P = .ok r) : r.1.low.lt .half = true := by
  obtain ⟨⟨l, _, hl, -⟩, -, -, hend⟩ := ariEncodeFrom_ok (fun iv => unitBounds iv.low iv.high)
    (fun _ w hiv => unitBounds_narrow hiv (unitBounds_boundsOf (fun _ => unitBounds_of_mem_countTable) w))
    (fun _ => unitBounds_scaleLow) (fun _ => unitBounds_scaleHigh) P unitBounds_zero_one (Nat.zero_le _) rfl h
  have hnot : F64.half.le r.1.low = false := by
    cases P with
    | nil => cases h; decide +kernel
    | cons => exact (hend (List.cons_ne_nil _ _)).2
  refine F64.lt_iff.2 ⟨(F64.le_total ?_ F64.noConfusion).resolve_right (by rw [hnot]; exact Bool.false_ne_true), hnot⟩
  rw [hl]
  exact F64.noConfusion

theorem ariEncode_getLast? {cap : Nat} {P : List Word} {S : Stream} (h : ariEncode cap (countTable P) P = .ok S) :
    S.bits.getLast? = some false := by
  unfold ariEncode at h
  split at h
  · cases h
  · rw [low_lt_half_of_ariEncodeFrom ‹_›, emitBit] at h
    split at h <;> cases h
    simp [Stream.bits]

theorem noError_of_exec {i : Instr} {s t : State} (hst : exec i s = .next t) (herr : t.errcode = .noError) :
    (endingOf i s).code = .noError := by
  rw [exec_eq] at hst
  cases hst
  rw [← herr, (exec_completed i s).errcode]

/-- Settles O56: BITS holds the encoder's stream, whose last bit is `ariEncode_getLast?`. -/
theorem finalBitIsZero : Obligations.FinalBitIsZero := by
  intro s t hwf hst herr
  obtain ⟨⟨hlen, hcap⟩, hsym, S, hS⟩ := fits_of_ariEnc_noError (noError_of_exec hst herr)
  obtain ⟨_, ht, -, -, -, hbits, -⟩ := (ariEncoderResult.1 s _ hwf hlen hcap rfl).1 S hsym hS
  cases hst.symm.trans ht
  rw [hbits, ariEncode_getLast? hS]

end Sys2Proof.Machine
end

section
/-! ARI_ENC of the empty image and of one colour (R195, corner cases 1 and 2): the interval stays [0.0, 1.0]. -/

namespace Sys2Proof.Machine

/-- An image of one colour has one entry, with every pixel counted. -/
theorem countTable_of_one_colour {P : List Word} {w : Word} (hP : P ≠ []) (h : ∀ x ∈ P, x = w) :
    countTable P = [⟨w, P.length⟩] := by
  obtain ⟨x, Q, rfl⟩ := List.exists_cons_of_ne_nil hP
  obtain rfl : x = w := h x List.mem_cons_self
  have hseen : firstSeen (x :: Q) = [x] := by
    rw [firstSeen, List.filter_eq_nil_iff.2 fun y hy => ?_]
    simpa using h y (List.mem_cons_of_mem x (mem_firstSeen.1 hy))
  have hcount : (x :: Q).count x = (x :: Q).length := List.count_eq_length.2 fun y hy => (h y hy).symm
  rw [countTable, hseen, List.map_singleton, hcount]

/-- The only entry of a table spans the whole unit interval. -/
theorem cumTable_singleton (w : Word) {n : Nat} (hn : 0 < n) : cumTable [⟨w, n⟩] = [⟨w, .zero, .one⟩] := by
  have htotal : totalCount [⟨w, n⟩] = n := Nat.add_zero n
  have horder : canonicalOrder [⟨w, n⟩] = [⟨w, n⟩] := rfl
  rw [cumTable_eq, htotal, horder, cumFrom, cumFrom, Nat.zero_add, rn_zero, rn_self hn, F64.zero, F64.one]

theorem narrow_start : narrow .start .zero .one = .start := by decide +kernel

/-- From the whole unit interval no bit is emitted. -/
theorem renormalize_start {cap : Nat} {S : Stream} (hS : S.len ≤ cap) : renormalize cap .start S = .ok (.start, S) := by
  have hhigh : Interval.start.high.le .half = false := by decide +kernel
  have hlow : F64.half.le Interval.start.low = false := by decide +kernel
  rw [renormalize_unfold cap .start S hS, hhigh, hlow]
  rfl

/-- Pixels whose entry spans the unit interval emit nothing. -/
theorem ariEncodeFrom_one_colour {cap : Nat} {CT : List CumEntry} {w : Word} (hw : boundsOf CT w = (.zero, .one))
    {S : Stream} (hS : S.len ≤ cap) {P : List Word} (h : ∀ x ∈ P, x = w) :
    ariEncodeFrom cap CT .start S P = .ok (.start, S) := by
  induction P with
  | nil => rfl
  | cons x P ih =>
    obtain rfl : x = w := h x List.mem_cons_self
    rw [ariEncodeFrom, hw, narrow_start, renormalize_start hS]
    exact ih fun y hy => h y (List.mem_cons_of_mem x hy)

/-- The stream of one colour is the final bit. -/
theorem ariEncode_one_colour {cap : Nat} (hcap : 0 < cap) {P : List Word} {w : Word} (h : ∀ x ∈ P, x = w) :
    ariEncode cap (countTable P) P = .ok ⟨[false], 1⟩ := by
  have hbounds : boundsOf (cumTable (countTable P)) w = (.zero, .one) := by
    by_cases hP : P = []
    · rw [hP]; rfl
    · rw [countTable_of_one_colour hP h, cumTable_singleton w (List.length_pos_iff.2 hP)]
      exact boundsOf_eq (CT := [⟨w, .zero, .one⟩]) (List.nodup_singleton w) (List.mem_singleton_self _)
  have hlow : Interval.start.low.lt .half = true := by decide +kernel
  rw [ariEncode, ariEncodeFrom_one_colour hbounds (Nat.zero_le cap) h]
  dsimp only
  rw [hlow, emitBit_eq cap _ _ (Nat.zero_le cap), if_pos (show Stream.empty.len + 1 ≤ cap from hcap)]
  rfl

/-- Settles O55: the stream is that of `ariEncode_one_colour`, and the table has at most one entry. -/
theorem ariEncoderOneColour : Obligations.AriEncoderOneColour := by
  intro s w hwf hlen hcap hw
  have hS := ariEncode_one_colour (cap := s.caps.bitsCap) (by unfold Caps.wf at hwf; omega) hw
  have hsym : (countTable s.pixIn).length ≤ s.caps.symCap := by
    have hone : (countTable s.pixIn).length ≤ 1 := by
      by_cases hP : s.pixIn = []
      · rw [hP]; exact Nat.zero_le _
      · rw [countTable_of_one_colour hP hw]; exact le_rfl
    unfold Caps.wf at hwf
    omega
  obtain ⟨t, ht, hdone, -, -, hbits, hbitLen, -, -, hcomp, -⟩ := (ariEncoderResult.1 s _ hwf hlen hcap rfl).1 _ hsym hS
  refine ⟨t, ht, hdone, hbitLen, hbits, hcomp, ?_⟩
  rw [exec_eq, endingOf_ariEnc hlen hcap hsym hS] at ht
  cases ht
  rw [State.complete, State.bufRead_finish, State.bufRead_writeArithmetic,
    State.bufRead_bufFill_inside _ _ _ _ (by decide)]
  decide

end Sys2Proof.Machine
end

section
/-! The arithmetic codec knows the pixels by the order of their keys only: renaming them in order renames the table and
the decoded pixels, and leaves the stream (R191, R192, R195, R205). -/

namespace Sys2Proof.Machine

/-! ## Renaming symbols in order -/

/-- Past the lowest byte, the bytes are those of the rest. -/
theorem extractByte_append {n : Nat} (x : BitVec n) (b : Byte) (k : Nat) :
    (x ++ b).extractLsb' (8 + k) 8 = x.extractLsb' k 8 := by
  rw [BitVec.extractLsb'_append_eq_of_le (Nat.le_add_right 8 k), Nat.add_sub_cancel_left]

/-- The bytes of a word made of bytes (R71). -/
theorem byteOfWord_wordOfBytes (b0 b1 b2 b3 : Byte) :
    byteOfWord (wordOfBytes b0 b1 b2 b3) 0 = b0 ∧ byteOfWord (wordOfBytes b0 b1 b2 b3) 1 = b1 ∧
      byteOfWord (wordOfBytes b0 b1 b2 b3) 2 = b2 ∧ byteOfWord (wordOfBytes b0 b1 b2 b3) 3 = b3 := by
  have hdrop := extractByte_append (b3 ++ b2 ++ b1) b0
  have hdrop' := extractByte_append (b3 ++ b2) b1
  exact ⟨BitVec.extractLsb'_append_eq_right, (hdrop 0).trans BitVec.extractLsb'_append_eq_right,
    ((hdrop 8).trans (hdrop' 0)).trans BitVec.extractLsb'_append_eq_right,
    ((hdrop 16).trans (hdrop' 8)).trans BitVec.extractLsb'_append_eq_left⟩

theorem symbolKey_eq (w : Word) :
    symbolKey w = wordOfBytes (byteOfWord w 3) (byteOfWord w 2) (byteOfWord w 1) (byteOfWord w 0) := rfl

/-- Reversing the bytes twice gives the word back (R13). -/
theorem symbolKey_symbolKey (w : Word) : symbolKey (symbolKey w) = w := by
  obtain ⟨h0, h1, h2, h3⟩ :=
    byteOfWord_wordOfBytes (byteOfWord w 3) (byteOfWord w 2) (byteOfWord w 1) (byteOfWord w 0)
  rw [symbolKey_eq (symbolKey w), symbolKey_eq w, h0, h1, h2, h3, wordOfBytes_byteOfWord]

theorem symbolKey_injective : Function.Injective symbolKey := Function.LeftInverse.injective symbolKey_symbolKey

/-- The renaming keeps the order of the keys of the symbols of `P` (R192). -/
def keepsOrder (f : Word → Word) (P : List Word) : Prop :=
  ∀ x ∈ P, ∀ y ∈ P, ((symbolKey (f x)).toNat ≤ (symbolKey (f y)).toNat ↔ (symbolKey x).toNat ≤ (symbolKey y).toNat)

/-- The entry with its symbol renamed. -/
def FreqEntry.rename (f : Word → Word) (e : FreqEntry) : FreqEntry := { e with pix := f e.pix }

/-- The entry with its symbol renamed. -/
def CumEntry.rename (f : Word → Word) (e : CumEntry) : CumEntry := { e with pix := f e.pix }

theorem keepsOrder.eq_iff {f : Word → Word} {P : List Word} (h : keepsOrder f P) {x y : Word} (hx : x ∈ P)
    (hy : y ∈ P) : f x = f y ↔ x = y := by
  refine ⟨fun hxy => symbolKey_injective (BitVec.eq_of_toNat_eq ?_), congrArg f⟩
  have hle := (h x hx y hy).1 (by rw [hxy])
  have hge := (h y hy x hx).1 (by rw [hxy])
  omega

/-! ## The tables -/

theorem firstSeen_map {f : Word → Word} {P : List Word} (h : ∀ x ∈ P, ∀ y ∈ P, f x = f y ↔ x = y) :
    firstSeen (P.map f) = (firstSeen P).map f := by
  induction P with
  | nil => rfl
  | cons w P ih =>
    have hP := ih fun x hx y hy => h x (List.mem_cons_of_mem w hx) y (List.mem_cons_of_mem w hy)
    rw [List.map_cons, firstSeen, hP, firstSeen, List.map_cons, List.filter_map]
    congr 2
    refine List.filter_congr fun x hx => ?_
    have hiff := h x (List.mem_cons_of_mem w (mem_firstSeen.1 hx)) w List.mem_cons_self
    simp only [Function.comp, ne_eq, hiff]

theorem countTable_map {f : Word → Word} {P : List Word} (h : ∀ x ∈ P, ∀ y ∈ P, f x = f y ↔ x = y) :
    countTable (P.map f) = (countTable P).map (FreqEntry.rename f) := by
  rw [countTable, firstSeen_map h, countTable, List.map_map, List.map_map]
  refine List.map_congr_left fun w hw => ?_
  have hcount : (P.map f).count (f w) = P.count w := by
    rw [List.count, List.countP_map, List.count]
    refine List.countP_congr fun x hx => ?_
    simp only [Function.comp, beq_iff_eq, h x hx w (mem_firstSeen.1 hw)]
  simp only [Function.comp, FreqEntry.rename, hcount]

theorem stableInsert_map {α β : Type} {key : α → Nat} {key' : β → Nat} {g : α → β} (x : α) {l : List α}
    (h : ∀ y ∈ l, (key' (g x) ≤ key' (g y) ↔ key x ≤ key y)) :
    stableInsert key' (g x) (l.map g) = (stableInsert key x l).map g := by
  induction l with
  | nil => rfl
  | cons y l ih =>
    have hl := ih fun z hz => h z (List.mem_cons_of_mem y hz)
    rw [List.map_cons, stableInsert, stableInsert, hl]
    simp only [h y List.mem_cons_self]
    split_ifs
    · rfl
    · rfl

theorem stableSort_map {α β : Type} {key : α → Nat} {key' : β → Nat} {g : α → β} {l : List α}
    (h : ∀ x ∈ l, ∀ y ∈ l, (key' (g x) ≤ key' (g y) ↔ key x ≤ key y)) :
    stableSort key' (l.map g) = (stableSort key l).map g := by
  induction l with
  | nil => rfl
  | cons x l ih =>
    have hl := ih fun y hy z hz => h y (List.mem_cons_of_mem x hy) z (List.mem_cons_of_mem x hz)
    rw [List.map_cons, stableSort, hl, stableSort]
    refine stableInsert_map x fun y hy => h x List.mem_cons_self y (List.mem_cons_of_mem x ?_)
    exact (stableSort_perm key l).mem_iff.1 hy

theorem cumFrom_map (f : Word → Word) (tot c : Nat) (O : List FreqEntry) :
    cumFrom tot c (O.map (FreqEntry.rename f)) = (cumFrom tot c O).map (CumEntry.rename f) := by
  induction O generalizing c with
  | nil => rfl
  | cons e O ih =>
    simp only [List.map_cons, cumFrom, FreqEntry.rename, CumEntry.rename] at ih ⊢
    rw [ih]

/-- The table of renamed pixels is the renamed table. -/
theorem cumTable_countTable_map {f : Word → Word} {P : List Word} (h : keepsOrder f P) :
    cumTable (countTable (P.map f)) = (cumTable (countTable P)).map (CumEntry.rename f) := by
  have hpix {e : FreqEntry} (he : e ∈ countTable P) : e.pix ∈ P := by
    rw [← mem_firstSeen, ← countTable_pix]
    exact List.mem_map_of_mem he
  have htotal : totalCount ((countTable P).map (FreqEntry.rename f)) = totalCount (countTable P) := by
    rw [totalCount, List.map_map]
    rfl
  rw [countTable_map fun x hx y hy => h.eq_iff hx hy, cumTable, htotal, cumTable, ← cumFrom_map]
  exact congrArg _ (stableSort_map fun x hx y hy => h _ (hpix hx) _ (hpix hy))

/-! ## The encoder -/

/-- A renamed pixel has its old bounds. -/
theorem boundsOf_map {f : Word → Word} {P : List Word} (h : keepsOrder f P) {w : Word} (hw : w ∈ P) :
    boundsOf (cumTable (countTable (P.map f))) (f w) = boundsOf (cumTable (countTable P)) w := by
  obtain ⟨e, he, rfl, -, hbounds⟩ := exists_unique_cumEntry hw
  obtain ⟨e', -, -, hunique, hbounds'⟩ := exists_unique_cumEntry (List.mem_map_of_mem (f := f) hw)
  have hrename : e.rename f ∈ cumTable (countTable (P.map f)) := by
    rw [cumTable_countTable_map h]
    exact List.mem_map_of_mem he
  rw [hbounds, hbounds', ← hunique _ hrename rfl]
  rfl

theorem ariEncodeFrom_map {cap : Nat} {CT CT' : List CumEntry} {f : Word → Word} {P : List Word}
    (h : ∀ w ∈ P, boundsOf CT' (f w) = boundsOf CT w) (iv : Interval) (S : Stream) :
    ariEncodeFrom cap CT' iv S (P.map f) = ariEncodeFrom cap CT iv S P := by
  induction P generalizing iv S with
  | nil => rfl
  | cons w P ih =>
    rw [List.map_cons, ariEncodeFrom, h w List.mem_cons_self, ariEncodeFrom]
    cases renormalize cap (narrow iv (boundsOf CT w).1 (boundsOf CT w).2) S with
    | error c => rfl
    | ok r => exact ih (fun x hx => h x (List.mem_cons_of_mem w hx)) r.1 r.2

/-- Renaming leaves the stream. -/
theorem ariEncode_map {f : Word → Word} {P : List Word} (h : keepsOrder f P) (cap : Nat) :
    ariEncode cap (countTable (P.map f)) (P.map f) = ariEncode cap (countTable P) P := by
  rw [ariEncode, ariEncodeFrom_map (fun w hw => boundsOf_map h hw), ariEncode]

/-! ## The decoder -/

theorem findSymbol_map (f : Word → Word) (CT : List CumEntry) (iv : Interval) (v : F64) :
    findSymbol (CT.map (CumEntry.rename f)) iv v = (findSymbol CT iv v).map (CumEntry.rename f) :=
  List.find?_map

/-- Renaming the table renames the pixels decoded. -/
theorem ariDecodeFrom_map (f : Word → Word) {CT : List CumEntry} {v : F64} {n : Nat} {iv : Interval} {out : List Word}
    (h : ariDecodeFrom CT v n iv = .ok out) :
    ariDecodeFrom (CT.map (CumEntry.rename f)) v n iv = .ok (out.map f) := by
  induction n generalizing iv out with
  | zero => cases h; rfl
  | succ n ih =>
    cases hx : findSymbol CT iv v with
    | none => rw [ariDecodeFrom_notFound hx] at h; cases h
    | some x =>
      have hx' : findSymbol (CT.map (CumEntry.rename f)) iv v = some (x.rename f) := by rw [findSymbol_map, hx]; rfl
      rw [ariDecodeFrom_found hx] at h
      cases hrest : ariDecodeFrom CT v n (narrow iv x.cl x.ch) with
      | error c => rw [hrest] at h; cases h
      | ok rest =>
        rw [hrest] at h
        cases h
        have hrest' : ariDecodeFrom (CT.map (CumEntry.rename f)) v n (narrow iv (x.rename f).cl (x.rename f).ch) =
            .ok (rest.map f) := ih hrest
        rw [ariDecodeFrom_found hx', hrest']
        rfl

/-! ## A larger capacity leaves the stream -/

section
variable {cap cap' : Nat} (hcap : cap ≤ cap')
include hcap

theorem emitBit_ok_of_le {S S' : Stream} {b : Bool} (hS : S.len ≤ cap) (h : emitBit cap S b = .ok S') :
    emitBit cap' S b = .ok S' := by
  obtain ⟨rfl, hlt⟩ := emitBit_ok h hS
  rw [emitBit_eq cap' S b (hS.trans hcap), if_pos (hlt.trans hcap)]

theorem renormalizeIn_ok_of_le {k k' : Nat} (hk : k ≤ k') {iv : Interval} {S : Stream} {r : Interval × Stream}
    (hS : S.len ≤ cap) (h : renormalizeIn cap k iv S = .ok r) : renormalizeIn cap' k' iv S = .ok r := by
  induction k generalizing iv S k' with
  | zero => cases h
  | succ k ih =>
    obtain ⟨k', rfl⟩ : ∃ j, k' = j + 1 := ⟨k' - 1, by omega⟩
    rw [renormalizeIn, emitBit_eq cap S _ hS, emitBit_eq cap S _ hS] at h
    rw [renormalizeIn, emitBit_eq cap' S _ (hS.trans hcap), emitBit_eq cap' S _ (hS.trans hcap)]
    by_cases hfit : S.len + 1 ≤ cap
    · simp only [if_pos hfit, if_pos (hfit.trans hcap)] at h ⊢
      split_ifs at h ⊢
      · exact ih (by omega) hfit h
      · exact ih (by omega) hfit h
      · exact h
    · simp only [if_neg hfit] at h
      split_ifs at h ⊢
      exact h

theorem ariEncodeFrom_ok_of_le {CT : List CumEntry} {P : List Word} {iv : Interval} {S : Stream}
    {r : Interval × Stream} (hS : S.len ≤ cap) (h : ariEncodeFrom cap CT iv S P = .ok r) :
    ariEncodeFrom cap' CT iv S P = .ok r ∧ r.2.len ≤ cap := by
  induction P generalizing iv S with
  | nil => cases h; exact ⟨rfl, hS⟩
  | cons w P ih =>
    rw [ariEncodeFrom] at h ⊢
    cases hr : renormalize cap (narrow iv (boundsOf CT w).1 (boundsOf CT w).2) S with
    | error c => rw [hr] at h; cases h
    | ok r' =>
      have hr' : renormalize cap' (narrow iv (boundsOf CT w).1 (boundsOf CT w).2) S = .ok r' :=
        renormalizeIn_ok_of_le hcap (by omega) hS hr
      obtain ⟨-, -, -, hlen, -⟩ := renormalizeIn_ok (fun _ => True) (fun _ _ _ => trivial) (fun _ _ _ => trivial) _
        trivial hS hr
      rw [hr] at h
      rw [hr']
      exact ih hlen h

theorem ariEncode_ok_of_le {T : List FreqEntry} {P : List Word} {S : Stream} (h : ariEncode cap T P = .ok S) :
    ariEncode cap' T P = .ok S := by
  rw [ariEncode] at h ⊢
  cases hr : ariEncodeFrom cap (cumTable T) .start .empty P with
  | error c => rw [hr] at h; cases h
  | ok r =>
    obtain ⟨hr', hlen⟩ := ariEncodeFrom_ok_of_le hcap (Nat.zero_le _) hr
    rw [hr] at h
    rw [hr']
    exact emitBit_ok_of_le hcap hlen h

end

/-- One image, encoded and decoded, tells the stream and the pixels decoded for all its renamings in order, at every
legal BITS_CAP. -/
theorem ariCodec_rename {f : Word → Word} {P out : List Word} {S : Stream} (hf : keepsOrder f P)
    (henc : ariEncode 32 (countTable P) P = .ok S)
    (hdec : ariDecodeFrom (cumTable (countTable P)) (encodedValue S.bits) P.length .start = .ok out)
    {cap : Nat} (hcap : 32 ≤ cap) :
    ariEncode cap (countTable (P.map f)) (P.map f) = .ok S ∧
      ariDecodeFrom (cumTable (countTable (P.map f))) (encodedValue S.bits) P.length .start = .ok (out.map f) := by
  rw [ariEncode_map hf, cumTable_countTable_map hf]
  exact ⟨ariEncode_ok_of_le hcap henc, ariDecodeFrom_map f hdec⟩

end Sys2Proof.Machine
end

section
/-! What the arithmetic codec gives back (R206): every image of one or two pixels, and the wrong pixels of three distinct
symbols in canonical order. Each image is a renaming of an image of the words 0, 1 and 2, which is evaluated. -/

namespace Sys2Proof.Machine

/-! ## Symbols with rising keys -/

/-- The keys rise strictly along the list (R192). -/
abbrev rising (P : List Word) : Prop := P.Pairwise (fun x y => (symbolKey x).toNat < (symbolKey y).toNat)

/-- Renaming rising symbols to rising symbols keeps their order. -/
theorem keepsOrder_of_rising {f : Word → Word} {P : List Word} (hP : rising P) (hf : rising (P.map f)) :
    keepsOrder f P := by
  have hboth := hP.and (List.pairwise_map.1 hf)
  exact List.Pairwise.forall_of_forall_of_flip (fun _ _ => by simp only [le_refl])
    (hboth.imp fun h => by omega) (hboth.imp fun h => by dsimp only [flip]; omega)

theorem keepsOrder.of_subset {f : Word → Word} {P Q : List Word} (h : keepsOrder f P) (hQ : Q ⊆ P) : keepsOrder f Q :=
  fun x hx y hy => h x (hQ hx) y (hQ hy)

/-- The words 0, 1 and 2 stand for `a`, `b` and `c`. -/
def nameSymbols (a b c : Word) (x : Word) : Word := if x = 0 then a else if x = 1 then b else c

/-- Settles O60: the words 0, 1 and 2 encode to '0010' and decode to 0, 1 and 0. -/
theorem arithmeticDecodesWrongPixels : Obligations.ArithmeticDecodesWrongPixels := by
  intro cap a b c hcap hab hbc
  have henc : ariEncode 32 (countTable [0, 1, 2]) [0, 1, 2] = .ok ⟨[false, true, false, false], 4⟩ := by
    decide +kernel
  have hdec : ariDecodeFrom (cumTable (countTable [0, 1, 2])) (encodedValue [false, false, true, false]) 3 .start =
      .ok [0, 1, 0] := by decide +kernel
  have hrising : rising [a, b, c] := by simp [hab, hbc, hab.trans hbc]
  have hnames : keepsOrder (nameSymbols a b c) [0, 1, 2] := keepsOrder_of_rising (by decide) hrising
  obtain ⟨henc', hdec'⟩ := ariCodec_rename hnames henc hdec hcap
  exact ⟨⟨_, henc', rfl⟩, hdec'⟩

/-! ## One or two pixels -/

/-- The image is encoded, and decoded from its table and its stream, without an error and to itself. -/
def ariRoundTrips (cap : Nat) (P : List Word) : Prop :=
  ∃ S, ariEncode cap (countTable P) P = .ok S ∧
    ariDecodeFrom (cumTable (countTable P)) (encodedValue S.bits) P.length .start = .ok P

theorem ariRoundTrips_map {cap : Nat} (hcap : 32 ≤ cap) {f : Word → Word} {P : List Word} (hf : keepsOrder f P)
    (h : ariRoundTrips 32 P) : ariRoundTrips cap (P.map f) := by
  obtain ⟨S, henc, hdec⟩ := h
  obtain ⟨henc', hdec'⟩ := ariCodec_rename hf henc hdec hcap
  exact ⟨S, henc', by rwa [List.length_map]⟩

section
variable {cap : Nat} (hcap : 32 ≤ cap)
include hcap

theorem ariRoundTrips_one_colour (w : Word) : ariRoundTrips cap [w] ∧ ariRoundTrips cap [w, w] := by
  have hone : ariRoundTrips 32 [0] := ⟨⟨[false], 1⟩, by decide +kernel⟩
  have htwo : ariRoundTrips 32 [0, 0] := ⟨⟨[false], 1⟩, by decide +kernel⟩
  have hname : keepsOrder (fun _ => w) [0] := keepsOrder_of_rising (List.pairwise_singleton _ _)
    (List.pairwise_singleton _ _)
  have hone' := ariRoundTrips_map hcap hname hone
  have htwo' := ariRoundTrips_map hcap (hname.of_subset (by simp)) htwo
  exact ⟨hone', htwo'⟩

/-- Two colours, in either order of the pixels. -/
theorem ariRoundTrips_two_colours {a b : Word} (hab : (symbolKey a).toNat < (symbolKey b).toNat) :
    ariRoundTrips cap [a, b] ∧ ariRoundTrips cap [b, a] := by
  have hrise : ariRoundTrips 32 [0, 1] := ⟨⟨[false, true, false], 3⟩, by decide +kernel⟩
  have hfall : ariRoundTrips 32 [1, 0] := ⟨⟨[false, false, true], 3⟩, by decide +kernel⟩
  have hrising : rising [a, b] := by simp [hab]
  have hnames : keepsOrder (nameSymbols a b b) [0, 1] := keepsOrder_of_rising (by decide) hrising
  have hrise' := ariRoundTrips_map hcap hnames hrise
  have hfall' := ariRoundTrips_map hcap (hnames.of_subset (by simp)) hfall
  exact ⟨hrise', hfall'⟩

theorem ariRoundTrips_of_length_le_two {P : List Word} (hpos : 1 ≤ P.length) (hlen : P.length ≤ 2) :
    ariRoundTrips cap P := by
  match P, hpos, hlen with
  | [a], _, _ => exact (ariRoundTrips_one_colour hcap a).1
  | [a, b], _, _ =>
    rcases lt_trichotomy (symbolKey a).toNat (symbolKey b).toNat with hab | hab | hab
    · exact (ariRoundTrips_two_colours hcap hab).1
    · obtain rfl := symbolKey_injective (BitVec.eq_of_toNat_eq hab)
      exact (ariRoundTrips_one_colour hcap a).2
    · exact (ariRoundTrips_two_colours hcap hab).2

end

/-- Settles O59: the encoder leaves the image's table and stream, which decode to the image. -/
theorem arithmeticRoundTripUpToTwo : Obligations.ArithmeticRoundTripUpToTwo := by
  intro s t u hwf hpos htwo hst herr htu
  obtain ⟨⟨hlen, hcap⟩, hsym, -⟩ := fits_of_ariEnc_noError (noError_of_exec hst herr)
  have hbitsCap : 32 ≤ s.caps.bitsCap := by
    obtain ⟨-, -, -, ⟨h, -⟩⟩ := hwf
    exact h
  rw [← State.pixIn_length] at hpos htwo
  obtain ⟨S, henc, hdec⟩ := ariRoundTrips_of_length_le_two hbitsCap hpos htwo
  obtain ⟨_, ht, hdone, hfreq, hcount, hbits, hbitLen, hfit, -, -, -, hkept⟩ :=
    (ariEncoderResult.1 s _ hwf hlen hcap rfl).1 S hsym henc
  cases hst.symm.trans ht
  have hN : t.pixelCount = s.pixelCount := hkept.pixelCount (by decide) (by decide)
  have htotal : 0 < totalCount t.freqList := by
    rw [hfreq, totalCount, totalCount_countTable]
    exact hpos
  have hdec' : t.ariDecoded = .ok s.pixIn := by
    rw [State.ariDecoded, hfreq, hbits, hN, ← State.pixIn_length, hdec]
  obtain ⟨_, hu, hudone, -, hout, hpix, -⟩ := (ariDecoderResult.1 t (by rwa [hdone.caps]) (by rwa [hN, hdone.caps])
    (by rwa [hcount, hdone.caps]) (by rwa [hbitLen, hdone.caps]) (.inr htotal)).1 _ hdec'
  cases htu.symm.trans hu
  refine ⟨hudone.errcode, hout.trans hN, fun p hp => ?_⟩
  rw [hpix p (by rwa [State.pixIn_length])]
  simp [State.pixIn]

end Sys2Proof.Machine
end

section
/-! Waiting, bounded completion and the interrupt (R236, R240, R247, R261). -/

namespace Sys2Proof.Machine

/-- Settles O11: the sequencer's turn leaves an idle block as it is. -/
theorem idleBlockWaits : Obligations.IdleBlockWaits := by
  intro s hs
  refine ⟨fun hnil => ?_, fun rest hrest => ?_⟩
  · rw [step_noEvent hnil, turn_idle hs]
  · rw [step_sequencer hrest, turn_idle (s := { s with agenda := rest }) hs]

/-- At most `k` steps complete the command in CMD. -/
def State.completesWithin (s : State) (k : Nat) : Prop :=
  ∃ n t, n ≤ k ∧ core.run n s = .next t ∧ t.seq = .idle ∧ t.done = true ∧ t.cmd = s.cmd

/-- The sequencer's turn on a running command completes it. -/
theorem completesWithin_of_turn {s u : State} (hstep : step s = .next u.turn) (hu : u.seq = .busy)
    (hcmd : u.cmd = s.cmd) {k : Nat} (hk : 1 ≤ k) : s.completesWithin k := by
  have hc := running_completed u
  rw [turn_busy hu] at hstep
  exact ⟨1, _, hk, run_next core hstep, hc.seq, hc.done, hc.cmd.trans hcmd⟩

/-- A step that leaves CMD delays the completion by one. -/
theorem State.completesWithin.of_step {s u : State} {k : Nat} (h : u.completesWithin k) (hstep : step s = .next u)
    (hcmd : u.cmd = s.cmd) : s.completesWithin (k + 1) := by
  obtain ⟨n, t, hn, hrun, hseq, hdone, ht⟩ := h
  exact ⟨n + 1, t, Nat.succ_le_succ hn, (run_next core hstep).trans hrun, hseq, hdone, ht.trans hcmd⟩

/-- Settles O10: by induction on the waiting events; an access leaves the command running, and the first turn of the
sequencer, which comes at the latest when no event waits, completes it. -/
theorem everyCommandCompletes : Obligations.EveryCommandCompletes := by
  intro s hs hreset
  change s.completesWithin (s.agenda.length + 1)
  induction hag : s.agenda generalizing s with
  | nil => exact completesWithin_of_turn (step_noEvent hag) hs rfl le_rfl
  | cons e rest ih =>
    rw [hag, List.mem_cons, not_or] at hreset
    obtain ⟨hne, hrest⟩ := hreset
    cases e with
    | reset => exact absurd rfl hne
    | sequencer => exact completesWithin_of_turn (step_sequencer hag) hs rfl (Nat.le_add_left _ _)
    | access x =>
      obtain ⟨r, d, hx⟩ := busAccess_busy (s := { s with agenda := rest }) hs x
      exact (ih { s with agenda := rest, reply := r, draws := d } hs hrest rfl).of_step
        ((step_access hag).trans (congrArg _ hx)) rfl

/-! ## What sets DONE -/

/-- A completion raises `irq` where it is enabled (R240). -/
theorem Completed.irq {s t : State} {code : ErrCode} (h : Completed s t code) : t.irq = s.irqEn := by
  rw [State.irq, h.done, h.irqEn, Bool.true_and]

/-- No store sets DONE (R35, R100). -/
theorem done_of_storeAt {s : State} {v : Word} {l : Location} (h : (s.storeAt v l).done = true) : s.done = true := by
  cases l with
  | cmd => exact absurd h Bool.false_ne_true
  | status =>
    have h : (s.writeStatus v).done = true := h
    rw [State.writeStatus_done, Bool.and_eq_true] at h
    exact h.1
  | data d =>
    rw [State.storeAt_data] at h
    split at h <;> exact h
  | _ => exact h

/-- No access sets DONE. -/
theorem done_of_busAccess {s : State} {x : BusAccess} (h : (s.busAccess x).done = true) : s.done = true := by
  cases hs : s.seq with
  | busy =>
    obtain ⟨r, d, hx⟩ := busAccess_busy hs x
    rwa [hx] at h
  | idle =>
    unfold State.busAccess at h
    split at h
    · split at h
      · rwa [memRead_idle hs] at h
      · rw [memWrite_idle hs] at h
        exact done_of_storeAt h
    · exact h

/-- The sequencer sets DONE by completing a command, which raises `irq` where it is enabled (R236, R240). -/
theorem completion_of_turn_done {s : State} (h : s.done = false) (ht : s.turn.done = true) :
    s.seq = .busy ∧ s.turn.seq = .idle ∧ s.turn.irq = s.irqEn := by
  cases hs : s.seq with
  | idle =>
    rw [turn_idle hs, h] at ht
    exact absurd ht Bool.false_ne_true
  | busy =>
    rw [turn_busy hs]
    exact ⟨rfl, (running_completed s).seq, (running_completed s).irq⟩

/-- Of all events only the sequencer's turn sets DONE. -/
theorem completion_of_afterEvent_done {s : State} (h : s.done = false) (ht : s.afterEvent.done = true) :
    s.seq = .busy ∧ s.afterEvent.seq = .idle ∧ s.afterEvent.irq = s.irqEn := by
  unfold State.afterEvent at ht ⊢
  split at ht
  · exact completion_of_turn_done h ht
  · exact completion_of_turn_done (s := s.popEvent) h ht
  · have hdone : s.done = true := done_of_busAccess (s := s.popEvent) ht
    exact absurd (h.symm.trans hdone) Bool.false_ne_true
  · exact absurd ht Bool.false_ne_true

/-- Settles O26: a completion sets DONE and keeps IRQ_EN; among the events only a completion sets DONE; each of the four
ways clears DONE or IRQ_EN. -/
theorem interruptLevel : Obligations.InterruptLevel := by
  refine ⟨fun _ => rfl, fun s t i hst => ?_, fun s t hst hs ht => ?_, fun s v rest hs hway => ?_⟩
  · rw [exec_eq] at hst
    cases hst
    exact (exec_completed i s).irq
  · rw [step_eq] at hst
    cases hst
    exact completion_of_afterEvent_done hs ht
  · rcases hway with ⟨hag, hv⟩ | hag | ⟨hag, hv⟩ | hag
    · refine ⟨_, step_write_idle hs (by decide) hag, ?_⟩
      show ((s.writeStatus v).done && (s.writeStatus v).irqEn) = false
      simp [hv]
    · exact ⟨_, step_write_idle hs (by decide) hag, rfl⟩
    · refine ⟨_, step_write_idle hs (by decide) hag, ?_⟩
      show (s.done && v.getLsbD 0) = false
      rw [hv, Bool.and_false]
    · exact ⟨_, step_reset hag, rfl⟩

end Sys2Proof.Machine
end

section
/-! The errors of the commands: the input checks in their order, and which codes each command reports (R231, R233,
R234). -/

namespace Sys2Proof.Machine

/-! ## The input check of a command -/

/-- The first check of a command that fails, with its error (R233). -/
def State.inputCheck (s : State) : Instr → Option ErrCode
  | .freqScan | .rleEnc | .qrleEnc | .hufEnc | .ariEnc => s.checkInputPixels
  | .rleDec => s.checkRleDec
  | .hufDec => s.checkHufDec
  | .ariDec => s.checkAriDec

/-- A failing check ends its command. -/
theorem endingOf_of_inputCheck {i : Instr} {s : State} {c : ErrCode} (h : s.inputCheck i = some c) :
    endingOf i s = .checkError c := by
  cases i <;> simp only [State.inputCheck] at h
  case freqScan => rw [endingOf, freqScanEnding, h]
  case rleEnc | qrleEnc => rw [endingOf, rleEncEnding, h]
  case rleDec => rw [endingOf, rleDecEnding, h]
  case hufEnc => rw [endingOf, hufEncEnding, h]
  case hufDec => rw [endingOf, hufDecEnding, h]
  case ariEnc => rw [endingOf, ariEncEnding, h]
  case ariDec => rw [endingOf, ariDecEnding, h]

/-- The errors that the checks of a command raise (R231). -/
def checkErrors : Instr → List ErrCode
  | .rleDec => [.capacity]
  | .freqScan | .rleEnc | .qrleEnc | .hufEnc | .hufDec | .ariEnc | .ariDec => [.malformed, .capacity]

theorem mem_checkErrors {i : Instr} {s : State} {c : ErrCode} (h : s.inputCheck i = some c) : c ∈ checkErrors i := by
  have hpair : c = .malformed ∨ c = .capacity → c ∈ [ErrCode.malformed, .capacity] := by simp
  cases i
  case rleDec => exact List.mem_singleton.2 (checkRleDec_some h)
  case hufDec => exact hpair (checkHufDec_some h)
  case ariDec => exact hpair (checkAriDec_some h)
  all_goals exact hpair (checkInputPixels_some h)

/-- A failing check changes nothing but STATUS (R234). -/
theorem exec_of_inputCheck {i : Instr} {s : State} {c : ErrCode} (h : s.inputCheck i = some c) :
    exec i s = .next (s.withError c) := by
  have hne : ErrCode.noError ∉ checkErrors i := by cases i <;> decide
  have hc : c ≠ .noError := fun hc => hne (hc ▸ mem_checkErrors h)
  rw [exec_eq, endingOf_of_inputCheck h, State.complete, State.finish, decide_eq_true hc]
  rfl

/-! ## Each command's checks -/

section
variable {s : State}

theorem checkInputPixels_malformed (h : s.regNat .pixLen ≠ 4 * s.pixelCount) :
    s.checkInputPixels = some .malformed := if_pos h

theorem checkInputPixels_capacity (hlen : s.regNat .pixLen = 4 * s.pixelCount) (hN : s.caps.pixCap < s.pixelCount) :
    s.checkInputPixels = some .capacity := by
  rw [State.checkInputPixels, if_neg (not_not.2 hlen), if_pos hN]

theorem checkRleDec_capacity (h : s.caps.pixCap < s.pixelCount ∨ s.caps.runCap < s.regNat .runCount) :
    s.checkRleDec = some .capacity := by
  unfold State.checkRleDec
  split_ifs
  · rfl
  · rfl
  · omega

theorem checkHufDec_capacity (h : s.caps.pixCap < s.pixelCount ∨ s.caps.bitsCap < s.regNat .bitLen ∨
    nodeCap s.caps < s.regNat .nodeCount) : s.checkHufDec = some .capacity := by
  unfold State.checkHufDec
  split_ifs
  · rfl
  · rfl
  · rfl
  all_goals omega

theorem checkHufDec_malformed (hN : s.pixelCount ≤ s.caps.pixCap) (hbits : s.regNat .bitLen ≤ s.caps.bitsCap)
    (hnodes : s.regNat .nodeCount ≤ nodeCap s.caps) (hpos : 0 < s.pixelCount) (htree : s.treeValid = false) :
    s.checkHufDec = some .malformed := by
  rw [State.checkHufDec, if_neg (Nat.not_lt.2 hN), if_neg (Nat.not_lt.2 hbits), if_neg (Nat.not_lt.2 hnodes),
    if_pos ⟨hpos, htree⟩]

theorem checkAriDec_capacity (h : s.caps.pixCap < s.pixelCount ∨ s.caps.symCap < s.regNat .symCount ∨
    s.caps.bitsCap < s.regNat .bitLen) : s.checkAriDec = some .capacity := by
  unfold State.checkAriDec
  split_ifs
  · rfl
  · rfl
  · rfl
  all_goals omega

theorem checkAriDec_malformed (hN : s.pixelCount ≤ s.caps.pixCap) (hsym : s.regNat .symCount ≤ s.caps.symCap)
    (hbits : s.regNat .bitLen ≤ s.caps.bitsCap) (hpos : 0 < s.pixelCount) (htotal : totalCount s.freqList = 0) :
    s.checkAriDec = some .malformed := by
  rw [State.checkAriDec, if_neg (Nat.not_lt.2 hN), if_neg (Nat.not_lt.2 hsym), if_neg (Nat.not_lt.2 hbits),
    if_pos ⟨hpos, htotal⟩]

/-- Tree validity as R172 has it: a node, the root inside, every kind known, every child inside. -/
theorem treeValid_iff : s.treeValid = true ↔
    1 ≤ s.regNat .nodeCount ∧ s.regNat .root < s.regNat .nodeCount ∧
      ∀ k < s.regNat .nodeCount, s.treeKind k = 0 ∨ s.treeKind k = 1 ∧
        (s.treeA k).toNat < s.regNat .nodeCount ∧ (s.treeB k).toNat < s.regNat .nodeCount := by
  simp [State.treeValid, State.treeNodeValid, and_assoc]

theorem treeValid_eq_false (h : s.regNat .nodeCount = 0 ∨ s.regNat .nodeCount ≤ s.regNat .root ∨
    (∃ k < s.regNat .nodeCount, s.treeKind k ≠ 0 ∧ s.treeKind k ≠ 1) ∨
    ∃ k < s.regNat .nodeCount, s.treeKind k = 1 ∧
      (s.regNat .nodeCount ≤ (s.treeA k).toNat ∨ s.regNat .nodeCount ≤ (s.treeB k).toNat)) :
    s.treeValid = false := by
  rw [← Bool.not_eq_true, treeValid_iff]
  rintro ⟨hnode, hroot, hnodes⟩
  rcases h with h | h | ⟨k, hk, h0, h1⟩ | ⟨k, hk, h1, hchild⟩
  · omega
  · omega
  · rcases hnodes k hk with hkind | ⟨hkind, -⟩
    · exact h0 hkind
    · exact h1 hkind
  · rcases hnodes k hk with hkind | ⟨-, ha, hb⟩
    · rw [h1] at hkind
      exact absurd hkind (by decide)
    · omega

/-- A table whose counts are all 0 has the total 0 (R200). -/
theorem totalCount_freqList_eq_zero (h : ∀ e < s.regNat .symCount, s.bufRead .freq (2 * e + 1) = 0) :
    totalCount s.freqList = 0 := by
  simp only [totalCount, State.freqList, List.map_map, List.sum_eq_zero_iff, List.mem_map, List.mem_range]
  rintro n ⟨e, he, rfl⟩
  exact congrArg BitVec.toNat (h e he)

end

/-- Settles O30: each condition makes the command's check fail with its error, which changes nothing but STATUS. -/
theorem inputChecksInOrder : Obligations.InputChecksInOrder := by
  rintro s i N rfl
  cases i
  case rleDec => exact fun h => exec_of_inputCheck (i := .rleDec) (checkRleDec_capacity h)
  case hufDec =>
    exact ⟨fun h => exec_of_inputCheck (i := .hufDec) (checkHufDec_capacity h),
      fun hN hbits hnodes hpos htree =>
        exec_of_inputCheck (i := .hufDec) (checkHufDec_malformed hN hbits hnodes hpos (treeValid_eq_false htree))⟩
  case ariDec =>
    exact ⟨fun h => exec_of_inputCheck (i := .ariDec) (checkAriDec_capacity h),
      fun hN hsym hbits hpos hcounts => exec_of_inputCheck (i := .ariDec)
        (checkAriDec_malformed hN hsym hbits hpos (totalCount_freqList_eq_zero hcounts))⟩
  all_goals
    exact ⟨fun h => exec_of_inputCheck (checkInputPixels_malformed h),
      fun hlen hN => exec_of_inputCheck (checkInputPixels_capacity hlen hN)⟩

/-! ## The codes that a command reports -/

/-- The errors that a command raises in processing (R231, R234). -/
def processingErrors : Instr → List ErrCode
  | .freqScan | .rleEnc | .qrleEnc | .hufEnc | .ariEnc => [.capacity]
  | .rleDec | .hufDec => []
  | .ariDec => [.symbolNotFound]

theorem rleEncEnding_code_of_checked {s : State} (h : s.checkInputPixels = none) (P : List Word) :
    (rleEncEnding s P).code = .noError ∨ (rleEncEnding s P).code ∈ [ErrCode.capacity] := by
  rw [rleEncEnding, h]
  cases hU : rleRuns s.caps.runCap P with
  | ok U => exact .inl rfl
  | error c => exact .inr (List.mem_singleton.2 (rleRuns_error hU))

/-- Past its checks a command succeeds or raises an error in processing. -/
theorem endingOf_code_of_checked {i : Instr} {s : State} (h : s.inputCheck i = none) :
    (endingOf i s).code = .noError ∨ (endingOf i s).code ∈ processingErrors i := by
  cases i <;> simp only [State.inputCheck] at h
  case freqScan =>
    rw [endingOf, freqScanEnding, h]
    cases hT : freqModel s.caps.symCap s.pixIn with
    | ok T => exact .inl rfl
    | error c => exact .inr (List.mem_singleton.2 (freqModel_error hT))
  case rleEnc | qrleEnc => exact rleEncEnding_code_of_checked h _
  case rleDec => rw [endingOf, rleDecEnding, h]; exact .inl rfl
  case hufEnc =>
    rw [endingOf, hufEncEnding, h]
    cases hT : freqModel s.caps.symCap s.pixIn with
    | error c => exact .inr (List.mem_singleton.2 (freqModel_error hT))
    | ok T =>
      simp only
      split
      · exact .inr (List.mem_singleton.2 (emitCodes_error ‹_›).1)
      · exact .inl rfl
  case hufDec => rw [endingOf, hufDecEnding, h]; exact .inl rfl
  case ariEnc =>
    rw [endingOf, ariEncEnding, h]
    cases hT : freqModel s.caps.symCap s.pixIn with
    | error c => exact .inr (List.mem_singleton.2 (freqModel_error hT))
    | ok T =>
      simp only
      split
      · exact .inr (List.mem_singleton.2 (ariEncode_error ‹_›))
      · exact .inl rfl
  case ariDec =>
    rw [endingOf, ariDecEnding, h]
    simp only
    split
    · exact .inl rfl
    · split
      · exact .inr (List.mem_singleton.2 (ariDecodeFrom_error ‹_›))
      · exact .inl rfl

/-- A command reports no error, an error of its checks, or one raised in processing. -/
theorem endingOf_code_mem (i : Instr) (s : State) :
    (endingOf i s).code ∈ .noError :: (checkErrors i ++ processingErrors i) := by
  rw [List.mem_cons, List.mem_append]
  cases hc : s.inputCheck i with
  | some c =>
    rw [endingOf_of_inputCheck hc]
    exact .inr (.inl (mem_checkErrors hc))
  | none => exact (endingOf_code_of_checked hc).imp_right .inr

/-- Settles O31: the codes of `endingOf_code_mem` are those of R231's row of the command. -/
theorem errorsOfEachCommand : Obligations.ErrorsOfEachCommand := by
  intro i s t hst
  rw [exec_eq] at hst
  cases hst
  rw [(exec_completed i s).errcode]
  refine List.subset_def.1 ?_ (endingOf_code_mem i s)
  cases i <;> decide

end Sys2Proof.Machine
end

section
/-! Accesses while BUSY, and the reset input (R260, R262, R271, R272). -/

namespace Sys2Proof.Machine

/-- A read while BUSY of a location that does not show takes a draw (R271). -/
theorem step_read_hidden {s : State} {o : Word} {rest : List Event} (hs : s.seq = .busy)
    (hl : (lookupLocation s.caps o.toNat).hiddenWhileBusy = true) (ho : o.toNat % 4 = 0)
    (h : s.agenda = .access ⟨.read, o, 4⟩ :: rest) :
    step s = .next { s with agenda := rest, draws := s.draws + 1, reply := .data (Config.draw s.draws) } := by
  rw [step_access h, busAccess_read _ ho, memRead_busy_hidden (s := { s with agenda := rest }) hs hl]
  rfl

/-- Settles O20: a data register or a buffer word is hidden, every other location shows its value. -/
theorem readsWhileBusy : Obligations.ReadsWhileBusy := by
  intro s o rest hs ho hag
  have hhidden := step_read_hidden hs (ho := ho) (h := hag)
  have hvisible := step_read_visible (ho := ho) (h := hag)
  cases hl : lookupLocation s.caps o.toNat with
  | data | word => exact hhidden (by rw [hl]; rfl)
  | _ => rw [hl] at hvisible; exact hvisible rfl

/-- Settles O21: while BUSY a write is dropped, whatever stands at its offset. -/
theorem writesWhileBusyAreDropped : Obligations.WritesWhileBusyAreDropped := fun _ _ _ _ => step_write_busy

/-- Settles O12: the registers are those of `State.resetWith`, and no byte is listed, so each reads as its draw. -/
theorem resetInput : Obligations.ResetInput := by
  intro s rest hag
  have hdata : ∀ d, (State.resetWith s.caps).reg d = 0 := fun d => by cases d <;> rfl
  exact ⟨_, step_reset hag, rfl, rfl, rfl, rfl, rfl, statusWord_resetWith s.caps, ctrlWord_eq_setWidth _, hdata,
    rfl, rfl, rfl, rfl, rfl, rfl, fun _ => rfl⟩

end Sys2Proof.Machine
end

section
/-! The empty image straight after reset (R195, R263). -/

namespace Sys2Proof.Machine

/-- The number of bits that a command reports for the empty image: ARI_ENC its one final bit, every other command none
(R195). -/
def emptyImageBits (i : Instr) : Word := if i = .ariEnc then 1 else 0

/-- The registers that a command leaves for the empty image straight after reset. -/
def emptyImageRegs (i : Instr) : Regs :=
  { Regs.reset with bitLen := emptyImageBits i, compSize := emptyImageBits i }

/-- Straight after reset every command passes its checks and succeeds; the table, the runs, the tree and the pixels it
writes are empty. -/
theorem endingOf_resetWith {c : Caps} (hc : c.wf) (i : Instr) :
    ∃ t, endingOf i (State.resetWith c) = .success t ∧ t.regs = emptyImageRegs i := by
  have hcap : (State.resetWith c).pixelCount ≤ c.pixCap := Nat.zero_le _
  cases i with
  | freqScan => exact ⟨_, (endingOf_freqScan rfl hcap).trans (if_pos (Nat.zero_le _)), rfl⟩
  | rleEnc | qrleEnc => exact ⟨_, (rleEncEnding_of_checks rfl hcap []).trans (if_pos (Nat.zero_le _)), rfl⟩
  | rleDec => exact ⟨_, endingOf_rleDec hcap (Nat.zero_le _), rfl⟩
  | hufEnc =>
    exact ⟨_, (endingOf_hufEnc rfl hcap rfl rfl rfl).trans
      ((if_pos (Nat.zero_le _)).trans (if_pos (Nat.zero_le _))), State.writeHuffman_regs ..⟩
  | hufDec => exact ⟨_, endingOf_hufDec hcap (Nat.zero_le _) (Nat.zero_le _) (.inl rfl), rfl⟩
  | ariEnc =>
    obtain ⟨-, -, -, hbits, -⟩ := hc
    have hstream := ariEncode_one_colour (cap := c.bitsCap) (by omega) (P := []) (w := 0) nofun
    exact ⟨_, endingOf_ariEnc rfl hcap (Nat.zero_le _) hstream, State.writeArithmetic_regs ..⟩
  | ariDec => exact ⟨_, endingOf_ariDec hcap (Nat.zero_le _) (Nat.zero_le _) (.inl rfl) (out := []) rfl, rfl⟩

/-- Settles O14: the completion of the success of `endingOf_resetWith` keeps its registers. -/
theorem emptyImageSucceedsAfterReset : Obligations.EmptyImageSucceedsAfterReset := by
  intro c i hc
  obtain ⟨t, ht, hregs⟩ := endingOf_resetWith hc i
  have hreg : ∀ d, (t.finish .noError).reg d = (emptyImageRegs i).get d := fun d => congrArg (Regs.get · d) hregs
  have hdone := exec_completed i (State.resetWith c)
  rw [ht] at hdone
  refine ⟨t.finish .noError, by rw [exec_eq, ht]; rfl, hdone, fun d hbits hsize => ?_, hreg .bitLen, hreg .compSize⟩
  rw [hreg]
  cases d with
  | bitLen => exact absurd rfl hbits
  | compSize => exact absurd rfl hsize
  | _ => rfl

end Sys2Proof.Machine
end
